-- ==== Sys2Proof/Word.lean ====
section
/-!
DEFINITION. The values the units hold and move: bytes, codes, indices, and the fixed-length arrays of them that rules
R28, R29 and R80 to R90 name, with the two small name types that a request needs (which unit, which port).
-/

namespace Sys2Proof

/-- One pixel, one palette entry, one byte of a buffer (R4 PIXEL_BITS, R6). -/
abbrev Byte := BitVec 8

/-- Format CODE: a 2-bit codeword (R84). -/
abbrev Code := BitVec 2

/-- Format IDX: the 3-bit palette index `{HALF, CODE}` (R85). -/
abbrev PalIdx := BitVec 3

/-- Format PIXIDX: the 4-bit index of a pixel in its block (R90). -/
abbrev PixIdx := BitVec 4

/-- Format CW: the 32-bit codeword word (R83). -/
abbrev CodeWord := BitVec 32

/-- Format BLOCK: sixteen pixels in row-major order (R82). -/
abbrev Block := Vector Byte 16

/-- Format CBLOCK: the six bytes `[val0, val1, CW[31:24], CW[23:16], CW[15:8], CW[7:0]]` (R81). -/
abbrev CBlock := Vector Byte 6

/-- The eight candidate values `P[0..7]` (R110). -/
abbrev Palette := Vector Byte 8

/-- One row of the residual table: the eight residuals of one pixel (R130). -/
abbrev ResRow := Vector Byte 8

/-- The residual table `RES[0..15][0..7]`, the source's `perPixel` (R130). -/
abbrev ResTable := Vector ResRow 16

/-- The totals `TOT[0..7]`, exact sums (R131). -/
abbrev Totals := Vector Nat 8

/-- The sixteen codes `CODE[0..15]` of a block (R151). -/
abbrev Codes := Vector Code 16

/-- The two kinds of unit (R9). -/
inductive UnitSel where
  | enc
  | dec
  deriving DecidableEq, Repr

/-- Where a request word is presented: which port decides how the word is read, no word holds an opcode bit (R80, R86,
R91). `pal` is the input of the palette-entry map, whose word is the 3-bit palette index. -/
inductive Port where
  | enc
  | dec
  | pal
  deriving DecidableEq, Repr

end Sys2Proof
end

