-- ==== Sys2Proof/Config.lean ====
section
/-!
DEFINITION. What the spec leaves open, as constants with no body, so that no proof can see a value: the latencies
(R5, U12) and the values a register takes when a rule says it "becomes unspecified" (R36, R157, R177, R240, U7).

Every one is applied to a pair of plain numbers that a unit of State holds: `tag`, which unit of the platform it is, and
`seq`, how many requests and resets that unit has taken. Two units, or two requests of one unit, therefore never share
a free value unless the spec makes them equal (assumption 3).
-/

namespace Sys2Proof.Config

/-- `ENC_LATENCY - 1` of request number `seq` of the ENC unit `tag` (R5, R158, R249): any natural number. -/
opaque encLatencyExtra (tag seq : Nat) : Nat

/-- `DEC_LATENCY - 1` of request number `seq` of the DEC unit `tag` (R5, R178, R249): any natural number. -/
opaque decLatencyExtra (tag seq : Nat) : Nat

/-- What `BLK` holds after a reset (R240). -/
opaque freeBlk (tag seq : Nat) : Block

/-- What `E_CB` holds while it is unspecified (R157, R240). -/
opaque freeECb (tag seq : Nat) : CBlock

/-- What `D_CB` holds after a reset (R240). -/
opaque freeDCb (tag seq : Nat) : CBlock

/-- What `D_PIX` holds after a reset (R240). -/
opaque freeDPix (tag seq : Nat) : PixIdx

/-- What `D_PX` holds while it is unspecified (R177, R240). -/
opaque freeDPx (tag seq : Nat) : Byte

end Sys2Proof.Config
end

