-- ==== Sys2Proof/Syntax.lean ====
section
/-!
DEFINITION. The rows of spec/opcode_table.json, one constructor each, with the operands that the row's rule gives it.
-/

namespace Sys2Proof

/-- One row of the operation table (R91): the operation of each unit, the eight entries of the palette-entry map, the
thirteen stages, the pseudo-operation, the two host procedures and the reset signal.

The two host procedures name no operand here: IMG, CMP, `width` and `height` are the host's own variables and stand in
the state (R33, R36). -/
inductive Instr where
  /-- ENCODE_BLOCK (R156): the transaction `ENC p0 .. p15` on the ENC unit (R95). -/
  | encodeBlock (blk : Block)
  /-- DECODE_PIXEL (R174): the transaction `DEC b0 .. b5 , i` on the DEC unit (R95). -/
  | decodePixel (cb : CBlock) (pix : PixIdx)
  /-- PAL0 (R111). -/
  | pal0 (val0 val1 : Byte) (flip : Bool)
  /-- PAL1 (R112). -/
  | pal1 (val0 val1 : Byte) (flip : Bool)
  /-- PAL2 (R113). -/
  | pal2 (val0 val1 : Byte) (flip : Bool)
  /-- PAL3 (R114). -/
  | pal3 (val0 val1 : Byte) (flip : Bool)
  /-- PAL4 (R115). -/
  | pal4 (val0 val1 : Byte) (flip : Bool)
  /-- PAL5 (R116). -/
  | pal5 (val0 val1 : Byte) (flip : Bool)
  /-- PAL6 (R117). -/
  | pal6 (val0 val1 : Byte) (flip : Bool)
  /-- PAL7 (R118). -/
  | pal7 (val0 val1 : Byte) (flip : Bool)
  /-- BUILD_PALETTE (R110). -/
  | buildPalette (val0 val1 : Byte) (flip : Bool)
  /-- RESIDUALS (R130). -/
  | residuals (blk : Block) (palette : Palette)
  /-- TOTALS (R131). -/
  | totals (res : ResTable)
  /-- SELECT_ORDER (R140). -/
  | selectOrder (tot : Totals)
  /-- SELECT_ENDPOINTS (R141). -/
  | selectEndpoints (decr : Bool) (maxv minv : Byte)
  /-- MINMAX (R150). -/
  | minmax (blk : Block)
  /-- SELECT_CODE (R151), for the sixteen pixels of a block. -/
  | selectCode (decr : Bool) (res : ResTable)
  /-- PACK_CODEWORDS (R153). -/
  | packCodewords (codes : Codes)
  /-- EMIT_BLOCK (R154). -/
  | emitBlock (v0 v1 : Byte) (cw : CodeWord)
  /-- UNPACK_BLOCK (R170). -/
  | unpackBlock (cb : CBlock)
  /-- EXTRACT_CODE (R171). -/
  | extractCode (cw : CodeWord) (pix : PixIdx)
  /-- SELECT_INDEX (R172). -/
  | selectIndex (dv0 dv1 : Byte) (code : Code)
  /-- PALETTE_LOOKUP (R173). -/
  | paletteLookup (dv0 dv1 : Byte) (idx : PalIdx)
  /-- DECODE_BLOCK16 (R176): the pseudo-operation `DEC16 b0 .. b5` (R96). -/
  | decodeBlock16 (cb : CBlock)
  /-- ENCODE_IMAGE (R192): `ENCIMG IMG, width, height -> CMP` (R96). -/
  | encodeImage
  /-- DECODE_IMAGE (R196): `DECIMG CMP, width, height -> IMG` (R96). -/
  | decodeImage
  /-- RST (R240): `rst = 1` at one rising edge of the named unit's clock. -/
  | rst (which : UnitSel)
  deriving DecidableEq, Repr

end Sys2Proof
end

