-- ==== Sys2Proof/WellFormed.lean ====
section
/-!
DEFINITION. Which operands fit the widths of rule R28. Every field whose width a type fixes (bytes, codes, indices,
arrays) is well formed by its type; the totals are exact naturals and are checked here.
-/

namespace Sys2Proof

/-- A total is a 12-bit unsigned value (R28, row `TOT[0..7]`). -/
def totalFits (t : Nat) : Bool := decide (t < 2 ^ 12)

/-- The operands fit their widths (R28, R29). -/
def Instr.wf : Instr → Bool
  | .encodeBlock _ => true
  | .decodePixel _ _ => true
  | .pal0 _ _ _ => true
  | .pal1 _ _ _ => true
  | .pal2 _ _ _ => true
  | .pal3 _ _ _ => true
  | .pal4 _ _ _ => true
  | .pal5 _ _ _ => true
  | .pal6 _ _ _ => true
  | .pal7 _ _ _ => true
  | .buildPalette _ _ _ => true
  | .residuals _ _ => true
  | .totals _ => true
  | .selectOrder tot => tot.toList.all totalFits
  | .selectEndpoints _ _ _ => true
  | .minmax _ => true
  | .selectCode _ _ => true
  | .packCodewords _ => true
  | .emitBlock _ _ _ => true
  | .unpackBlock _ => true
  | .extractCode _ _ => true
  | .selectIndex _ _ _ => true
  | .paletteLookup _ _ _ => true
  | .decodeBlock16 _ => true
  | .encodeImage => true
  | .decodeImage => true
  | .rst _ => true

end Sys2Proof
end

