-- ==== Sys2Proof/Decode.lean ====
section
/-!
DEFINITION. The request words of rule R86 and the palette-index word of rules R85 and R91, as bytes on a port, the
decoder and the encoder of them. Stages, the pseudo-operation, the host procedures and RST have no bit encoding
(R91 c, R91 d, R95): they reach the machine as notation lines, not as words.

A word is laid out with its bits 7:0 in the first byte, bits 15:8 in the second, and so on: for `e_blk` byte `i` is
pixel `i` (R34); for `{d_pix, d_cb}` the first byte is `CB[5]`, the sixth `CB[0]` and the seventh `d_pix` (R35, R86; assumption 21).
-/

namespace Sys2Proof

/-- Why bytes on a port are no request word. -/
inductive DecodeError where
  /-- The port takes another number of bytes: 16 (ENC), 7 (DEC) or 4 (palette index with its operands). -/
  | wrongLength (port : Port)
  /-- A bit above the word's last one is 1: `d_pix` has 4 bits, the palette index 3, `flip` 1. -/
  | strayBits (port : Port)
  deriving DecidableEq, Repr

/-- The palette-entry map (R91 b): which entry the 3-bit palette index selects. -/
def palOfIndex (idx : PalIdx) (val0 val1 : Byte) (flip : Bool) : Instr :=
  match idx.toNat with
  | 0 => .pal0 val0 val1 flip
  | 1 => .pal1 val0 val1 flip
  | 2 => .pal2 val0 val1 flip
  | 3 => .pal3 val0 val1 flip
  | 4 => .pal4 val0 val1 flip
  | 5 => .pal5 val0 val1 flip
  | 6 => .pal6 val0 val1 flip
  | _ => .pal7 val0 val1 flip

/-- The bytes on a port as an instruction. Total: every list of bytes is a request or is rejected by name. On the ENC and
DEC ports every value of every field is legal (R92).

The spec gives the operands of the palette-entry map no bits; they follow the index as three bytes `val0`, `val1`,
`flip` (assumption 7). -/
def decode : Port → List Byte → Except DecodeError Instr
  | .enc, [p0, p1, p2, p3, p4, p5, p6, p7, p8, p9, p10, p11, p12, p13, p14, p15] =>
    .ok (.encodeBlock #v[p0, p1, p2, p3, p4, p5, p6, p7, p8, p9, p10, p11, p12, p13, p14, p15])
  | .enc, _ => .error (.wrongLength .enc)
  | .dec, [b5, b4, b3, b2, b1, b0, i] =>
    if i.toNat < 16 then .ok (.decodePixel #v[b0, b1, b2, b3, b4, b5] (i.setWidth 4)) else .error (.strayBits .dec)
  | .dec, _ => .error (.wrongLength .dec)
  | .pal, [k, val0, val1, f] =>
    if k.toNat < 8 && decide (f.toNat < 2) then .ok (palOfIndex (k.setWidth 3) val0 val1 (f.getLsbD 0))
    else .error (.strayBits .pal)
  | .pal, _ => .error (.wrongLength .pal)

/-- The byte of a one-bit operand. -/
def flagByte (b : Bool) : Byte := if b then 1 else 0

/-- The port and the bytes of an instruction that has an encoding; `none` for a row the spec gives no encoding
(R91 c, R91 d, R95). -/
def encode : Instr → Option (Port × List Byte)
  | .encodeBlock blk => some (.enc, blk.toList)
  | .decodePixel cb pix => some (.dec, cb.toList.reverse ++ [pix.setWidth 8])
  | .pal0 val0 val1 flip => some (.pal, [0, val0, val1, flagByte flip])
  | .pal1 val0 val1 flip => some (.pal, [1, val0, val1, flagByte flip])
  | .pal2 val0 val1 flip => some (.pal, [2, val0, val1, flagByte flip])
  | .pal3 val0 val1 flip => some (.pal, [3, val0, val1, flagByte flip])
  | .pal4 val0 val1 flip => some (.pal, [4, val0, val1, flagByte flip])
  | .pal5 val0 val1 flip => some (.pal, [5, val0, val1, flagByte flip])
  | .pal6 val0 val1 flip => some (.pal, [6, val0, val1, flagByte flip])
  | .pal7 val0 val1 flip => some (.pal, [7, val0, val1, flagByte flip])
  | .buildPalette _ _ _ => none
  | .residuals _ _ => none
  | .totals _ => none
  | .selectOrder _ => none
  | .selectEndpoints _ _ _ => none
  | .minmax _ => none
  | .selectCode _ _ => none
  | .packCodewords _ => none
  | .emitBlock _ _ _ => none
  | .unpackBlock _ => none
  | .extractCode _ _ => none
  | .selectIndex _ _ _ => none
  | .paletteLookup _ _ _ => none
  | .decodeBlock16 _ => none
  | .encodeImage => none
  | .decodeImage => none
  | .rst _ => none

/-- The `n` low bytes of a number, the lowest first. -/
def lowBytes : Nat → Nat → List Byte
  | 0, _ => []
  | n + 1, w => BitVec.ofNat 8 w :: lowBytes n (w / 256)

/-- Where and as which bytes a word of `nbits` bits of the opcode table is presented: 128 bits on the ENC port, 52 on the
DEC port (R86), 3 on the palette-index input (R85). The spec has no other widths. DESIGN CHOICE (assumption 23): a word given with
its width rounded up to whole bytes, 56 or 8 bits, is read as the same request, and the bits above the 52 or 3 must then be
0 (the decoder rejects the word otherwise). A word of any other width is the word of no row. -/
def tableRequest (nbits w : Nat) : Option (Port × List Byte) :=
  if w < 2 ^ nbits then
    if nbits = 128 then some (.enc, lowBytes 16 w)
    else if nbits = 52 ∨ nbits = 56 then some (.dec, lowBytes 7 w)
    else if nbits = 3 ∨ nbits = 8 then some (.pal, lowBytes 4 w)
    else none
  else none

/-- The instruction the decoder reads from a word of the opcode table, bit 0 the least significant bit of its first byte;
every bit above `nbits` is 0. -/
def decodeTableWord (nbits w : Nat) : Option Instr :=
  match tableRequest nbits w with
  | none => none
  | some (port, bytes) =>
    match decode port bytes with
    | .ok i => some i
    | .error _ => none

end Sys2Proof
end

