-- ==== Sys2Proof/Machine/State.lean ====
section
/-!
DEFINITION. Everything the spec gives the machine, as plain data: the registers of each unit (R21 to R27), the host's
buffers, dimensions and procedure outcome (R33, R50), and the inputs that drive the units. Names of the spec stand in
each field's docstring; a field that is the model's own says so.
-/

namespace Sys2Proof.Machine

/-- The phase of a unit (R23, R27). -/
inductive Phase where
  /-- No request held, no result available. -/
  | idle
  /-- A request was accepted and its result is not yet written. -/
  | busy
  /-- The result of the last accepted request is in the result register. -/
  | done
  deriving DecidableEq, Repr

/-- One ENC unit. -/
structure EncUnit where
  /-- The model's own: which unit of the platform this is; only free values look at it (assumption 3). -/
  tag : Nat
  /-- The model's own: how many requests and resets the unit has taken; only free values look at it (assumption 3). -/
  seq : Nat
  /-- The model's own: rising edges since the accept step, while BUSY (R158 counts them against `ENC_LATENCY`). -/
  age : Nat
  /-- `BLK[0..15]` (R21). -/
  blk : Block
  /-- `E_CB[0..5]` (R22). -/
  cb : CBlock
  /-- `E_PH` (R23). -/
  ph : Phase
  deriving DecidableEq, Repr

/-- One DEC unit. -/
structure DecUnit where
  /-- The model's own, as in `EncUnit`. -/
  tag : Nat
  /-- The model's own, as in `EncUnit`. -/
  seq : Nat
  /-- The model's own, as in `EncUnit` (R178). -/
  age : Nat
  /-- `D_CB[0..5]` (R24). -/
  cb : CBlock
  /-- `D_PIX` (R25). -/
  pix : PixIdx
  /-- `D_PX` (R26). -/
  px : Byte
  /-- `D_PH` (R27). -/
  ph : Phase
  deriving DecidableEq, Repr

/-- A host buffer: a byte sequence of length `size` (R50 to R52). `cells` lists, by rising address, the bytes that are
not 0; an address below `size` that is not listed holds 0 and an address from `size` on does not exist (assumption 6). -/
structure Memory where
  size : Nat
  cells : List Host.Cell
  deriving DecidableEq, Repr

/-- The two host buffers (R50). -/
inductive Buf where
  | img
  | cmp
  deriving DecidableEq, Repr

/-- The two host procedures over images (R10). -/
inductive Proc where
  | encodeImage
  | decodeImage
  deriving DecidableEq, Repr

/-- A host procedure under way beside others (R62, R200, R247), with buffers of its own and the dimensions it was called
with. What is done of it is what `todo` no longer lists. -/
structure Call where
  proc : Proc
  width : Nat
  height : Nat
  /-- Its IMG. -/
  img : Memory
  /-- Its CMP. -/
  cmp : Memory
  /-- The block origins (encode) or pixels (decode) not yet done. -/
  todo : List (Nat × Nat)
  deriving DecidableEq, Repr

/-- What a host procedure reports to its caller (R210 to R213). The units raise nothing (R214), and no step of the
machine produces the last two: they belong to the collaborators around the core (R3, R212, R213). -/
inductive ProcOutcome where
  | success
  /-- InvalidDimensions with the offending `width` and `height`, and with the length of CMP for the length cause
  (R191, R195, R210, R211). -/
  | invalidDimensions (width height : Nat) (cmpLength : Option Nat)
  | unsupportedInputFormat
  | malformedArguments
  deriving DecidableEq, Repr

/-- What an action hands back to the host. The model's own type: one constructor per shape of result
(assumption 9). -/
inductive Ret where
  /-- One palette entry (PAL0 to PAL7). -/
  | entry (v : Byte)
  /-- BUILD_PALETTE. -/
  | palette (p : Palette)
  /-- RESIDUALS. -/
  | residuals (r : ResTable)
  /-- TOTALS. -/
  | totals (t : Totals)
  /-- SELECT_ORDER: `DECR`. -/
  | order (decr : Bool)
  /-- SELECT_ENDPOINTS: `V0`, `V1`. -/
  | endpoints (v0 v1 : Byte)
  /-- MINMAX: `MAXV`, `MINV`. -/
  | minmax (maxv minv : Byte)
  /-- SELECT_CODE: `CODE[0..15]`. -/
  | codes (k : Codes)
  /-- PACK_CODEWORDS: `CW`. -/
  | codeword (cw : CodeWord)
  /-- EMIT_BLOCK and the transaction `ENC`: six bytes, `CB[0]` first. -/
  | cblock (cb : CBlock)
  /-- UNPACK_BLOCK: `DV0`, `DV1`, `DCW`. -/
  | unpacked (dv0 dv1 : Byte) (dcw : CodeWord)
  /-- EXTRACT_CODE: `DCODE`. -/
  | code (k : Code)
  /-- SELECT_INDEX: `HALF` (true is 1, the upper half) and `IDX`. -/
  | index (half : Bool) (idx : PalIdx)
  /-- PALETTE_LOOKUP and the transaction `DEC`: the pixel. -/
  | pixel (v : Byte)
  /-- DECODE_BLOCK16: `Q[0..15]`. -/
  | block (q : Block)
  /-- A status word `{done, ready}` (R23, R27). -/
  | status (w : BitVec 2)
  /-- The port `e_cb` (R34). -/
  | eCbPort (w : BitVec 48)
  /-- The port `d_px` (R35). -/
  | dPxPort (w : Byte)
  /-- Bytes read from a buffer with `MemRead` (R7). -/
  | bytes (bs : List Byte)
  deriving DecidableEq, Repr

/-- The input ports of ENC at one rising edge of its `clk` (R34). -/
structure EncPorts where
  rst : Bool
  start : Bool
  blk : BitVec 128
  deriving DecidableEq, Repr

/-- The input ports of DEC at one rising edge of its `clk` (R35). -/
structure DecPorts where
  rst : Bool
  start : Bool
  cb : BitVec 48
  pix : BitVec 4
  deriving DecidableEq, Repr

/-- What the host does next (R222, R242). -/
inductive Action where
  /-- Present a request word on a port and carry the transaction through (R86, R95). -/
  | request (port : Port) (bytes : List Byte)
  /-- One line of the notation of R95 and R96, or one stage evaluated on given operands (R11). -/
  | line (i : Instr)
  /-- One rising edge of ENC's clock. -/
  | encEdge (p : EncPorts)
  /-- One rising edge of DEC's clock. -/
  | decEdge (p : DecPorts)
  /-- Read a unit's status outputs. -/
  | readStatus (which : UnitSel)
  /-- Read a unit's result output. -/
  | readResult (which : UnitSel)
  /-- The collaborators supply a buffer (R3, R33). -/
  | supply (buf : Buf) (bytes : List Byte)
  /-- The host's caller supplies `width` and `height` (R190, R242). -/
  | setDims (width height : Nat)
  /-- `MemRead(buf + addr, n)` by the host (R7). -/
  | memRead (buf : Buf) (addr n : Nat)
  /-- `MemWrite(buf + addr, _, bytes)` by the host (R7). -/
  | memWrite (buf : Buf) (addr : Nat) (bytes : List Byte)
  /-- Turn to the `k`-th of the other units of that kind; the one in hand takes its place (R221). -/
  | turnTo (which : UnitSel) (k : Nat)
  /-- Call a procedure on buffers of its own and leave its work to later actions (R247; assumption 22). -/
  | beginCall (proc : Proc)
  /-- One turn of the loop of the `n`-th call under way: the block with this origin, or this pixel (R62, R192, R196). -/
  | workOn (n : Nat) (piece : Nat × Nat)
  /-- The `n`-th call under way, all of whose work is done, reports success and returns its bytes (R190, R250). -/
  | endCall (n : Nat)
  deriving DecidableEq, Repr

/-- The whole platform. -/
structure State where
  /-- The ENC unit the host has in hand. -/
  enc : EncUnit
  /-- The DEC unit the host has in hand. -/
  dec : DecUnit
  /-- The other ENC units of the platform (`N_ENC - 1` of them, R5, R221). -/
  encPool : List EncUnit
  /-- The other DEC units of the platform (`N_DEC - 1` of them, R5, R221). -/
  decPool : List DecUnit
  /-- IMG (R50, R51). -/
  img : Memory
  /-- CMP (R50, R52). -/
  cmp : Memory
  /-- `width`, the host's (R33, R190). -/
  width : Nat
  /-- `height`, the host's (R33, R190). -/
  height : Nat
  /-- The result of the host's last procedure (R33, R210, R217); `none` before the first one. -/
  outcome : Option ProcOutcome
  /-- The procedures under way beside the host's next one, the oldest first (R247; assumption 22). -/
  calls : List Call
  /-- The model's own: what the last step handed back to the host; no step reads it. -/
  ret : Option Ret
  /-- The model's own: what the host will do, the next action first. The units have no queue (R243). -/
  script : List Action
  deriving DecidableEq, Repr

/-- Why a step stops with a fault. -/
inductive Fault where
  /-- An access to an address a buffer does not have (R50 to R52). Raised by the host's own `MemRead` and `MemWrite`
  actions; the procedures' checks keep them, and every call that began by its checks, from it (R191, R195). Safe: the
  machine stops. -/
  | outsideBuffer
  deriving DecidableEq, Repr

/-- Why a step is refused. -/
inductive Refusal where
  /-- Raised by an arm of `exec` whose instruction has no meaning yet; no arm does. Safe. -/
  | notModelled (mnemonic : String)
  /-- Raised by ENCODE_IMAGE when the length of IMG is not `width * height`: "a model refuses such a call" (R191, U10).
  Safe. -/
  | imageLength
  /-- Raised by reading a result output outside phase DONE: "it refuses it, or faults it, and never returns a value"
  (R245, U8). Safe. -/
  | resultNotValid
  /-- Raised by `step` on bytes that are no request word of their port. Safe. -/
  | notARequest (e : DecodeError)
  /-- Raised by `step` on a notation line whose operands do not fit the widths of R28. Safe. -/
  | operandWidth
  /-- Raised by turning to a unit the platform does not have. Safe. -/
  | noSuchUnit
  /-- Raised by naming a call that is not under way. Safe. -/
  | noSuchCall
  /-- Raised by a piece of work that its call does not have, or has done: "every output byte is written exactly once" (R58).
  Safe. -/
  | notToDo
  /-- Raised by ending a call with work left (R250). Safe. -/
  | notFinished
  deriving DecidableEq, Repr

/-- An ENC unit right after reset (R36). `BLK` and `E_CB` are unspecified there and read as zeros in this one state; no
read can see them (assumption 1). -/
def EncUnit.afterReset (tag : Nat) : EncUnit :=
  { tag := tag, seq := 0, age := 0, blk := #v[0, 0, 0, 0, 0, 0, 0, 0, 0, 0, 0, 0, 0, 0, 0, 0], cb := #v[0, 0, 0, 0, 0, 0],
    ph := .idle }

/-- A DEC unit right after reset (R36), with the same remark for `D_CB`, `D_PIX` and `D_PX` (assumption 1). -/
def DecUnit.afterReset (tag : Nat) : DecUnit :=
  { tag := tag, seq := 0, age := 0, cb := #v[0, 0, 0, 0, 0, 0], pix := 0, px := 0, ph := .idle }

/-- A platform of `nEnc` ENC units and `nDec` DEC units (each at least 1, R5), every unit right after reset. The host's
buffers are empty, its dimensions 0 and no procedure has run (assumption 2). -/
def State.platform (nEnc nDec : Nat) : State :=
  { enc := EncUnit.afterReset 0, dec := DecUnit.afterReset 0,
    encPool := (List.range (nEnc - 1)).map fun k => EncUnit.afterReset (k + 1),
    decPool := (List.range (nDec - 1)).map fun k => DecUnit.afterReset (k + 1),
    img := { size := 0, cells := [] }, cmp := { size := 0, cells := [] }, width := 0, height := 0, outcome := none, calls := [],
    ret := none, script := [] }

/-- The machine right after reset, one unit of each kind (R36, R240; assumption 5 on `N_ENC = N_DEC = 1`). -/
def State.reset : State := State.platform 1 1

end Sys2Proof.Machine
end

