-- ==== Sys2Proof/Machine/Flags.lean ====
section
/-!
DEFINITION. The status flags `ready` and `done`, views of a unit's phase (R23, R27, R31), and the two data-dependent
one-bit values, `DECR` of ENC (R140) and `HALF` of DEC (R172).
-/

namespace Sys2Proof.Machine

/-- `e_ready`, `d_ready`: a request presented now is accepted (R23, R27). -/
def Phase.ready : Phase → Bool
  | .idle => true
  | .busy => false
  | .done => true

/-- `e_done`, `d_done`: the result register holds a result (R23, R27). -/
def Phase.finished : Phase → Bool
  | .idle => false
  | .busy => false
  | .done => true

/-- The status word `{done, ready}` (R23, R27). -/
def Phase.stat (ph : Phase) : BitVec 2 := BitVec.ofBool ph.finished ++ BitVec.ofBool ph.ready

/-- `DECR := (TOT[2] + TOT[3] < TOT[6] + TOT[7])`, strict, on exact sums (R140). -/
def orderFlag (tot : Totals) : Bool := decide (tot[2] + tot[3] < tot[6] + tot[7])

/-- `HALF`: false (0, the lower half) exactly when `DV0 > DV1`, unsigned and strict (R172). -/
def upperHalf (dv0 dv1 : Byte) : Bool := !decide (dv0.toNat > dv1.toNat)

end Sys2Proof.Machine
end

