-- ==== Sys2Proof/Machine/Operands.lean ====
section
/-!
DEFINITION. The operand forms: how a port value is taken apart into registers and put together (R34, R35, R86), the
codeword word and its lanes (R83, R87, R88), and the addresses and indices computed from pixel coordinates (R54 to R56,
R90).
-/

namespace Sys2Proof.Machine

/-- Pixel `i` of the port `e_blk` is `e_blk[8*i+7 : 8*i]` (R34). -/
def blockOfPort (w : BitVec 128) : Block :=
  Vector.ofFn fun i => w.extractLsb' (8 * i.val) 8

/-- The port `e_blk` that presents a block: pixel 15 in the most significant byte (R34, R86). -/
def portOfBlock (b : Block) : BitVec 128 :=
  b[15] ++ b[14] ++ b[13] ++ b[12] ++ b[11] ++ b[10] ++ b[9] ++ b[8] ++ b[7] ++ b[6] ++ b[5] ++ b[4] ++ b[3] ++ b[2]
    ++ b[1] ++ b[0]

/-- Byte `k` of a 48-bit compressed block port is bits `47-8*k : 40-8*k` (R34, R35). -/
def cblockOfPort (w : BitVec 48) : CBlock :=
  Vector.ofFn fun k => w.extractLsb' (40 - 8 * k.val) 8

/-- The 48-bit port value `{CB[0], .., CB[5]}` (R34, R81). -/
def portOfCblock (cb : CBlock) : BitVec 48 :=
  cb[0] ++ cb[1] ++ cb[2] ++ cb[3] ++ cb[4] ++ cb[5]

/-- The codeword word of four bytes, the most significant first (R87). -/
def codewordOfBytes (b2 b3 b4 b5 : Byte) : CodeWord := b2 ++ b3 ++ b4 ++ b5

/-- Byte `k` of the codeword word, `k = 0` the least significant (R87). -/
def codewordByte (cw : CodeWord) (k : Nat) : Byte := cw.extractLsb' (8 * k) 8

/-- Lane `p` of the codeword word, `(CW >> 2*p) & 0b11` (R88). -/
def lane (cw : CodeWord) (p : PixIdx) : Code := ((cw >>> (2 * p.toNat)) &&& 3).setWidth 2

/-- The offset of pixel `(x, y)` in IMG (R54). -/
def pixelAddr (width x y : Nat) : Nat := y * width + x

/-- The index of the block that pixel `(x, y)` lies in (R56, R90). -/
def blockIndex (width x y : Nat) : Nat := y / 4 * (width / 4) + x / 4

/-- The index of pixel `(x, y)` within its block (R90). -/
def pixelIndex (x y : Nat) : PixIdx := BitVec.ofNat 4 (y % 4 * 4 + x % 4)

/-- How many blocks an image has (R52). -/
def blockCount (width height : Nat) : Nat := width / 4 * (height / 4)

/-- The length of the compressed image (R52, R198). -/
def compressedLength (width height : Nat) : Nat := blockCount width height * 6

/-- The block origins in block-scan order: block rows top to bottom, blocks of a row left to right (R192). -/
def blockOrigins (width height : Nat) : List (Nat × Nat) :=
  (List.range (height / 4)).flatMap fun j => (List.range (width / 4)).map fun i => (4 * i, 4 * j)

/-- The pixels of an image, row by row (R196). -/
def pixelOrder (width height : Nat) : List (Nat × Nat) :=
  (List.range height).flatMap fun y => (List.range width).map fun x => (x, y)

end Sys2Proof.Machine
end

