-- ==== Sys2Proof/Machine/Codec.lean ====
section
/-!
DEFINITION. The function level (R11): every stage as the pure function its rule gives, and the two operations composed
of them, with their transient values (R28, R29) as records that no state holds.

All arithmetic is on exact naturals and integers and is narrowed at the end (R8, D9); comparisons are unsigned (D10).
The spec's literals are taken as written (UNVERIFIED: assumption 17).
-/

namespace Sys2Proof.Machine

/-- PAL0: `val0` (R111). -/
def palEntry0 (val0 _val1 : Byte) (_flip : Bool) : Byte := val0

/-- PAL1: `val1` (R112). -/
def palEntry1 (_val0 val1 : Byte) (_flip : Bool) : Byte := val1

/-- PAL2: `floor((2*val0 + val1) / 3)` (R113). -/
def palEntry2 (val0 val1 : Byte) (_flip : Bool) : Byte := BitVec.ofNat 8 ((2 * val0.toNat + val1.toNat) / 3)

/-- PAL3: `floor((val0 + 2*val1) / 3)` (R114). -/
def palEntry3 (val0 val1 : Byte) (_flip : Bool) : Byte := BitVec.ofNat 8 ((val0.toNat + 2 * val1.toNat) / 3)

/-- PAL4: `flip ? val0 : val1` (R115). -/
def palEntry4 (val0 val1 : Byte) (flip : Bool) : Byte := if flip then val0 else val1

/-- PAL5: `flip ? val1 : val0` (R116). -/
def palEntry5 (val0 val1 : Byte) (flip : Bool) : Byte := if flip then val1 else val0

/-- PAL6: `floor((val0 + val1) / 2)` (R117). -/
def palEntry6 (val0 val1 : Byte) (_flip : Bool) : Byte := BitVec.ofNat 8 ((val0.toNat + val1.toNat) / 2)

/-- PAL7: the constant 0 (R118). -/
def palEntry7 (_val0 _val1 : Byte) (_flip : Bool) : Byte := 0

/-- BUILD_PALETTE (R110). -/
def buildPalette (val0 val1 : Byte) (flip : Bool) : Palette :=
  #v[palEntry0 val0 val1 flip, palEntry1 val0 val1 flip, palEntry2 val0 val1 flip, palEntry3 val0 val1 flip,
    palEntry4 val0 val1 flip, palEntry5 val0 val1 flip, palEntry6 val0 val1 flip, palEntry7 val0 val1 flip]

/-- One residual: `abs` of the difference of the two bytes as mathematical integers (R130). -/
def residual (pixel entry : Byte) : Byte := BitVec.ofNat 8 ((pixel.toNat : Int) - (entry.toNat : Int)).natAbs

/-- RESIDUALS (R130). -/
def residualTable (blk : Block) (p : Palette) : ResTable :=
  Vector.ofFn fun i => Vector.ofFn fun j => residual blk[i] p[j]

/-- TOTALS: the exact sum of each column (R131). -/
def columnTotals (res : ResTable) : Totals :=
  Vector.ofFn fun j => (res.toList.map fun row => row[j].toNat).sum

/-- SELECT_ENDPOINTS: `V0 := DECR ? MAXV : MINV`, `V1 := DECR ? MINV : MAXV` (R141). -/
def storedEndpoints (decr : Bool) (maxv minv : Byte) : Byte × Byte := if decr then (maxv, minv) else (minv, maxv)

/-- `MAXV` (R150). -/
def blockMax (blk : Block) : Byte := blk.toList.foldl (fun m p => if m.toNat < p.toNat then p else m) blk[0]

/-- `MINV` (R150). -/
def blockMin (blk : Block) : Byte := blk.toList.foldl (fun m p => if p.toNat < m.toNat then p else m) blk[0]

/-- "an equal residual does not replace" (R151): offset `j` replaces `k` only when its residual is strictly smaller. -/
def keepSmaller (r : Vector Byte 4) (k j : Fin 4) : Fin 4 := if r[j].toNat < r[k].toNat then j else k

/-- The scan of R151: `k := 0`, then the offsets 1, 2, 3 in turn. -/
def firstMinimum (r : Vector Byte 4) : Code :=
  BitVec.ofNat 2 (keepSmaller r (keepSmaller r (keepSmaller r 0 1) 2) 3).val

/-- The residuals of the active half of a row: `BASE := DECR ? 0 : 4`, offsets 0 to 3 (R143, R151). -/
def activeHalf (decr : Bool) (row : ResRow) : Vector Byte 4 :=
  if decr then #v[row[0], row[1], row[2], row[3]] else #v[row[4], row[5], row[6], row[7]]

/-- SELECT_CODE for the sixteen pixels (R151). -/
def selectCodes (decr : Bool) (res : ResTable) : Codes :=
  Vector.ofFn fun i => firstMinimum (activeHalf decr res[i])

/-- `CW | (zext_32(CODE[i]) << (2*i))` (R153). -/
def putLane (cw : CodeWord) (i : Nat) (code : Code) : CodeWord := cw ||| (code.setWidth 32 <<< (2 * i))

/-- PACK_CODEWORDS: lane `i` is `CODE[i]` (R153). -/
def packCodewords (codes : Codes) : CodeWord :=
  (List.finRange 16).foldl (fun cw i => putLane cw i.val codes[i]) 0

/-- EMIT_BLOCK: `[val0, val1, byte 3 (MSB), byte 2, byte 1, byte 0 (LSB)]` (R154). -/
def emitBlock (v0 v1 : Byte) (cw : CodeWord) : CBlock :=
  #v[v0, v1, codewordByte cw 3, codewordByte cw 2, codewordByte cw 1, codewordByte cw 0]

/-- The transient values of ENCODE_BLOCK (R28), functions of `BLK` alone. -/
structure EncTransients where
  maxv : Byte
  minv : Byte
  pal : Palette
  res : ResTable
  tot : Totals
  decr : Bool
  v0 : Byte
  v1 : Byte
  codes : Codes
  cw : CodeWord
  deriving DecidableEq, Repr

/-- The seven steps of the encoder (R156); the one palette is built from `(MAXV, MINV, false)` (R155). -/
def encTransients (blk : Block) : EncTransients :=
  let maxv := blockMax blk
  let minv := blockMin blk
  let pal := buildPalette maxv minv false
  let res := residualTable blk pal
  let tot := columnTotals res
  let decr := orderFlag tot
  let ends := storedEndpoints decr maxv minv
  let codes := selectCodes decr res
  { maxv := maxv, minv := minv, pal := pal, res := res, tot := tot, decr := decr, v0 := ends.1, v1 := ends.2,
    codes := codes, cw := packCodewords codes }

/-- ENCODE_BLOCK, the source's `encodeBlock` (R156). -/
def encodeBlock (blk : Block) : CBlock :=
  let t := encTransients blk
  emitBlock t.v0 t.v1 t.cw

/-- UNPACK_BLOCK: `DCW` (R170). -/
def unpackCodeword (cb : CBlock) : CodeWord := codewordOfBytes cb[2] cb[3] cb[4] cb[5]

/-- SELECT_INDEX: `IDX := {HALF, DCODE}` (R172). -/
def paletteIndex (dv0 dv1 : Byte) (dcode : Code) : PalIdx := BitVec.ofBool (upperHalf dv0 dv1) ++ dcode

/-- PALETTE_LOOKUP: `BUILD_PALETTE(DV0, DV1, true)[IDX]` (R173). -/
def paletteLookup (dv0 dv1 : Byte) (idx : PalIdx) : Byte := (buildPalette dv0 dv1 true)[idx.toFin]

/-- The transient values of DECODE_PIXEL (R29), functions of `D_CB` and `D_PIX` alone. -/
structure DecTransients where
  dv0 : Byte
  dv1 : Byte
  dcw : CodeWord
  dcode : Code
  half : Bool
  idx : PalIdx
  dp : Palette
  deriving DecidableEq, Repr

/-- The steps of the decoder (R174). -/
def decTransients (cb : CBlock) (pix : PixIdx) : DecTransients :=
  let dcw := unpackCodeword cb
  let dcode := lane dcw pix
  { dv0 := cb[0], dv1 := cb[1], dcw := dcw, dcode := dcode, half := upperHalf cb[0] cb[1],
    idx := paletteIndex cb[0] cb[1] dcode, dp := buildPalette cb[0] cb[1] true }

/-- DECODE_PIXEL, the source's `decodeBlock` (R174). -/
def decodePixel (cb : CBlock) (pix : PixIdx) : Byte :=
  let t := decTransients cb pix
  paletteLookup t.dv0 t.dv1 t.idx

/-- The sixteen pixels of a compressed block (R176). -/
def decodeBlock16 (cb : CBlock) : Block := Vector.ofFn fun i => decodePixel cb (BitVec.ofNat 4 i.val)

end Sys2Proof.Machine
end

