-- ==== Sys2Proof/Machine/Memory.lean ====
section
/-!
DEFINITION. The host buffers (R50 to R52): what a byte reads as, writing a byte in canonical form, `MemRead` and
`MemWrite` (R7), and the canonical form itself.
-/

namespace Sys2Proof.Machine

/-- What an address below a buffer's size that is not listed holds (assumption 6). -/
def unlistedByte : Byte := 0

/-- The byte the list gives an address. -/
def cellsRead : List Host.Cell → Nat → Byte
  | [], _ => unlistedByte
  | (b, w) :: rest, a => if a = b then w else cellsRead rest a

/-- The list with one address set; setting it to the unlisted value removes its entry. -/
def cellsWrite : List Host.Cell → Nat → Byte → List Host.Cell
  | [], a, v => if v = unlistedByte then [] else [(a, v)]
  | (b, w) :: rest, a, v =>
    if a < b then (if v = unlistedByte then (b, w) :: rest else (a, v) :: (b, w) :: rest)
    else if a = b then (if v = unlistedByte then rest else (a, v) :: rest)
    else (b, w) :: cellsWrite rest a v

/-- The canonical form from an address on: strictly rising addresses below `size`, no unlisted value listed. -/
def cellsWf (size : Nat) : Nat → List Host.Cell → Bool
  | _, [] => true
  | low, (b, w) :: rest => decide (low ≤ b) && decide (b < size) && decide (w ≠ unlistedByte) && cellsWf size (b + 1) rest

/-- The canonical form of a buffer: equal buffers are equal data. -/
def Memory.wf (m : Memory) : Bool := cellsWf m.size 0 m.cells

/-- A buffer sized before the work starts ("pre-sized", R200, R242); every byte of it is then written once. -/
def Memory.sized (n : Nat) : Memory := { size := n, cells := [] }

/-- One byte; `none` where the buffer has no such address. -/
def Memory.readByte (m : Memory) (a : Nat) : Option Byte := if a < m.size then some (cellsRead m.cells a) else none

/-- One byte stored; `none` where the buffer has no such address. -/
def Memory.writeByte (m : Memory) (a : Nat) (v : Byte) : Option Memory :=
  if a < m.size then some { m with cells := cellsWrite m.cells a v } else none

/-- `MemRead(addr, n)`: the bytes at `addr, addr+1, ..`, first byte first (R7). -/
def Memory.read (m : Memory) : Nat → Nat → Option (List Byte)
  | _, 0 => some []
  | a, n + 1 =>
    match m.readByte a with
    | none => none
    | some v =>
      match m.read (a + 1) n with
      | none => none
      | some rest => some (v :: rest)

/-- `MemWrite(addr, n, v)`: the byte sequence stored at `addr, addr+1, ..` (R7). -/
def Memory.write (m : Memory) : Nat → List Byte → Option Memory
  | _, [] => some m
  | a, v :: rest =>
    match m.writeByte a v with
    | none => none
    | some m' => m'.write (a + 1) rest

/-- The cells of a byte sequence whose first byte lies at `a`. -/
def cellsOfBytes : Nat → List Byte → List Host.Cell
  | _, [] => []
  | a, v :: rest => if v = unlistedByte then cellsOfBytes (a + 1) rest else (a, v) :: cellsOfBytes (a + 1) rest

/-- The buffer that holds a byte sequence. -/
def Memory.ofBytes (bs : List Byte) : Memory := { size := bs.length, cells := cellsOfBytes 0 bs }

end Sys2Proof.Machine
end

