-- ==== Sys2Proof/Machine/Ops.lean ====
section
/-!
DEFINITION. The named operations over a unit's registers: accept, complete and reset (R157, R158, R177, R178, R240), one
clock edge, the transaction that runs from request to result (R95), and, for the host, handing back a result, reporting
success and raising an error (R217).
-/

namespace Sys2Proof.Machine

/-- `ENC_LATENCY` of the unit's current request: positive, finite, otherwise free (R5, R249). -/
def encLatency (u : EncUnit) : Nat := Config.encLatencyExtra u.tag u.seq + 1

/-- `DEC_LATENCY` of the unit's current request (R5, R249). -/
def decLatency (u : DecUnit) : Nat := Config.decLatencyExtra u.tag u.seq + 1

/-- The effect of the ENC accept step; `E_CB` becomes unspecified (R157). -/
def encAccept (blk : Block) (u : EncUnit) : EncUnit :=
  { u with blk := blk, cb := Config.freeECb u.tag (u.seq + 1), ph := .busy, age := 0, seq := u.seq + 1 }

/-- The effect of the ENC complete step (R158). -/
def encComplete (u : EncUnit) : EncUnit := { u with cb := encodeBlock u.blk, ph := .done, age := 0 }

/-- The effect of reset on an ENC unit; the operand and result registers become unspecified (R240). -/
def encReset (u : EncUnit) : EncUnit :=
  { u with blk := Config.freeBlk u.tag (u.seq + 1), cb := Config.freeECb u.tag (u.seq + 1), ph := .idle, age := 0,
           seq := u.seq + 1 }

/-- The effect of the DEC accept step; `D_PX` becomes unspecified (R177). -/
def decAccept (cb : CBlock) (pix : PixIdx) (u : DecUnit) : DecUnit :=
  { u with cb := cb, pix := pix, px := Config.freeDPx u.tag (u.seq + 1), ph := .busy, age := 0, seq := u.seq + 1 }

/-- The effect of the DEC complete step (R178). -/
def decComplete (u : DecUnit) : DecUnit := { u with px := decodePixel u.cb u.pix, ph := .done, age := 0 }

/-- The effect of reset on a DEC unit (R240). -/
def decReset (u : DecUnit) : DecUnit :=
  { u with cb := Config.freeDCb u.tag (u.seq + 1), pix := Config.freeDPix u.tag (u.seq + 1),
           px := Config.freeDPx u.tag (u.seq + 1), ph := .idle, age := 0, seq := u.seq + 1 }

/-- One rising edge of ENC's clock when the latency of the request in flight is `latency`: reset wins over `start` (R215);
a BUSY unit ignores `start` and completes `latency` edges after the accept step (R158, R243); an IDLE or DONE unit
accepts when `start = 1` (R157) and holds everything when `start = 0`. -/
def encEdgeWith (latency : Nat) (p : EncPorts) (u : EncUnit) : EncUnit :=
  if p.rst then encReset u
  else
    match u.ph with
    | .busy => if latency ≤ u.age + 1 then encComplete u else { u with age := u.age + 1 }
    | .idle => if p.start then encAccept (blockOfPort p.blk) u else u
    | .done => if p.start then encAccept (blockOfPort p.blk) u else u

/-- One rising edge of DEC's clock, as `encEdgeWith` (R177, R178, R215, R243). -/
def decEdgeWith (latency : Nat) (p : DecPorts) (u : DecUnit) : DecUnit :=
  if p.rst then decReset u
  else
    match u.ph with
    | .busy => if latency ≤ u.age + 1 then decComplete u else { u with age := u.age + 1 }
    | .idle => if p.start then decAccept (cblockOfPort p.cb) p.pix u else u
    | .done => if p.start then decAccept (cblockOfPort p.cb) p.pix u else u

/-- One rising edge of ENC's clock. -/
def encEdge (p : EncPorts) (u : EncUnit) : EncUnit := encEdgeWith (encLatency u) p u

/-- One rising edge of DEC's clock. -/
def decEdge (p : DecPorts) (u : DecUnit) : DecUnit := decEdgeWith (decLatency u) p u

/-- ENC's ports when nothing is asked of the unit. -/
def encQuiet : EncPorts := { rst := false, start := false, blk := 0 }

/-- DEC's ports when nothing is asked of the unit. -/
def decQuiet : DecPorts := { rst := false, start := false, cb := 0, pix := 0 }

/-- Waiting for `e_ready = 1`: a request in flight completes first (R95, R250). -/
def encSettle (u : EncUnit) : EncUnit := if u.ph = .busy then encComplete u else u

/-- Waiting for `d_ready = 1` (R95, R250). -/
def decSettle (u : DecUnit) : DecUnit := if u.ph = .busy then decComplete u else u

/-- The transaction `ENC` of R95 on one unit: wait for ready, one accepted edge, wait for done. The accept and complete
steps are taken as one (R11, D27; assumption 8). -/
def encTransact (blk : Block) (u : EncUnit) : EncUnit := encComplete (encAccept blk (encSettle u))

/-- The transaction `DEC` of R95 on one unit. -/
def decTransact (cb : CBlock) (pix : PixIdx) (u : DecUnit) : DecUnit := decComplete (decAccept cb pix (decSettle u))

/-- Hand a result back to the host; nothing else changes. -/
def answer (r : Ret) (s : State) : State := { s with ret := some r }

/-- An action that hands nothing back. -/
def quiet (s : State) : State := { s with ret := none }

/-- End a host procedure with success (R210). -/
def succeed (s : State) : State := { s with outcome := some .success, ret := none }

/-- `raise E(info)`: the procedure ends at once and its caller is told; no buffer, no unit and no dimension changes (R217).
This takes the place of exception entry; there is no handler and no return from it (R217, R218). -/
def raise (e : ProcOutcome) (s : State) : State := { s with outcome := some e, ret := none }

/-- The numeric code of a procedure outcome (R210, D16). -/
def ProcOutcome.code : ProcOutcome → Nat
  | .success => 0
  | .invalidDimensions _ _ _ => 1
  | .unsupportedInputFormat => 2
  | .malformedArguments => 3

end Sys2Proof.Machine
end

