-- ==== Sys2Proof/Machine/Image.lean ====
section
/-!
DEFINITION. The host procedures ENCODE_IMAGE and DECODE_IMAGE (R190 to R200): the checks, which come before every access,
and the loops, one transaction and one store per block or per pixel. The loops' counters are arguments of the recursion, and a
procedure is one step (assumption 12); dimensions have no bound (assumption 13).
-/

namespace Sys2Proof.Machine

/-- "a positive multiple of 4" (R57, R191, R210). -/
def dimOk (n : Nat) : Bool := decide (0 < n) && decide (n % 4 = 0)

/-- The dimension check of both procedures (R191, R195). -/
def dimsOk (width height : Nat) : Bool := dimOk width && dimOk height

/-- Do one piece of work after the other; `none` as soon as one fails. -/
def runOver {α : Type} (work : α → State → Option State) : List α → State → Option State
  | [], s => some s
  | x :: rest, s =>
    match work x s with
    | none => none
    | some s' => runOver work rest s'

/-- Row `r` of the block with origin `(ox, oy)`: `MemRead(IMG + ((oy + r)*width + ox), 4)` (R192). -/
def readBlockRow (img : Memory) (width ox oy r : Nat) : Option (List Byte) := img.read (pixelAddr width ox (oy + r)) 4

/-- The sixteen pixels of a block, row by row (R192, R193). -/
def readBlock (img : Memory) (width ox oy : Nat) : Option Block :=
  match readBlockRow img width ox oy 0, readBlockRow img width ox oy 1, readBlockRow img width ox oy 2,
    readBlockRow img width ox oy 3 with
  | some [p0, p1, p2, p3], some [p4, p5, p6, p7], some [p8, p9, p10, p11], some [p12, p13, p14, p15] =>
    some #v[p0, p1, p2, p3, p4, p5, p6, p7, p8, p9, p10, p11, p12, p13, p14, p15]
  | _, _, _, _ => none

/-- One turn of the loop of R192: read a block, one ENC transaction, store its six bytes at `CMP + 6*n`, `CB[0]` first
(R194); `n` is the block's index (R56). -/
def encodeOneBlock (origin : Nat × Nat) (s : State) : Option State :=
  match readBlock s.img s.width origin.1 origin.2 with
  | none => none
  | some blk =>
    let u := encTransact blk s.enc
    match s.cmp.write (blockIndex s.width origin.1 origin.2 * 6) u.cb.toList with
    | none => none
    | some m => some { s with enc := u, cmp := m }

/-- The six bytes of block `n` of CMP (R196). -/
def readCblock (cmp : Memory) (n : Nat) : Option CBlock :=
  match cmp.read (n * 6) 6 with
  | some [b0, b1, b2, b3, b4, b5] => some #v[b0, b1, b2, b3, b4, b5]
  | _ => none

/-- One turn of the loop of R196: read the pixel's block, one DEC transaction, store the pixel. -/
def decodeOnePixel (xy : Nat × Nat) (s : State) : Option State :=
  match readCblock s.cmp (blockIndex s.width xy.1 xy.2) with
  | none => none
  | some cb =>
    let u := decTransact cb (pixelIndex xy.1 xy.2) s.dec
    match s.img.write (pixelAddr s.width xy.1 xy.2) [u.px] with
    | none => none
    | some m => some { s with dec := u, img := m }

/-- The blocks of ENCODE_IMAGE done in a given order, on an output sized before the work starts (R192, R200). -/
def encodeInOrder (origins : List (Nat × Nat)) (s : State) : Option State :=
  runOver encodeOneBlock origins { s with cmp := Memory.sized (compressedLength s.width s.height) }

/-- The pixels of DECODE_IMAGE done in a given order, on an output sized before the work starts (R196, R200). -/
def decodeInOrder (pixels : List (Nat × Nat)) (s : State) : Option State :=
  runOver decodeOnePixel pixels { s with img := Memory.sized (s.width * s.height) }

/-- The end of a procedure whose checks passed. -/
def finish : Option State → Host.Outcome State Fault Refusal
  | some t => .next (succeed t)
  | none => .fault .outsideBuffer

/-- The checks of ENCODE_IMAGE (R191), then `go`. A length of IMG other than `width * height` "is given no meaning by this spec: a model refuses
such a call" (R191, U10; assumption 14). -/
def afterEncodeChecks (s : State) (go : Host.Outcome State Fault Refusal) : Host.Outcome State Fault Refusal :=
  if dimsOk s.width s.height then
    if s.img.size = s.width * s.height then go else .refused .imageLength
  else .next (raise (.invalidDimensions s.width s.height none) s)

/-- The checks of DECODE_IMAGE (R195), the dimension cause first, then the length cause (R215); then `go`. -/
def afterDecodeChecks (s : State) (go : Host.Outcome State Fault Refusal) : Host.Outcome State Fault Refusal :=
  if dimsOk s.width s.height then
    if compressedLength s.width s.height ≤ s.cmp.size then go
    else .next (raise (.invalidDimensions s.width s.height (some s.cmp.size)) s)
  else .next (raise (.invalidDimensions s.width s.height none) s)

/-- ENCODE_IMAGE (R191, R192). -/
def execEncodeImage (s : State) : Host.Outcome State Fault Refusal :=
  afterEncodeChecks s (finish (encodeInOrder (blockOrigins s.width s.height) s))

/-- DECODE_IMAGE (R195, R196). -/
def execDecodeImage (s : State) : Host.Outcome State Fault Refusal :=
  afterDecodeChecks s (finish (decodeInOrder (pixelOrder s.width s.height) s))

end Sys2Proof.Machine
end

