-- ==== Sys2Proof/Machine/Calls.lean ====
section
/-!
DEFINITION. Host procedures under way side by side: "Two procedures may run at the same time on disjoint buffers with no
interaction" (R247). A call gets buffers of its own when it begins, so the conditions of R247 hold of it by construction. Its
pieces are done in any order, with any other action in between and each on the unit then in hand (R62, R200, R221). The
notation of it is the model's own (assumption 22).
-/

namespace Sys2Proof.Machine

/-- The row that does the whole procedure in one step. -/
def Proc.instr : Proc → Instr
  | .encodeImage => .encodeImage
  | .decodeImage => .decodeImage

/-- One turn of the procedure's loop (R192, R196). -/
def Proc.work : Proc → Nat × Nat → State → Option State
  | .encodeImage => encodeOneBlock
  | .decodeImage => decodeOnePixel

/-- The state in which a call's work is done: the call's buffers and dimensions in place of the host's. -/
def Call.lend (c : Call) (s : State) : State :=
  { s with img := c.img, cmp := c.cmp, width := c.width, height := c.height }

/-- The call as a piece of its work left it. -/
def Call.after (c : Call) (piece : Nat × Nat) (t : State) : Call :=
  { c with img := t.img, cmp := t.cmp, todo := c.todo.erase piece }

/-- The buffer that a call fills. -/
def Call.output (c : Call) : Memory :=
  match c.proc with
  | .encodeImage => c.cmp
  | .decodeImage => c.img

/-- A call of ENCODE_IMAGE before its first block: the output is sized, every block is to do (R192, R242). -/
def Call.newEncode (s : State) : Call :=
  { proc := .encodeImage, width := s.width, height := s.height, img := s.img,
    cmp := Memory.sized (compressedLength s.width s.height), todo := blockOrigins s.width s.height }

/-- A call of DECODE_IMAGE before its first pixel (R196, R242). -/
def Call.newDecode (s : State) : Call :=
  { proc := .decodeImage, width := s.width, height := s.height, img := Memory.sized (s.width * s.height), cmp := s.cmp,
    todo := pixelOrder s.width s.height }

/-- The host's buffers and dimensions stay; a call joins those under way. -/
def State.withCall (s : State) (c : Call) : State := quiet { s with calls := s.calls ++ [c] }

/-- Call a procedure: the checks of R191 and R195 come first, with their errors. -/
def beginCall (p : Proc) (s : State) : Host.Outcome State Fault Refusal :=
  match p with
  | .encodeImage => afterEncodeChecks s (.next (s.withCall (Call.newEncode s)))
  | .decodeImage => afterDecodeChecks s (.next (s.withCall (Call.newDecode s)))

/-- One piece of a call's work: one transaction on the unit in hand and one store into the call's output. -/
def workOn (n : Nat) (piece : Nat × Nat) (s : State) : Host.Outcome State Fault Refusal :=
  match s.calls[n]? with
  | none => .refused .noSuchCall
  | some c =>
    if piece ∈ c.todo then
      match c.proc.work piece (c.lend s) with
      | some t => .next (quiet { s with enc := t.enc, dec := t.dec, calls := s.calls.set n (c.after piece t) })
      | none => .fault .outsideBuffer
    else .refused .notToDo

/-- The end of a call: "a procedure is *finished* when it has ... stored all results" (R250). Its bytes go to the caller
(R190) and the outcome is success. -/
def endCall (n : Nat) (s : State) : Host.Outcome State Fault Refusal :=
  match s.calls[n]? with
  | none => .refused .noSuchCall
  | some c =>
    if c.todo = [] then
      match c.output.read 0 c.output.size with
      | some bs => .next (answer (.bytes bs) (succeed { s with calls := s.calls.eraseIdx n }))
      | none => .fault .outsideBuffer
    else .refused .notFinished

end Sys2Proof.Machine
end

