-- ==== Sys2Proof/Machine/Decoder.lean ====
section
/-!
DEFINITION. The Block Decoder's rows: the stages UNPACK_BLOCK, EXTRACT_CODE, SELECT_INDEX and PALETTE_LOOKUP (R170 to
R173), the operation DECODE_PIXEL as a transaction on the DEC unit (R95, R174, R177 to R179), and the pseudo-operation
DECODE_BLOCK16 (R176).
-/

namespace Sys2Proof.Machine

/-- UNPACK_BLOCK (R170). -/
def execUnpackBlock (cb : CBlock) (s : State) : Host.Outcome State Fault Refusal :=
  .next (answer (.unpacked cb[0] cb[1] (unpackCodeword cb)) s)

/-- EXTRACT_CODE (R171). -/
def execExtractCode (cw : CodeWord) (pix : PixIdx) (s : State) : Host.Outcome State Fault Refusal :=
  .next (answer (.code (lane cw pix)) s)

/-- SELECT_INDEX (R172). -/
def execSelectIndex (dv0 dv1 : Byte) (code : Code) (s : State) : Host.Outcome State Fault Refusal :=
  .next (answer (.index (upperHalf dv0 dv1) (paletteIndex dv0 dv1 code)) s)

/-- PALETTE_LOOKUP (R173). -/
def execPaletteLookup (dv0 dv1 : Byte) (idx : PalIdx) (s : State) : Host.Outcome State Fault Refusal :=
  .next (answer (.pixel (paletteLookup dv0 dv1 idx)) s)

/-- DECODE_PIXEL: the transaction runs to DONE and the host reads `d_px` (R95, R174). -/
def execDecodePixel (cb : CBlock) (pix : PixIdx) (s : State) : Host.Outcome State Fault Refusal :=
  let u := decTransact cb pix s.dec
  .next (answer (.pixel u.px) { s with dec := u })

/-- The sixteen transactions of DECODE_BLOCK16 on one unit, pixel 0 first (assumption 11). -/
def decTransact16 (cb : CBlock) (u : DecUnit) : DecUnit :=
  (List.range 16).foldl (fun v i => decTransact cb (BitVec.ofNat 4 i) v) u

/-- DECODE_BLOCK16 (R96, R176). -/
def execDecodeBlock16 (cb : CBlock) (s : State) : Host.Outcome State Fault Refusal :=
  .next (answer (.block (decodeBlock16 cb)) { s with dec := decTransact16 cb s.dec })

end Sys2Proof.Machine
end

