-- ==== Sys2Proof/Machine/Encoder.lean ====
section
/-!
DEFINITION. The Codeword Packer's and Block Encoder's rows: the stages MINMAX, SELECT_CODE, PACK_CODEWORDS and EMIT_BLOCK
(R150 to R154) and the operation ENCODE_BLOCK as a transaction on the ENC unit (R95, R156 to R159).
-/

namespace Sys2Proof.Machine

/-- MINMAX (R150). -/
def execMinmax (blk : Block) (s : State) : Host.Outcome State Fault Refusal :=
  .next (answer (.minmax (blockMax blk) (blockMin blk)) s)

/-- SELECT_CODE (R151, R152). -/
def execSelectCode (decr : Bool) (res : ResTable) (s : State) : Host.Outcome State Fault Refusal :=
  .next (answer (.codes (selectCodes decr res)) s)

/-- PACK_CODEWORDS (R153). -/
def execPackCodewords (codes : Codes) (s : State) : Host.Outcome State Fault Refusal :=
  .next (answer (.codeword (packCodewords codes)) s)

/-- EMIT_BLOCK (R154). -/
def execEmitBlock (v0 v1 : Byte) (cw : CodeWord) (s : State) : Host.Outcome State Fault Refusal :=
  .next (answer (.cblock (emitBlock v0 v1 cw)) s)

/-- ENCODE_BLOCK: the transaction runs to DONE and the host reads `e_cb` as bytes (R95, R156). -/
def execEncodeBlock (blk : Block) (s : State) : Host.Outcome State Fault Refusal :=
  let u := encTransact blk s.enc
  .next (answer (.cblock u.cb) { s with enc := u })

end Sys2Proof.Machine
end

