-- ==== Sys2Proof/Machine/Order.lean ====
section
/-!
DEFINITION. The Order Selector's rows: SELECT_ORDER and SELECT_ENDPOINTS (R140, R141).
-/

namespace Sys2Proof.Machine

/-- SELECT_ORDER (R140). -/
def execSelectOrder (tot : Totals) (s : State) : Host.Outcome State Fault Refusal :=
  .next (answer (.order (orderFlag tot)) s)

/-- SELECT_ENDPOINTS (R141). -/
def execSelectEndpoints (decr : Bool) (maxv minv : Byte) (s : State) : Host.Outcome State Fault Refusal :=
  .next (answer (.endpoints (storedEndpoints decr maxv minv).1 (storedEndpoints decr maxv minv).2) s)

end Sys2Proof.Machine
end

