-- ==== Sys2Proof/Machine/Palette.lean ====
section
/-!
DEFINITION. The Palette Builder's rows: PAL0 to PAL7 and BUILD_PALETTE (R110 to R118). Each evaluates its function on the
given operands (R11) and hands the result back; it reads and writes no state and raises nothing.
-/

namespace Sys2Proof.Machine

/-- PAL0 (R111). -/
def execPal0 (val0 val1 : Byte) (flip : Bool) (s : State) : Host.Outcome State Fault Refusal :=
  .next (answer (.entry (palEntry0 val0 val1 flip)) s)

/-- PAL1 (R112). -/
def execPal1 (val0 val1 : Byte) (flip : Bool) (s : State) : Host.Outcome State Fault Refusal :=
  .next (answer (.entry (palEntry1 val0 val1 flip)) s)

/-- PAL2 (R113). -/
def execPal2 (val0 val1 : Byte) (flip : Bool) (s : State) : Host.Outcome State Fault Refusal :=
  .next (answer (.entry (palEntry2 val0 val1 flip)) s)

/-- PAL3 (R114). -/
def execPal3 (val0 val1 : Byte) (flip : Bool) (s : State) : Host.Outcome State Fault Refusal :=
  .next (answer (.entry (palEntry3 val0 val1 flip)) s)

/-- PAL4 (R115). -/
def execPal4 (val0 val1 : Byte) (flip : Bool) (s : State) : Host.Outcome State Fault Refusal :=
  .next (answer (.entry (palEntry4 val0 val1 flip)) s)

/-- PAL5 (R116). -/
def execPal5 (val0 val1 : Byte) (flip : Bool) (s : State) : Host.Outcome State Fault Refusal :=
  .next (answer (.entry (palEntry5 val0 val1 flip)) s)

/-- PAL6 (R117). -/
def execPal6 (val0 val1 : Byte) (flip : Bool) (s : State) : Host.Outcome State Fault Refusal :=
  .next (answer (.entry (palEntry6 val0 val1 flip)) s)

/-- PAL7 (R118). -/
def execPal7 (val0 val1 : Byte) (flip : Bool) (s : State) : Host.Outcome State Fault Refusal :=
  .next (answer (.entry (palEntry7 val0 val1 flip)) s)

/-- BUILD_PALETTE (R110). -/
def execBuildPalette (val0 val1 : Byte) (flip : Bool) (s : State) : Host.Outcome State Fault Refusal :=
  .next (answer (.palette (buildPalette val0 val1 flip)) s)

end Sys2Proof.Machine
end

