-- ==== Sys2Proof/Machine/Reset.lean ====
section
/-!
DEFINITION. RST: `rst = 1` at one rising edge of the named unit's clock (R95, R240, R241).
-/

namespace Sys2Proof.Machine

/-- RST (R240). The other unit, the buffers and the dimensions are untouched. -/
def execRst (which : UnitSel) (s : State) : Host.Outcome State Fault Refusal :=
  match which with
  | .enc => .next (quiet { s with enc := encEdge { encQuiet with rst := true } s.enc })
  | .dec => .next (quiet { s with dec := decEdge { decQuiet with rst := true } s.dec })

end Sys2Proof.Machine
end

