-- ==== Sys2Proof/Machine/Residual.lean ====
section
/-!
DEFINITION. The Residual Evaluator's rows: RESIDUALS and TOTALS (R130, R131). "No side effects beyond returning these two
tables."
-/

namespace Sys2Proof.Machine

/-- RESIDUALS (R130). -/
def execResiduals (blk : Block) (p : Palette) (s : State) : Host.Outcome State Fault Refusal :=
  .next (answer (.residuals (residualTable blk p)) s)

/-- TOTALS (R131). -/
def execTotals (res : ResTable) (s : State) : Host.Outcome State Fault Refusal :=
  .next (answer (.totals (columnTotals res)) s)

end Sys2Proof.Machine
end

