-- ==== Sys2Proof/Machine/Dispatch.lean ====
section
/-!
DEFINITION. One arm per row of the operation table.
-/

namespace Sys2Proof.Machine

def exec (i : Instr) (s : State) : Host.Outcome State Fault Refusal :=
  match i with
  | .encodeBlock blk => Sys2Proof.Machine.execEncodeBlock blk s
  | .decodePixel cb pix => Sys2Proof.Machine.execDecodePixel cb pix s
  | .pal0 val0 val1 flip => Sys2Proof.Machine.execPal0 val0 val1 flip s
  | .pal1 val0 val1 flip => Sys2Proof.Machine.execPal1 val0 val1 flip s
  | .pal2 val0 val1 flip => Sys2Proof.Machine.execPal2 val0 val1 flip s
  | .pal3 val0 val1 flip => Sys2Proof.Machine.execPal3 val0 val1 flip s
  | .pal4 val0 val1 flip => Sys2Proof.Machine.execPal4 val0 val1 flip s
  | .pal5 val0 val1 flip => Sys2Proof.Machine.execPal5 val0 val1 flip s
  | .pal6 val0 val1 flip => Sys2Proof.Machine.execPal6 val0 val1 flip s
  | .pal7 val0 val1 flip => Sys2Proof.Machine.execPal7 val0 val1 flip s
  | .buildPalette val0 val1 flip => Sys2Proof.Machine.execBuildPalette val0 val1 flip s
  | .residuals blk p => Sys2Proof.Machine.execResiduals blk p s
  | .totals res => Sys2Proof.Machine.execTotals res s
  | .selectOrder tot => Sys2Proof.Machine.execSelectOrder tot s
  | .selectEndpoints decr maxv minv => Sys2Proof.Machine.execSelectEndpoints decr maxv minv s
  | .minmax blk => Sys2Proof.Machine.execMinmax blk s
  | .selectCode decr res => Sys2Proof.Machine.execSelectCode decr res s
  | .packCodewords codes => Sys2Proof.Machine.execPackCodewords codes s
  | .emitBlock v0 v1 cw => Sys2Proof.Machine.execEmitBlock v0 v1 cw s
  | .unpackBlock cb => Sys2Proof.Machine.execUnpackBlock cb s
  | .extractCode cw pix => Sys2Proof.Machine.execExtractCode cw pix s
  | .selectIndex dv0 dv1 code => Sys2Proof.Machine.execSelectIndex dv0 dv1 code s
  | .paletteLookup dv0 dv1 idx => Sys2Proof.Machine.execPaletteLookup dv0 dv1 idx s
  | .decodeBlock16 cb => Sys2Proof.Machine.execDecodeBlock16 cb s
  | .encodeImage => Sys2Proof.Machine.execEncodeImage s
  | .decodeImage => Sys2Proof.Machine.execDecodeImage s
  | .rst which => Sys2Proof.Machine.execRst which s

end Sys2Proof.Machine
end

