-- ==== Sys2Proof/Machine/Events.lean ====
section
/-!
DEFINITION. What each action of the host does (R222, R242), and the clock edge that passes when the host does nothing.
-/

namespace Sys2Proof.Machine

/-- Bytes presented on a port: the transaction they stand for, or a refusal. -/
def runRequest (port : Port) (bytes : List Byte) (s : State) : Host.Outcome State Fault Refusal :=
  match decode port bytes with
  | .ok i => exec i s
  | .error e => .refused (.notARequest e)

/-- A notation line. -/
def runLine (i : Instr) (s : State) : Host.Outcome State Fault Refusal :=
  if i.wf then exec i s else .refused .operandWidth

/-- The status outputs of a unit; reading them changes nothing else (R23, R27). -/
def readStatus (which : UnitSel) (s : State) : Host.Outcome State Fault Refusal :=
  match which with
  | .enc => .next (answer (.status s.enc.ph.stat) s)
  | .dec => .next (answer (.status s.dec.ph.stat) s)

/-- The result output of a unit: in phase DONE its result, which stays (R159, R179); in another phase the read has no
meaning and is refused (R245). -/
def readResult (which : UnitSel) (s : State) : Host.Outcome State Fault Refusal :=
  match which with
  | .enc => if s.enc.ph = .done then .next (answer (.eCbPort (portOfCblock s.enc.cb)) s) else .refused .resultNotValid
  | .dec => if s.dec.ph = .done then .next (answer (.dPxPort s.dec.px) s) else .refused .resultNotValid

/-- A buffer by name. -/
def State.buffer (s : State) : Buf → Memory
  | .img => s.img
  | .cmp => s.cmp

/-- A buffer replaced. -/
def State.withBuffer (s : State) (b : Buf) (m : Memory) : State :=
  match b with
  | .img => { s with img := m }
  | .cmp => { s with cmp := m }

/-- `MemRead` by the host. -/
def hostRead (b : Buf) (a n : Nat) (s : State) : Host.Outcome State Fault Refusal :=
  match (s.buffer b).read a n with
  | some bs => .next (answer (.bytes bs) s)
  | none => .fault .outsideBuffer

/-- `MemWrite` by the host. -/
def hostWrite (b : Buf) (a : Nat) (bs : List Byte) (s : State) : Host.Outcome State Fault Refusal :=
  match (s.buffer b).write a bs with
  | some m => .next (quiet (s.withBuffer b m))
  | none => .fault .outsideBuffer

/-- The host turns to another unit; the one in hand takes its place among the others (R221). -/
def turnTo (which : UnitSel) (k : Nat) (s : State) : Host.Outcome State Fault Refusal :=
  match which with
  | .enc =>
    match s.encPool[k]? with
    | some u => .next (quiet { s with enc := u, encPool := s.encPool.set k s.enc })
    | none => .refused .noSuchUnit
  | .dec =>
    match s.decPool[k]? with
    | some u => .next (quiet { s with dec := u, decPool := s.decPool.set k s.dec })
    | none => .refused .noSuchUnit

/-- One action of the host. -/
def runAction (a : Action) (s : State) : Host.Outcome State Fault Refusal :=
  match a with
  | .request port bytes => runRequest port bytes s
  | .line i => runLine i s
  | .encEdge p => .next (quiet { s with enc := encEdge p s.enc })
  | .decEdge p => .next (quiet { s with dec := decEdge p s.dec })
  | .readStatus which => readStatus which s
  | .readResult which => readResult which s
  | .supply b bytes => .next (quiet (s.withBuffer b (Memory.ofBytes bytes)))
  | .setDims width height => .next (quiet { s with width := width, height := height })
  | .memRead b addr n => hostRead b addr n s
  | .memWrite b addr bytes => hostWrite b addr bytes s
  | .turnTo which k => turnTo which k s
  | .beginCall p => beginCall p s
  | .workOn n piece => workOn n piece s
  | .endCall n => endCall n s

/-- The host does nothing: one rising edge of every unit's clock with nothing asked of it. A unit at rest holds its state
(R220); a BUSY unit gets nearer to its complete step (R158, R178). Which clock gets an edge at which step: assumption 10. -/
def quietEdge (s : State) : State :=
  quiet { s with enc := encEdge encQuiet s.enc, dec := decEdge decQuiet s.dec, encPool := s.encPool.map (encEdge encQuiet),
                 decPool := s.decPool.map (decEdge decQuiet) }

end Sys2Proof.Machine
end

