-- ==== Sys2Proof/Machine/Step.lean ====
section
/-!
DEFINITION. One step: the host's next action, or one quiet clock edge when the host does nothing.
-/

namespace Sys2Proof.Machine

/-- One step of the platform. There is no program counter (R30): the script of the host's actions takes its place. -/
def step (s : State) : Host.Outcome State Fault Refusal :=
  match s.script with
  | [] => .next (quietEdge s)
  | a :: rest => runAction a { s with script := rest }

/-- The state with a word of the opcode table as the host's next request, so that the next step presents it (assumption 4). A
word of no row becomes a request that `step` refuses. -/
def State.withFetchWord (s : State) (nbits w : Nat) : State :=
  match tableRequest nbits w with
  | some (port, bytes) => { s with script := .request port bytes :: s.script }
  | none => { s with script := .request .pal [] :: s.script }

end Sys2Proof.Machine
end

