-- ==== Sys2Proof/Safety.lean ====
section
/-!
DEFINITION. The terms that claims about the machine use: the invariant of the machine, what an image's pixels and blocks
are, the rules' candidates and distances on plain numbers, and which instruction drives which unit.
-/

namespace Sys2Proof.Machine

/-- What holds of an ENC unit: in DONE the result register holds the encoding of the operand register (R23, R158); in BUSY
the complete step is still ahead (R158). -/
def EncUnit.Ok (u : EncUnit) : Prop :=
  (u.ph = .done → u.cb = encodeBlock u.blk) ∧ (u.ph = .busy → u.age < encLatency u) ∧ (u.ph ≠ .busy → u.age = 0)

/-- What holds of a DEC unit (R27, R178). -/
def DecUnit.Ok (u : DecUnit) : Prop :=
  (u.ph = .done → u.px = decodePixel u.cb u.pix) ∧ (u.ph = .busy → u.age < decLatency u) ∧ (u.ph ≠ .busy → u.age = 0)

/-- The distance of two intensities. -/
def distance (a b : Nat) : Nat := max a b - min a b

/-- The candidates of the active half (R143). -/
def candidate (decr : Bool) (maxv minv : Nat) : Fin 4 → Nat
  | 0 => if decr then maxv else minv
  | 1 => if decr then minv else maxv
  | 2 => if decr then (2 * maxv + minv) / 3 else (maxv + minv) / 2
  | 3 => if decr then (maxv + 2 * minv) / 3 else 0

/-- The sum of the distances of a block's pixels to one candidate (R131). -/
def blockDistance (blk : Block) (entry : Nat) : Nat := (blk.toList.map fun p => distance p.toNat entry).sum

/-- A block of sixteen equal pixels. -/
def constBlock (v : Byte) : Block := Vector.ofFn fun _ => v

/-- The pixel at `(x, y)` of a buffer that holds an image (R54). -/
def pixelOf (img : Memory) (width x y : Nat) : Byte := (img.readByte (y * width + x)).getD 0

/-- The block in column `i` and row `j` of the blocks of an image (R55). -/
def blockOf (img : Memory) (width i j : Nat) : Block :=
  Vector.ofFn fun k => pixelOf img width (4 * i + k.val % 4) (4 * j + k.val / 4)

/-- Compressed block `n` of a buffer (R56). -/
def cblockOf (cmp : Memory) (n : Nat) : CBlock := Vector.ofFn fun k => (cmp.readByte (6 * n + k.val)).getD 0

/-- "a positive multiple of 4" (R57). -/
def PositiveMultipleOf4 (n : Nat) : Prop := ∃ k, 0 < k ∧ n = 4 * k

/-- What holds of a call under way: its checks passed, its buffers are canonical and of the right length, its work lies in the image,
and every piece that is not to do has its bytes in the output (R58, R191, R195, R250). -/
def Call.Ok (c : Call) : Prop :=
  PositiveMultipleOf4 c.width ∧ PositiveMultipleOf4 c.height ∧ c.img.wf = true ∧ c.cmp.wf = true ∧
    c.img.size = c.width * c.height ∧
    match c.proc with
    | .encodeImage =>
      c.cmp.size = c.width / 4 * (c.height / 4) * 6 ∧ (∀ xy ∈ c.todo, xy ∈ blockOrigins c.width c.height) ∧
        ∀ i j : Nat, i < c.width / 4 → j < c.height / 4 → (4 * i, 4 * j) ∉ c.todo → ∀ k : Fin 6,
          c.cmp.readByte (6 * (j * (c.width / 4) + i) + k.val) = some (encodeBlock (blockOf c.img c.width i j))[k]
    | .decodeImage =>
      c.width / 4 * (c.height / 4) * 6 ≤ c.cmp.size ∧ (∀ xy ∈ c.todo, xy ∈ pixelOrder c.width c.height) ∧
        ∀ x y : Nat, x < c.width → y < c.height → (x, y) ∉ c.todo →
          c.img.readByte (y * c.width + x) = some (decodePixel (cblockOf c.cmp (y / 4 * (c.width / 4) + x / 4))
            (BitVec.ofNat 4 (y % 4 * 4 + x % 4)))

/-- The invariant of the machine: canonical buffers, every unit of the platform and every call under way in order, and no
outcome that only the collaborators around the core raise (R212, R213). -/
def State.Inv (s : State) : Prop :=
  s.img.wf = true ∧ s.cmp.wf = true ∧ s.enc.Ok ∧ s.dec.Ok ∧ (∀ u ∈ s.encPool, u.Ok) ∧ (∀ u ∈ s.decPool, u.Ok) ∧
    (∀ o, s.outcome = some o → o.code ≤ 1) ∧ ∀ c ∈ s.calls, c.Ok

/-- The instructions that run a transaction or a reset on the ENC unit. -/
def drivesEnc : Instr → Bool
  | .encodeBlock _ => true
  | .encodeImage => true
  | .rst .enc => true
  | _ => false

/-- The instructions that run a transaction or a reset on the DEC unit. -/
def drivesDec : Instr → Bool
  | .decodePixel _ _ => true
  | .decodeBlock16 _ => true
  | .decodeImage => true
  | .rst .dec => true
  | _ => false

/-- Actions that concern the ENC unit in hand and nothing else. -/
def encOnly : Action → Bool
  | .request .enc _ => true
  | .line (.encodeBlock _) => true
  | .line (.rst .enc) => true
  | .encEdge _ => true
  | .readStatus .enc => true
  | .readResult .enc => true
  | _ => false

/-- Actions that concern the DEC unit in hand and nothing else. -/
def decOnly : Action → Bool
  | .request .dec _ => true
  | .line (.decodePixel _ _) => true
  | .line (.decodeBlock16 _) => true
  | .line (.rst .dec) => true
  | .decEdge _ => true
  | .readStatus .dec => true
  | .readResult .dec => true
  | _ => false

/-- Actions of the host that give no unit a clock edge: reading outputs, its own buffers and dimensions, beginning and ending a
call. -/
def touchesNoUnit : Action → Bool
  | .readStatus _ => true
  | .readResult _ => true
  | .supply _ _ => true
  | .setDims _ _ => true
  | .memRead _ _ _ => true
  | .memWrite _ _ _ => true
  | .beginCall _ => true
  | .endCall _ => true
  | _ => false

/-- Every unit of the platform is at rest: IDLE or DONE (R250). -/
def State.Quiescent (s : State) : Prop :=
  s.enc.ph ≠ .busy ∧ s.dec.ph ≠ .busy ∧ (∀ u ∈ s.encPool, u.ph ≠ .busy) ∧ ∀ u ∈ s.decPool, u.ph ≠ .busy

end Sys2Proof.Machine
end

