-- ==== Sys2Proof/Certificates/Slice0/Obligations.lean ====
section
/-!
DEFINITION. The statements for the provers. Each docstring names the rule or rules it formalises; nothing is proved here.
-/

open Sys2Proof Sys2Proof.Machine

/-- R111 to R114: the four entries of the lower half. PAL0 to PAL3 run in every state, hand back the entry, change nothing
else, and do not look at `flip`; PAL3 of a pair is PAL2 of the pair swapped. In ENC entries 0 and 1 are the block's maximum
and minimum, in DEC the stored bytes. -/
def Obligations.LowerHalfEntriesAreTheRules : Prop :=
  (∀ (s : State) (a b : Byte) (f : Bool),
    exec (.pal0 a b f) s = .next { s with ret := some (.entry a) } ∧
    exec (.pal1 a b f) s = .next { s with ret := some (.entry b) } ∧
    (∃ v : Byte, v.toNat = (2 * a.toNat + b.toNat) / 3 ∧
      exec (.pal2 a b f) s = .next { s with ret := some (.entry v) } ∧
      exec (.pal3 b a f) s = .next { s with ret := some (.entry v) }) ∧
    ∃ v : Byte, v.toNat = (a.toNat + 2 * b.toNat) / 3 ∧ exec (.pal3 a b f) s = .next { s with ret := some (.entry v) }) ∧
  (∀ blk : Block, (encTransients blk).pal[0] = blockMax blk ∧ (encTransients blk).pal[1] = blockMin blk) ∧
  ∀ (cb : CBlock) (p : PixIdx), (decTransients cb p).dp[0] = cb[0] ∧ (decTransients cb p).dp[1] = cb[1]

/-- R115 to R118: the four entries of the upper half, as `LowerHalfEntriesAreTheRules`; PAL7's is the only entry that can lie
outside the interval between the endpoints. -/
def Obligations.UpperHalfEntriesAreTheRules : Prop :=
  ∀ (s : State) (a b : Byte) (f : Bool),
    (∀ k : Fin 8, k.val < 7 → min a.toNat b.toNat ≤ (buildPalette a b f)[k].toNat ∧
      (buildPalette a b f)[k].toNat ≤ max a.toNat b.toNat) ∧
    exec (.pal4 a b false) s = .next { s with ret := some (.entry b) } ∧
    exec (.pal4 a b true) s = .next { s with ret := some (.entry a) } ∧
    exec (.pal5 a b false) s = .next { s with ret := some (.entry a) } ∧
    exec (.pal5 a b true) s = .next { s with ret := some (.entry b) } ∧
    (∃ v : Byte, v.toNat = (a.toNat + b.toNat) / 2 ∧
      exec (.pal6 a b f) s = .next { s with ret := some (.entry v) } ∧
      exec (.pal6 b a f) s = .next { s with ret := some (.entry v) }) ∧
    exec (.pal7 a b f) s = .next { s with ret := some (.entry 0) }

/-- R110: BUILD_PALETTE runs in every state and hands back the eight entries of the rule; equal endpoints `v` give seven
entries `v` and a last entry 0. -/
def Obligations.BuildPaletteGivesTheEightEntries : Prop :=
  ∀ (s : State) (a b : Byte) (f : Bool), ∃ p : Palette,
    exec (.buildPalette a b f) s = .next { s with ret := some (.palette p) } ∧
    p[0] = a ∧ p[1] = b ∧ p[2].toNat = (2 * a.toNat + b.toNat) / 3 ∧ p[3].toNat = (a.toNat + 2 * b.toNat) / 3 ∧
    p[4] = (if f then a else b) ∧ p[5] = (if f then b else a) ∧ p[6].toNat = (a.toNat + b.toNat) / 2 ∧ p[7] = 0 ∧
    (a = b → p = #v[a, a, a, a, a, a, a, 0])

/-- R119: only entries 4 and 5 depend on `flip`, and they swap. -/
def Obligations.FlipSwapsEntriesFourAndFiveOnly : Prop :=
  ∀ a b : Byte,
    (∀ k : Fin 8, k.val ≠ 4 → k.val ≠ 5 → (buildPalette a b false)[k] = (buildPalette a b true)[k]) ∧
    (buildPalette a b false)[4] = b ∧ (buildPalette a b true)[5] = b ∧
    (buildPalette a b false)[5] = a ∧ (buildPalette a b true)[4] = a

/-- The bounds of the palette: an inference the spec marks as its own ("each is a truncated weighted mean of `val0` and
`val1`", R120). -/
def Obligations.PaletteEntriesLieBetweenTheEndpoints : Prop :=
  ∀ (a b : Byte) (f : Bool),
    (∀ k : Fin 8, k.val = 2 ∨ k.val = 3 ∨ k.val = 6 →
      min a.toNat b.toNat ≤ (buildPalette a b f)[k].toNat ∧ (buildPalette a b f)[k].toNat ≤ max a.toNat b.toNat) ∧
    (b.toNat ≤ a.toNat →
      (buildPalette a b f)[3].toNat ≤ (buildPalette a b f)[2].toNat ∧
      (buildPalette a b f)[2].toNat ≤ (buildPalette a b f)[0].toNat ∧
      (buildPalette a b f)[1].toNat ≤ (buildPalette a b f)[3].toNat) ∧
    (buildPalette a b f)[7] = 0

/-- The decoder's active half is the half the encoder measured, an inference the spec marks as its own (R121). For the block's
encoding, in the decreasing order the lower halves agree, in the increasing order the upper halves agree. -/
def Obligations.DecoderPaletteAgreesWithEncoderPalette : Prop :=
  ∀ (blk : Block) (p : PixIdx),
    ((encTransients blk).decr = true →
      ∀ k : Fin 8, k.val < 4 → (decTransients (encodeBlock blk) p).dp[k] = (encTransients blk).pal[k]) ∧
    ((encTransients blk).decr = false →
      (∀ k : Fin 8, 4 ≤ k.val → (decTransients (encodeBlock blk) p).dp[k] = (encTransients blk).pal[k]) ∧
      (decTransients (encodeBlock blk) p).dp[4] = blockMin blk ∧ (decTransients (encodeBlock blk) p).dp[5] = blockMax blk)

/-- R130: RESIDUALS runs in every state; every residual is the absolute value of the integer difference, and column 7 of a
palette whose last entry is 0 is the pixel. -/
def Obligations.ResidualsAreAbsoluteDifferences : Prop :=
  ∀ (s : State) (blk : Block) (p : Palette), ∃ r : ResTable,
    exec (.residuals blk p) s = .next { s with ret := some (.residuals r) } ∧
    (∀ (i : Fin 16) (j : Fin 8), ((r[i][j].toNat : Nat) : Int) = |(blk[i].toNat : Int) - (p[j].toNat : Int)|) ∧
    (∀ (i : Fin 16) (j : Fin 8), r[i][j].toNat = 255 →
      (blk[i].toNat = 0 ∧ p[j].toNat = 255) ∨ (blk[i].toNat = 255 ∧ p[j].toNat = 0)) ∧
    (p[7] = 0 → ∀ i : Fin 16, r[i][7] = blk[i])

/-- R131: TOTALS runs in every state; each total is the exact sum of its column and lies in 0..4080. -/
def Obligations.TotalsAreExactColumnSums : Prop :=
  ∀ (s : State) (r : ResTable), ∃ t : Totals,
    exec (.totals r) s = .next { s with ret := some (.totals t) } ∧
    ∀ j : Fin 8, t[j] = (∑ i : Fin 16, r[i][j].toNat) ∧ t[j] ≤ 4080

/-- The identities of the encoder's residual table and totals: "These are consequences, not extra rules" (R133). -/
def Obligations.EncoderResidualIdentities : Prop :=
  ∀ blk : Block,
    (∀ i : Fin 16,
      (encTransients blk).res[i][4] = (encTransients blk).res[i][1] ∧
      (encTransients blk).res[i][5] = (encTransients blk).res[i][0] ∧
      (encTransients blk).res[i][0].toNat = (blockMax blk).toNat - blk[i].toNat ∧
      (encTransients blk).res[i][1].toNat = blk[i].toNat - (blockMin blk).toNat ∧
      (encTransients blk).res[i][0].toNat + (encTransients blk).res[i][1].toNat =
        (blockMax blk).toNat - (blockMin blk).toNat ∧
      (encTransients blk).res[i][7] = blk[i] ∧
      (encTransients blk).res[i][4].toNat ≤ (encTransients blk).res[i][7].toNat) ∧
    (encTransients blk).tot[4] = (encTransients blk).tot[1] ∧ (encTransients blk).tot[5] = (encTransients blk).tot[0] ∧
    (encTransients blk).tot[0] + (encTransients blk).tot[1] = 16 * ((blockMax blk).toNat - (blockMin blk).toNat)

/-- R140: SELECT_ORDER runs in every state, compares the two sums strictly and reads no other total; a block of zeros gives 0
and a constant block of another value gives 1. -/
def Obligations.SelectOrderComparesTheTwoSums : Prop :=
  (∀ (s : State) (t : Totals), ∃ d : Bool,
    exec (.selectOrder t) s = .next { s with ret := some (.order d) } ∧ (d = true ↔ t[2] + t[3] < t[6] + t[7])) ∧
  (∀ (t t' : Totals), t[2] = t'[2] → t[3] = t'[3] → t[6] = t'[6] → t[7] = t'[7] → orderFlag t = orderFlag t') ∧
  ∀ v : Byte, (encTransients (constBlock v)).decr = decide (0 < v.toNat)

/-- R141: SELECT_ENDPOINTS runs in every state and stores the endpoints in the chosen order. The last clause, when the stored
pair is strictly ordered, is an inference the spec marks as its own (R141, from the pseudocode and `MAXV >= MINV`). -/
def Obligations.SelectEndpointsStoresTheChosenOrder : Prop :=
  ∀ (s : State) (d : Bool) (maxv minv : Byte), ∃ v0 v1 : Byte,
    exec (.selectEndpoints d maxv minv) s = .next { s with ret := some (.endpoints v0 v1) } ∧
    v0 = (if d then maxv else minv) ∧ v1 = (if d then minv else maxv) ∧
    (minv.toNat ≤ maxv.toNat →
      (v1.toNat < v0.toNat ↔ d = true ∧ minv.toNat < maxv.toNat) ∧
      (v0.toNat < v1.toNat ↔ d = false ∧ minv.toNat < maxv.toNat))

/-- "Two consequences useful as tests" (R144, an inference the spec marks as its own): a block of 0s and 255s that has both,
`m` of them 255, has `S23 = 4080` and `S67 = 2032 + 256*m`, so its order is decreasing exactly when `m > 8`; a constant
block's order is decreasing exactly when its value is not 0. -/
def Obligations.OrderOfTwoValuedBlocks : Prop :=
  (∀ (blk : Block) (m : Nat), (∀ i : Fin 16, blk[i] = 0 ∨ blk[i] = 255) → (∃ i : Fin 16, blk[i] = 0) →
    (∃ i : Fin 16, blk[i] = 255) → m = blk.toList.countP (fun p => decide (p = 255)) →
    (encTransients blk).tot[2] + (encTransients blk).tot[3] = 4080 ∧
    (encTransients blk).tot[6] + (encTransients blk).tot[7] = 2032 + 256 * m ∧
    ((encTransients blk).decr = true ↔ 8 < m)) ∧
  ∀ v : Byte, ((encTransients (constBlock v)).decr = true ↔ 0 < v.toNat) ∧
    ((encTransients (constBlock v)).decr = false ↔ v.toNat = 0)

/-- R150: MINMAX runs in every state; each result is a pixel of the block and bounds every pixel, unsigned; on a constant
block both are its value. -/
def Obligations.MinMaxAreAttainedBounds : Prop :=
  ∀ (s : State) (blk : Block), ∃ maxv minv : Byte,
    exec (.minmax blk) s = .next { s with ret := some (.minmax maxv minv) } ∧
    (∃ i : Fin 16, blk[i] = maxv) ∧ (∃ i : Fin 16, blk[i] = minv) ∧
    (∀ i : Fin 16, minv.toNat ≤ blk[i].toNat ∧ blk[i].toNat ≤ maxv.toNat) ∧
    ∀ v : Byte, blk = constBlock v → maxv = v ∧ minv = v

/-- R151, R152: SELECT_CODE runs in every state; each code is the smallest offset within the active half whose residual is
minimal, and the inactive half is not looked at. -/
def Obligations.SelectCodeTakesTheFirstMinimum : Prop :=
  (∀ (s : State) (d : Bool) (r : ResTable), ∃ k : Codes,
    exec (.selectCode d r) s = .next { s with ret := some (.codes k) } ∧
    ∀ i : Fin 16, ∃ h : Vector Byte 4,
      (d = true → h = #v[r[i][0], r[i][1], r[i][2], r[i][3]]) ∧
      (d = false → h = #v[r[i][4], r[i][5], r[i][6], r[i][7]]) ∧
      ∃ m : Fin 4, k[i].toNat = m.val ∧ (∀ j : Fin 4, h[m].toNat ≤ h[j].toNat) ∧
        ∀ j : Fin 4, j < m → h[m].toNat < h[j].toNat) ∧
  ∀ (d : Bool) (r r' : ResTable),
    (∀ (i : Fin 16) (j : Fin 8), (j.val < 4 ↔ d = true) → r[i][j] = r'[i][j]) → selectCodes d r = selectCodes d r'

/-- R153: PACK_CODEWORDS runs in every state; lane `i` of the word is `CODE[i]` for all sixteen, which fixes every bit. -/
def Obligations.PackCodewordsFillsEveryLane : Prop :=
  (∀ (s : State) (k : Codes), ∃ cw : CodeWord,
    exec (.packCodewords k) s = .next { s with ret := some (.codeword cw) } ∧
    (∀ i : Fin 16, cw.extractLsb' (2 * i.val) 2 = k[i]) ∧
    cw.toNat = ∑ i : Fin 16, k[i].toNat * 2 ^ (2 * i.val)) ∧
  ∀ cw cw' : CodeWord, (∀ i : Fin 16, cw.extractLsb' (2 * i.val) 2 = cw'.extractLsb' (2 * i.val) 2) → cw = cw'

/-- R154, R87: EMIT_BLOCK runs in every state and lays the six bytes out; taking the word's bytes apart and putting them
together are inverse. -/
def Obligations.EmitBlockLaysOutTheSixBytes : Prop :=
  (∀ (s : State) (v0 v1 : Byte) (cw : CodeWord), ∃ cb : CBlock,
    exec (.emitBlock v0 v1 cw) s = .next { s with ret := some (.cblock cb) } ∧
    cb[0] = v0 ∧ cb[1] = v1 ∧ cb[2] = cw.extractLsb' 24 8 ∧ cb[3] = cw.extractLsb' 16 8 ∧ cb[4] = cw.extractLsb' 8 8 ∧
    cb[5] = cw.extractLsb' 0 8 ∧ unpackCodeword cb = cw ∧
    cw.toNat = cb[2].toNat * 2 ^ 24 + cb[3].toNat * 2 ^ 16 + cb[4].toNat * 2 ^ 8 + cb[5].toNat) ∧
  ∀ cb : CBlock, emitBlock cb[0] cb[1] (unpackCodeword cb) = cb

/-- The transaction `ENC` of R95 with accept and complete taken as one step (the model's choice, which R11 permits: assumption
8): it completes in every state, leaves the unit in DONE with operand and result in its registers, hands the six bytes back,
and changes nothing else. `age` and `seq` are the model's own counters (assumption 3). -/
def Obligations.EncodeBlockCompletesInEveryState : Prop :=
  ∀ (s : State) (blk : Block), exec (.encodeBlock blk) s =
    .next { s with
      enc := { s.enc with blk := blk, cb := encodeBlock blk, ph := .done, age := 0, seq := s.enc.seq + 1 },
      ret := some (.cblock (encodeBlock blk)) }

/-- R156 in the numbers of its rules, with no stage function in it: the endpoints are the block's bounds in the order the two
sums choose, and each lane is the first candidate of the active half at the smallest distance. That the unit is in DONE with
`E_CB` written after one step is R95 and R158 with accept and complete merged (the model's choice, assumption 8). -/
def Obligations.EncodedBlockMeetsTheRules : Prop :=
  ∀ (s : State) (blk : Block), ∃ (t : State) (cb : CBlock) (maxv minv : Nat) (decr : Bool),
    exec (.encodeBlock blk) s = .next t ∧ t.ret = some (.cblock cb) ∧ t.enc.ph = .done ∧ t.enc.cb = cb ∧
    (∃ i : Fin 16, blk[i].toNat = maxv) ∧ (∃ i : Fin 16, blk[i].toNat = minv) ∧
    (∀ i : Fin 16, minv ≤ blk[i].toNat ∧ blk[i].toNat ≤ maxv) ∧
    (decr = true ↔ blockDistance blk ((2 * maxv + minv) / 3) + blockDistance blk ((maxv + 2 * minv) / 3) <
      blockDistance blk ((maxv + minv) / 2) + blockDistance blk 0) ∧
    cb[0].toNat = (if decr then maxv else minv) ∧ cb[1].toNat = (if decr then minv else maxv) ∧
    ∀ i : Fin 16, ∃ k : Fin 4,
      ((cb[2] ++ cb[3] ++ cb[4] ++ cb[5] : BitVec 32).extractLsb' (2 * i.val) 2).toNat = k.val ∧
      (∀ j : Fin 4, distance blk[i].toNat (candidate decr maxv minv k) ≤ distance blk[i].toNat (candidate decr maxv minv j)) ∧
      ∀ j : Fin 4, j < k →
        distance blk[i].toNat (candidate decr maxv minv k) < distance blk[i].toNat (candidate decr maxv minv j)

/-- R170: UNPACK_BLOCK runs in every state and gives the two endpoints and the big-endian word. -/
def Obligations.UnpackBlockReadsTheFields : Prop :=
  ∀ (s : State) (cb : CBlock), ∃ cw : CodeWord,
    exec (.unpackBlock cb) s = .next { s with ret := some (.unpacked cb[0] cb[1] cw) } ∧
    cw.toNat = cb[2].toNat * 2 ^ 24 + cb[3].toNat * 2 ^ 16 + cb[4].toNat * 2 ^ 8 + cb[5].toNat

/-- R171: EXTRACT_CODE runs in every state and gives lane `D_PIX`. -/
def Obligations.ExtractCodeReadsOneLane : Prop :=
  ∀ (s : State) (cw : CodeWord) (p : PixIdx), ∃ k : Code,
    exec (.extractCode cw p) s = .next { s with ret := some (.code k) } ∧
    k = cw.extractLsb' (2 * p.toNat) 2 ∧ k.toNat = cw.toNat / 4 ^ p.toNat % 4

/-- R172: SELECT_INDEX runs in every state; the lower half exactly when `DV0 > DV1`, so equal endpoints take the upper. -/
def Obligations.SelectIndexComparesStrictly : Prop :=
  ∀ (s : State) (a b : Byte) (k : Code), ∃ (half : Bool) (idx : PalIdx),
    exec (.selectIndex a b k) s = .next { s with ret := some (.index half idx) } ∧
    (half = false ↔ b.toNat < a.toNat) ∧ idx.toNat = (if half then k.toNat + 4 else k.toNat)

/-- R173: PALETTE_LOOKUP runs in every state and gives the entry of the palette built with `flip = true`. -/
def Obligations.PaletteLookupUsesFlipTrue : Prop :=
  ∀ (s : State) (a b : Byte) (idx : PalIdx), ∃ v : Byte,
    exec (.paletteLookup a b idx) s = .next { s with ret := some (.pixel v) } ∧
    (idx = 0 → v = a) ∧ (idx = 1 → v = b) ∧ (idx = 2 → v.toNat = (2 * a.toNat + b.toNat) / 3) ∧
    (idx = 3 → v.toNat = (a.toNat + 2 * b.toNat) / 3) ∧ (idx = 4 → v = a) ∧ (idx = 5 → v = b) ∧
    (idx = 6 → v.toNat = (a.toNat + b.toNat) / 2) ∧ (idx = 7 → v = 0)

/-- R174 as a transaction on the DEC unit (R95, R177, R178), with accept and complete merged into one step (the model's
choice, assumption 8): it completes in every state with the pixel of the table, which the spec infers in R175 and which
depends on the two endpoints and the pixel's own lane alone, and changes the DEC unit's registers and nothing else. -/
def Obligations.DecodePixelGivesTheTable : Prop :=
  (∀ (cb cb' : CBlock) (p : PixIdx), cb[0] = cb'[0] → cb[1] = cb'[1] →
    (unpackCodeword cb).extractLsb' (2 * p.toNat) 2 = (unpackCodeword cb').extractLsb' (2 * p.toNat) 2 →
    decodePixel cb p = decodePixel cb' p) ∧
  ∀ (s : State) (cb : CBlock) (p : PixIdx), ∃ (u : DecUnit) (v : Byte),
    exec (.decodePixel cb p) s = .next { s with dec := u, ret := some (.pixel v) } ∧
    u.ph = .done ∧ u.cb = cb ∧ u.pix = p ∧ u.px = v ∧
    ∀ k : Code, k = (cb[2] ++ cb[3] ++ cb[4] ++ cb[5] : BitVec 32).extractLsb' (2 * p.toNat) 2 →
      (k = 0 → v = cb[0]) ∧ (k = 1 → v = cb[1]) ∧
      (cb[1].toNat < cb[0].toNat → k = 2 → v.toNat = (2 * cb[0].toNat + cb[1].toNat) / 3) ∧
      (cb[1].toNat < cb[0].toNat → k = 3 → v.toNat = (cb[0].toNat + 2 * cb[1].toNat) / 3) ∧
      (cb[0].toNat ≤ cb[1].toNat → k = 2 → v.toNat = (cb[0].toNat + cb[1].toNat) / 2) ∧
      (cb[0].toNat ≤ cb[1].toNat → k = 3 → v = 0)

/-- R176: DECODE_BLOCK16 runs in every state, hands back the sixteen pixels in row-major order and changes the DEC unit in
hand only. Pixel `i` is what the transaction `DEC` of that pixel hands back. R176 leaves the order and the number of units
free; that one step runs all sixteen on the unit in hand and ends it in DONE is the model's choice (assumptions 8 and 11). -/
def Obligations.DecodeBlock16GivesSixteenPixels : Prop :=
  ∀ (s : State) (cb : CBlock), ∃ (u : DecUnit) (q : Block),
    exec (.decodeBlock16 cb) s = .next { s with dec := u, ret := some (.block q) } ∧ u.ph = .done ∧
    ∀ i : Fin 16, ∃ t : State, exec (.decodePixel cb (BitVec.ofNat 4 i.val)) s = .next t ∧ t.ret = some (.pixel q[i])

/-- The round trip, an inference the spec marks as its own (R181): the decoder returns the candidate the encoder measured, at
the smallest distance over the active half. -/
def Obligations.DecodingReturnsTheMeasuredCandidate : Prop :=
  ∀ (blk : Block) (i : Fin 16), ∃ b : Fin 8,
    b.val = (if (encTransients blk).decr then 0 else 4) + (encTransients blk).codes[i].toNat ∧
    decodePixel (encodeBlock blk) (BitVec.ofNat 4 i.val) = (encTransients blk).pal[b] ∧
    distance blk[i].toNat (decodePixel (encodeBlock blk) (BitVec.ofNat 4 i.val)).toNat = (encTransients blk).res[i][b].toNat ∧
    ∀ c : Fin 8, (c.val < 4 ↔ (encTransients blk).decr = true) →
      (encTransients blk).res[i][b].toNat ≤ (encTransients blk).res[i][c].toNat

/-- R161 (b) and R162, inferences the spec marks as its own: a constant block encodes to its value twice and a zero word,
every pixel of which decodes to the value; a block that contains only 0 and 255 is reconstructed exactly, pixel for pixel. -/
def Obligations.ConstantAndTwoValuedBlocksAreExact : Prop :=
  (∀ v : Byte, encodeBlock (constBlock v) = #v[v, v, 0, 0, 0, 0] ∧ ∀ p : PixIdx, decodePixel #v[v, v, 0, 0, 0, 0] p = v) ∧
  ∀ blk : Block, (∀ i : Fin 16, blk[i] = 0 ∨ blk[i] = 255) →
    ∀ i : Fin 16, decodePixel (encodeBlock blk) (BitVec.ofNat 4 i.val) = blk[i]

/-- What the encoder never produces, an inference the spec marks as its own (R93): equal endpoints with a word other than 0,
increasing order with a code 3, an order of the endpoints other than the chosen one. -/
def Obligations.EncoderNeverProducesTheseBlocks : Prop :=
  ∀ blk : Block,
    ((encodeBlock blk)[0] = (encodeBlock blk)[1] → unpackCodeword (encodeBlock blk) = 0) ∧
    ((encodeBlock blk)[0].toNat < (encodeBlock blk)[1].toNat →
      ∀ i : Fin 16, (unpackCodeword (encodeBlock blk)).extractLsb' (2 * i.val) 2 ≠ 3) ∧
    ((encodeBlock blk)[1].toNat < (encodeBlock blk)[0].toNat → (encTransients blk).decr = true) ∧
    ((encodeBlock blk)[0].toNat < (encodeBlock blk)[1].toNat → (encTransients blk).decr = false)

/-- R161 (a), (c), (d), inferences the spec marks as its own: the order of the endpoints, no code 3 in the increasing order,
residual 0 for the extremes. -/
def Obligations.EncoderOutputInvariants : Prop :=
  ∀ blk : Block,
    ((encTransients blk).decr = true → (encodeBlock blk)[1].toNat ≤ (encodeBlock blk)[0].toNat) ∧
    ((encTransients blk).decr = false → (encodeBlock blk)[0].toNat ≤ (encodeBlock blk)[1].toNat) ∧
    ((encTransients blk).decr = false → ∀ i : Fin 16, (encTransients blk).codes[i] ≠ 3) ∧
    ∀ i : Fin 16, blk[i] = blockMax blk ∨ blk[i] = blockMin blk →
      decodePixel (encodeBlock blk) (BitVec.ofNat 4 i.val) = blk[i]

/-- R191: before any access, ENCODE_IMAGE with a dimension that is not a positive multiple of 4 raises InvalidDimensions with
both dimensions, whatever the length of IMG, and changes no buffer, no unit and no dimension; with good dimensions and an IMG
of another length the call has no meaning and is refused. -/
def Obligations.EncodeImageChecksFirst : Prop :=
  ∀ s : State,
    (¬ (PositiveMultipleOf4 s.width ∧ PositiveMultipleOf4 s.height) →
      exec .encodeImage s = .next { s with outcome := some (.invalidDimensions s.width s.height none), ret := none }) ∧
    (PositiveMultipleOf4 s.width ∧ PositiveMultipleOf4 s.height → s.img.size ≠ s.width * s.height →
      exec .encodeImage s = .refused .imageLength)

/-- R192 to R194: ENCODE_IMAGE with good dimensions and an IMG of the right length succeeds; the output is exactly the six
bytes of every block at its place, and nothing else changes but CMP, the ENC unit and the outcome. That the whole procedure is
one step, and that it runs on the ENC unit in hand alone and ends it in DONE (R200 leaves the number of units free), is the
model's choice (assumptions 12 and 11). -/
def Obligations.EncodeImageWritesEveryBlock : Prop :=
  ∀ s : State, PositiveMultipleOf4 s.width → PositiveMultipleOf4 s.height → s.img.size = s.width * s.height →
    ∃ (u : EncUnit) (m : Memory), u.ph = .done ∧
      exec .encodeImage s = .next { s with enc := u, cmp := m, outcome := some .success, ret := none } ∧
      m.size = s.width / 4 * (s.height / 4) * 6 ∧ m.wf = true ∧
      (∀ i j : Nat, i < s.width / 4 → j < s.height / 4 → ∀ k : Fin 6,
        m.readByte (6 * (j * (s.width / 4) + i) + k.val) = some (encodeBlock (blockOf s.img s.width i j))[k])

/-- R195: DECODE_IMAGE raises InvalidDimensions, the dimension cause first whatever the length of CMP, then the length cause;
nothing but the outcome changes. A CMP of at least the needed length is accepted, and the bytes beyond do not matter. -/
def Obligations.DecodeImageRejectsInOrder : Prop :=
  ∀ s : State,
    (¬ (PositiveMultipleOf4 s.width ∧ PositiveMultipleOf4 s.height) →
      exec .decodeImage s = .next { s with outcome := some (.invalidDimensions s.width s.height none), ret := none }) ∧
    (PositiveMultipleOf4 s.width ∧ PositiveMultipleOf4 s.height → s.cmp.size < s.width / 4 * (s.height / 4) * 6 →
      exec .decodeImage s =
        .next { s with outcome := some (.invalidDimensions s.width s.height (some s.cmp.size)), ret := none }) ∧
    (PositiveMultipleOf4 s.width ∧ PositiveMultipleOf4 s.height → s.width / 4 * (s.height / 4) * 6 ≤ s.cmp.size →
      ∃ t : State, exec .decodeImage s = .next t ∧ t.outcome = some .success ∧
        ∀ cmp : Memory, s.width / 4 * (s.height / 4) * 6 ≤ cmp.size →
          (∀ a : Nat, a < s.width / 4 * (s.height / 4) * 6 → cmp.readByte a = s.cmp.readByte a) →
          ∃ t' : State, exec .decodeImage { s with cmp := cmp } = .next t' ∧ t'.img = t.img)

/-- R196: DECODE_IMAGE with good dimensions and a CMP that is long enough succeeds; the output is exactly one decoded pixel at
every place, and nothing else changes but IMG, the DEC unit and the outcome. That the whole procedure is one step, and that it
runs on the DEC unit in hand alone and ends it in DONE (R200 leaves the number of units free), is the model's choice
(assumptions 12 and 11). -/
def Obligations.DecodeImageWritesEveryPixel : Prop :=
  ∀ s : State, PositiveMultipleOf4 s.width → PositiveMultipleOf4 s.height →
    s.width / 4 * (s.height / 4) * 6 ≤ s.cmp.size →
    ∃ (u : DecUnit) (m : Memory), u.ph = .done ∧
      exec .decodeImage s = .next { s with dec := u, img := m, outcome := some .success, ret := none } ∧
      m.size = s.width * s.height ∧ m.wf = true ∧
      (∀ x y : Nat, x < s.width → y < s.height →
        m.readByte (y * s.width + x) =
          some (decodePixel (cblockOf s.cmp (y / 4 * (s.width / 4) + x / 4)) (BitVec.ofNat 4 (y % 4 * 4 + x % 4))))

/-- The lengths of R198, of the compressed and of the decoded image, and over a whole image the round trip that the spec
infers in R181: encoding and then decoding gives an image of the same size in which every pixel is the reconstruction of its
pixel of its block. -/
def Obligations.EncodeThenDecodeReconstructsTheImage : Prop :=
  ∀ s : State, PositiveMultipleOf4 s.width → PositiveMultipleOf4 s.height → s.img.size = s.width * s.height →
    ∃ t t' : State, exec .encodeImage s = .next t ∧ exec .decodeImage t = .next t' ∧
      t.cmp.size = s.width / 4 * (s.height / 4) * 6 ∧ t'.outcome = some .success ∧ t'.img.size = s.width * s.height ∧
      ∀ x y : Nat, x < s.width → y < s.height →
        t'.img.readByte (y * s.width + x) =
          some (decodePixel (encodeBlock (blockOf s.img s.width (x / 4) (y / 4))) (BitVec.ofNat 4 (y % 4 * 4 + x % 4)))

/-- R200 on one unit of each kind: the blocks of ENCODE_IMAGE and the pixels of DECODE_IMAGE may be processed in any order,
the output buffer is the same, byte for byte (the model's own order is assumption 11). Work spread over several units:
`CallsRunSideBySide`. -/
def Obligations.OrderOfWorkDoesNotMatter : Prop :=
  ∀ s : State, PositiveMultipleOf4 s.width → PositiveMultipleOf4 s.height →
    (∀ origins : List (Nat × Nat), origins.Perm (blockOrigins s.width s.height) → s.img.size = s.width * s.height →
      ∃ t t' : State, encodeInOrder origins s = some t ∧ encodeInOrder (blockOrigins s.width s.height) s = some t' ∧
        t.cmp = t'.cmp ∧ t.img = s.img) ∧
    (∀ pixels : List (Nat × Nat), pixels.Perm (pixelOrder s.width s.height) →
      s.width / 4 * (s.height / 4) * 6 ≤ s.cmp.size →
      ∃ t t' : State, decodeInOrder pixels s = some t ∧ decodeInOrder (pixelOrder s.width s.height) s = some t' ∧
        t.img = t'.img ∧ t.cmp = s.cmp)

/-- R240: an edge with `rst = 1` puts the unit into IDLE, ready and not done, whatever its phase and whatever the request
inputs are; nothing is promised of its data registers; the other unit, every other instance, the buffers and the dimensions
are untouched. RST is such an edge. -/
def Obligations.ResetMakesTheUnitIdle : Prop :=
  ∀ s : State,
    (∃ u : EncUnit, exec (.rst .enc) s = .next { s with enc := u, ret := none } ∧ u.ph = .idle) ∧
    (∃ u : DecUnit, exec (.rst .dec) s = .next { s with dec := u, ret := none } ∧ u.ph = .idle) ∧
    (∀ (p : EncPorts) (rest : List Action), s.script = .encEdge p :: rest → p.rst = true →
      ∃ u : EncUnit, step s = .next { s with enc := u, script := rest, ret := none } ∧
        u.ph.ready = true ∧ u.ph.finished = false) ∧
    ∀ (p : DecPorts) (rest : List Action), s.script = .decEdge p :: rest → p.rst = true →
      ∃ u : DecUnit, step s = .next { s with dec := u, script := rest, ret := none } ∧
        u.ph.ready = true ∧ u.ph.finished = false

/-- R241: after a reset no result of the abandoned operation appears: with nothing asked of the units, `e_done` and `d_done`
stay 0 for any number of edges; the same request presented again gives the result it would have given. -/
def Obligations.ResetAbandonsTheOperation : Prop :=
  ∀ (s t : State) (which : UnitSel), s.script = [] → exec (.rst which) s = .next t →
    (∀ n : Nat, ∃ r : State, Sys2Proof.core.run n t = .next r ∧
      (which = .enc → r.enc.ph.finished = false) ∧ (which = .dec → r.dec.ph.finished = false)) ∧
    (∀ blk : Block, ∃ r r' : State, exec (.encodeBlock blk) t = .next r ∧ exec (.encodeBlock blk) s = .next r' ∧
      r.ret = r'.ret ∧ r.enc.cb = r'.enc.cb) ∧
    ∀ (cb : CBlock) (p : PixIdx), ∃ r r' : State, exec (.decodePixel cb p) t = .next r ∧
      exec (.decodePixel cb p) s = .next r' ∧ r.ret = r'.ret ∧ r.dec.px = r'.dec.px

/-- R157: one edge of ENC's clock without reset. A request in IDLE or DONE is accepted: `BLK` is the port and the phase BUSY,
and nothing is promised of `E_CB`. In BUSY a request is ignored (the edge does what it does without one): the operand stays,
and the unit stays BUSY or completes with the result of its operand. Without a request a unit at rest keeps everything. -/
def Obligations.EncAcceptsAndCompletes : Prop :=
  ∀ (s : State) (p : EncPorts) (rest : List Action), s.script = .encEdge p :: rest → p.rst = false →
    ∃ u : EncUnit, step s = .next { s with enc := u, script := rest, ret := none } ∧
      (p.start = true → s.enc.ph ≠ .busy →
        (∀ i : Fin 16, u.blk[i] = p.blk.extractLsb' (8 * i.val) 8) ∧ u.ph = .busy) ∧
      (s.enc.ph = .busy →
        u.blk = s.enc.blk ∧ u = encEdge { p with start := false } s.enc ∧
        (u.ph = .busy ∨ (u.ph = .done ∧ u.cb = encodeBlock s.enc.blk))) ∧
      (p.start = false → s.enc.ph ≠ .busy → u = s.enc)

/-- R177: the same of DEC. -/
def Obligations.DecAcceptsAndCompletes : Prop :=
  ∀ (s : State) (p : DecPorts) (rest : List Action), s.script = .decEdge p :: rest → p.rst = false →
    ∃ u : DecUnit, step s = .next { s with dec := u, script := rest, ret := none } ∧
      (p.start = true → s.dec.ph ≠ .busy →
        (∀ k : Fin 6, u.cb[k] = p.cb.extractLsb' (40 - 8 * k.val) 8) ∧ u.pix = p.pix ∧ u.ph = .busy) ∧
      (s.dec.ph = .busy →
        u.cb = s.dec.cb ∧ u.pix = s.dec.pix ∧ u = decEdge { p with start := false } s.dec ∧
        (u.ph = .busy ∨ (u.ph = .done ∧ u.px = decodePixel s.dec.cb s.dec.pix))) ∧
      (p.start = false → s.dec.ph ≠ .busy → u = s.dec)

/-- R23, R27: the status word of each phase, which never is 0b10 and which a status read hands back without changing anything
else; a result read, which changes no unit; the phase after reset; and every transition: to BUSY from IDLE or DONE by an
accepted request, to DONE from BUSY, to IDLE by reset. Instructions and the host's other actions:
`InstructionsChangeOnlyTheirOwnState`. -/
def Obligations.PhasesChangeOnlyAsTheRulesSay : Prop :=
  Phase.stat .idle = 0b01#2 ∧ Phase.stat .busy = 0b00#2 ∧ Phase.stat .done = 0b11#2 ∧
  (∀ ph : Phase, ph.stat ≠ 0b10#2) ∧ State.reset.enc.ph = .idle ∧ State.reset.dec.ph = .idle ∧
  (∀ (s : State) (rest : List Action), s.script = .readStatus .enc :: rest →
    step s = .next { s with script := rest, ret := some (.status s.enc.ph.stat) }) ∧
  (∀ (s : State) (rest : List Action), s.script = .readStatus .dec :: rest →
    step s = .next { s with script := rest, ret := some (.status s.dec.ph.stat) }) ∧
  (∀ (s t : State) (which : UnitSel) (rest : List Action), s.script = .readResult which :: rest → step s = .next t →
    t.enc = s.enc ∧ t.dec = s.dec ∧ t.encPool = s.encPool ∧ t.decPool = s.decPool) ∧
  (∀ (p : EncPorts) (u : EncUnit),
    (p.rst = true → (encEdge p u).ph = .idle) ∧
    ((encEdge p u).ph ≠ u.ph → p.rst = false →
      ((encEdge p u).ph = .busy ∧ p.start = true ∧ u.ph ≠ .busy) ∨ ((encEdge p u).ph = .done ∧ u.ph = .busy))) ∧
  ∀ (p : DecPorts) (u : DecUnit),
    (p.rst = true → (decEdge p u).ph = .idle) ∧
    ((decEdge p u).ph ≠ u.ph → p.rst = false →
      ((decEdge p u).ph = .busy ∧ p.start = true ∧ u.ph ≠ .busy) ∨ ((decEdge p u).ph = .done ∧ u.ph = .busy))

/-- R159, R179, R245: a result read in DONE hands back the port value and changes nothing else, so it may be repeated; an edge
without request and reset leaves it as it is; in IDLE and BUSY the read is refused. R245 lets a model refuse or fault there,
and that this one refuses is its choice (assumption 14). -/
def Obligations.ResultsAreReadInDoneOnly : Prop :=
  ∀ (s : State) (rest : List Action),
    (s.script = .readResult .enc :: rest →
      (s.enc.ph = .done → step s = .next { s with script := rest, ret := some (.eCbPort
        (s.enc.cb[0] ++ s.enc.cb[1] ++ s.enc.cb[2] ++ s.enc.cb[3] ++ s.enc.cb[4] ++ s.enc.cb[5])) }) ∧
      (s.enc.ph ≠ .done → step s = .refused .resultNotValid)) ∧
    (s.script = .readResult .dec :: rest →
      (s.dec.ph = .done → step s = .next { s with script := rest, ret := some (.dPxPort s.dec.px) }) ∧
      (s.dec.ph ≠ .done → step s = .refused .resultNotValid)) ∧
    (∀ p : EncPorts, p.rst = false → p.start = false → s.enc.ph = .done → encEdge p s.enc = s.enc) ∧
    ∀ p : DecPorts, p.rst = false → p.start = false → s.dec.ph = .done → decEdge p s.dec = s.dec

/-- "two levels that must agree" (R11): presenting a block at ENC's port in one edge and then asking nothing leaves the unit
BUSY after each of `ENC_LATENCY` edges and, at the next, in exactly the state that ENCODE_BLOCK gives it in one step. The
latency is a free value (assumption 3), the merged step the model's choice (assumption 8). A request while BUSY is ignored,
which `EncAcceptsAndCompletes` says. -/
def Obligations.EncodeBlockIsItsClockEdges : Prop :=
  ∀ (s : State) (blk : Block), s.enc.ph ≠ .busy → s.script = [.encEdge { rst := false, start := true, blk := portOfBlock blk }] →
    ∃ n : Nat, n = Config.encLatencyExtra s.enc.tag (s.enc.seq + 1) + 1 ∧
      (∀ k : Nat, 0 < k → k ≤ n → ∃ t : State, Sys2Proof.core.run k s = .next t ∧ t.enc.ph = .busy ∧ t.enc.blk = blk) ∧
      ∃ t t' : State, Sys2Proof.core.run (n + 1) s = .next t ∧ exec (.encodeBlock blk) s = .next t' ∧ t.enc = t'.enc

/-- The same of DEC (R11, assumptions 3 and 8). A request while BUSY is ignored, which `DecAcceptsAndCompletes` says. -/
def Obligations.DecodePixelIsItsClockEdges : Prop :=
  ∀ (s : State) (cb : CBlock) (p : PixIdx), s.dec.ph ≠ .busy →
    s.script = [.decEdge { rst := false, start := true, cb := portOfCblock cb, pix := p }] →
    ∃ n : Nat, n = Config.decLatencyExtra s.dec.tag (s.dec.seq + 1) + 1 ∧
      (∀ k : Nat, 0 < k → k ≤ n → ∃ t : State, Sys2Proof.core.run k s = .next t ∧ t.dec.ph = .busy ∧ t.dec.cb = cb ∧
        t.dec.pix = p) ∧
      ∃ t t' : State, Sys2Proof.core.run (n + 1) s = .next t ∧ exec (.decodePixel cb p) s = .next t' ∧ t.dec = t'.dec

/-- R250, R158, R178: with nothing asked, every unit of the platform comes to rest after finitely many edges, a BUSY unit in
hand within its latency and with its own result. The latencies are free values (assumption 3). -/
def Obligations.EveryAcceptedRequestCompletes : Prop :=
  ∀ s : State, s.script = [] →
    (∃ (n : Nat) (t : State), Sys2Proof.core.run n s = .next t ∧ t.Quiescent) ∧
    (s.enc.ph = .busy → ∃ (n : Nat) (t : State), n ≤ encLatency s.enc ∧ Sys2Proof.core.run n s = .next t ∧
      t.enc.ph = .done ∧ t.enc.cb = encodeBlock s.enc.blk) ∧
    (s.dec.ph = .busy → ∃ (n : Nat) (t : State), n ≤ decLatency s.dec ∧ Sys2Proof.core.run n s = .next t ∧
      t.dec.ph = .done ∧ t.dec.px = decodePixel s.dec.cb s.dec.pix)

/-- A step runs the decoded request: when the next action presents bytes that decode to an instruction, the step is `exec` of
that instruction on the state without that action, and nothing is added around it. A word of the opcode table placed by
`withFetchWord` is such a request. The script of actions is the model's own (assumption 4). -/
def Obligations.StepRunsTheDecodedRequest : Prop :=
  (∀ (s : State) (port : Port) (bytes : List Byte) (rest : List Action) (i : Instr),
    s.script = .request port bytes :: rest → decode port bytes = .ok i → step s = exec i { s with script := rest }) ∧
  (∀ (s : State) (i : Instr) (rest : List Action), s.script = .line i :: rest → i.wf = true →
    step s = exec i { s with script := rest }) ∧
  ∀ (s : State) (nbits w : Nat) (i : Instr), decodeTableWord nbits w = some i → step (s.withFetchWord nbits w) = exec i s

/-- The invariant of the machine holds of every platform right after reset (R36). -/
def Obligations.ResetMeetsTheInvariant : Prop := ∀ nEnc nDec : Nat, (State.platform nEnc nDec).Inv

/-- Every step keeps the invariant of the machine, from every state that meets it: the buffers stay canonical, a unit in DONE
holds the result of its operands (R23, R27), a BUSY unit has its complete step ahead (R158, R178), no procedure reports an
error of the collaborators (R212, R213), and every call under way has the right bytes for all the work it has done (R250). -/
def Obligations.EveryStepKeepsTheInvariant : Prop :=
  ∀ s t : State, s.Inv → step s = .next t → t.Inv

/-- R36: right after reset every unit of a platform is IDLE, ready and not done. State.platform, and that State.reset has one
unit of each kind, are the model's choice (assumption 5). -/
def Obligations.AfterResetEveryUnitIsIdle : Prop :=
  ∀ nEnc nDec : Nat,
    (∀ u ∈ (State.platform nEnc nDec).enc :: (State.platform nEnc nDec).encPool,
      u.ph = .idle ∧ u.ph.ready = true ∧ u.ph.finished = false) ∧
    (∀ u ∈ (State.platform nEnc nDec).dec :: (State.platform nEnc nDec).decPool,
      u.ph = .idle ∧ u.ph.ready = true ∧ u.ph.finished = false) ∧
    State.reset = State.platform 1 1

/-- R9, R20: "ENC and DEC share no state". A run of actions on ENC leaves DEC, the other units, the host's buffers and the
calls under way as they were, and what it makes of ENC depends on ENC alone; and the same of DEC. -/
def Obligations.UnitWorkIsIndependentOfTheRest : Prop :=
  (∀ (n : Nat) (s t : State), n ≤ s.script.length → (∀ a ∈ s.script, encOnly a = true) →
    Sys2Proof.core.run n s = .next t →
    t.dec = s.dec ∧ t.decPool = s.decPool ∧ t.encPool = s.encPool ∧ t.img = s.img ∧ t.cmp = s.cmp ∧ t.calls = s.calls ∧
    ∀ s' : State, s'.enc = s.enc → s'.script = s.script →
      ∃ t' : State, Sys2Proof.core.run n s' = .next t' ∧ t'.enc = t.enc) ∧
  ∀ (n : Nat) (s t : State), n ≤ s.script.length → (∀ a ∈ s.script, decOnly a = true) →
    Sys2Proof.core.run n s = .next t →
    t.enc = s.enc ∧ t.encPool = s.encPool ∧ t.decPool = s.decPool ∧ t.img = s.img ∧ t.cmp = s.cmp ∧ t.calls = s.calls ∧
    ∀ s' : State, s'.dec = s.dec → s'.script = s.script →
      ∃ t' : State, Sys2Proof.core.run n s' = .next t' ∧ t'.dec = t.dec

/-- The frame of every instruction and of every action that gives no unit an edge (R21 to R27 on who writes a register and who
moves a phase, R51, R52, R61, R217): which of them may change which part of the state. An instruction that changes a unit has
carried a request through to DONE, or is the unit's reset. The actions, the merged transactions and the calls are the model's
own (assumptions 4, 8 and 22). -/
def Obligations.InstructionsChangeOnlyTheirOwnState : Prop :=
  (∀ (i : Instr) (s t : State), exec i s = .next t →
    t.encPool = s.encPool ∧ t.decPool = s.decPool ∧ t.width = s.width ∧ t.height = s.height ∧ t.script = s.script ∧
    t.calls = s.calls ∧
    (drivesEnc i = false → t.enc = s.enc) ∧ (drivesDec i = false → t.dec = s.dec) ∧
    (t.enc = s.enc ∨ t.enc.ph = .done ∨ (i = .rst .enc ∧ t.enc.ph = .idle)) ∧
    (t.dec = s.dec ∨ t.dec.ph = .done ∨ (i = .rst .dec ∧ t.dec.ph = .idle)) ∧
    (i ≠ .encodeImage → ∀ a : Nat, t.cmp.readByte a = s.cmp.readByte a) ∧
    (i ≠ .decodeImage → ∀ a : Nat, t.img.readByte a = s.img.readByte a) ∧
    (i ≠ .encodeImage → i ≠ .decodeImage → t.outcome = s.outcome)) ∧
  ∀ (s t : State) (a : Action) (rest : List Action), s.script = a :: rest → touchesNoUnit a = true → step s = .next t →
    t.enc = s.enc ∧ t.dec = s.dec ∧ t.encPool = s.encPool ∧ t.decPool = s.decPool

/-- R92, R199, R214: no instruction faults; every instruction but ENCODE_IMAGE answers a next state in every state, and
ENCODE_IMAGE does too unless the length of IMG is not that of its dimensions. In particular no procedure reads or writes
outside a buffer. -/
def Obligations.EveryInstructionRuns : Prop :=
  ∀ (i : Instr) (s : State), (i = .encodeImage → s.img.size = s.width * s.height) → ∃ t : State, exec i s = .next t

/-- Decoding what the encoder writes gives the instruction back, for every instruction that has an encoding, at every operand
(R81, R82, R85, R86; the bytes that carry the operands of PAL0 to PAL7 are the model's choice, assumption 7). -/
def Obligations.DecodeOfEncodeIsTheInstruction : Prop :=
  ∀ (i : Instr) (port : Port) (bytes : List Byte), encode i = some (port, bytes) → decode port bytes = .ok i

/-- Each request word has one meaning: what decodes to an instruction is that instruction's encoding (assumption 7 as before).
-/
def Obligations.EncodeOfDecodeIsTheWord : Prop :=
  ∀ (i : Instr) (port : Port) (bytes : List Byte), decode port bytes = .ok i → encode i = some (port, bytes)

/-- "There is no illegal and no reserved encoding", an inference the spec marks as its own (R92, from the totality of every
stage): every 128-bit value is a legal ENC request and every 52-bit value a legal DEC request, with the fields of R34, R35 and
R86, and the operation answers it in every state. -/
def Obligations.EveryRequestWordIsLegal : Prop :=
  (∀ w : BitVec 128, decodeTableWord 128 w.toNat = some (.encodeBlock (blockOfPort w))) ∧
  (∀ w : BitVec 52, decodeTableWord 52 w.toNat =
    some (.decodePixel (cblockOfPort (w.extractLsb' 0 48)) (w.extractLsb' 48 4))) ∧
  ∀ s : State, (∀ blk : Block, ∃ t : State, exec (.encodeBlock blk) s = .next t) ∧
    ∀ (cb : CBlock) (p : PixIdx), ∃ t : State, exec (.decodePixel cb p) s = .next t

/-- R34, R35, R81: putting the bytes on a port and taking them off it are inverse, in both directions. -/
def Obligations.PortsCarryTheBytes : Prop :=
  (∀ b : Block, blockOfPort (portOfBlock b) = b) ∧ (∀ w : BitVec 128, portOfBlock (blockOfPort w) = w) ∧
  (∀ cb : CBlock, cblockOfPort (portOfCblock cb) = cb) ∧ ∀ w : BitVec 48, portOfCblock (cblockOfPort w) = w

/-- R34, R35, R86, R91: request words written out from the rules decode to what they stand for. The operand bytes of a palette
index word, and that a larger number is no index word, are the model's choice (assumption 7). -/
def Obligations.SpecWordsDecode : Prop :=
  decodeTableWord 128 0xC8BEB4AAA0968C82786E645A50463C32 =
    some (.encodeBlock #v[50, 60, 70, 80, 90, 100, 110, 120, 130, 140, 150, 160, 170, 180, 190, 200]) ∧
  decodeTableWord 52 0x500FF11441144 = some (.decodePixel #v[0x00, 0xFF, 0x11, 0x44, 0x11, 0x44] 5) ∧
  decodeTableWord 52 0xFC83202AAFFD5 = some (.decodePixel #v[0xC8, 0x32, 0x02, 0xAA, 0xFF, 0xD5] 15) ∧
  decodeTableWord 3 0b000 = some (.pal0 0 0 false) ∧ decodeTableWord 3 0b001 = some (.pal1 0 0 false) ∧
  decodeTableWord 3 0b010 = some (.pal2 0 0 false) ∧ decodeTableWord 3 0b011 = some (.pal3 0 0 false) ∧
  decodeTableWord 3 0b100 = some (.pal4 0 0 false) ∧ decodeTableWord 3 0b101 = some (.pal5 0 0 false) ∧
  decodeTableWord 3 0b110 = some (.pal6 0 0 false) ∧ decodeTableWord 3 0b111 = some (.pal7 0 0 false) ∧
  decodeTableWord 8 0b1000 = none

/-- R54, R90: the address of a pixel, its block and its index in the block. The block's sixteen pixels have its index, and
pixel `k` of the block with origin `(4*i, 4*j)` has pixel index `k`. That every address lies inside its buffer, and in which
byte of a block a pixel's code lies (`5 - (y mod 4)`), are the spec's inferences (R56, R197). -/
def Obligations.AddressesAndIndicesAgree : Prop :=
  (∀ width x y : Nat, pixelAddr width x y = y * width + x ∧ blockIndex width x y = y / 4 * (width / 4) + x / 4 ∧
    (pixelIndex x y).toNat = y % 4 * 4 + x % 4 ∧ (pixelIndex x y).extractLsb' 2 2 = BitVec.ofNat 2 y ∧
    (pixelIndex x y).extractLsb' 0 2 = BitVec.ofNat 2 x) ∧
  (∀ width height x y : Nat, PositiveMultipleOf4 width → PositiveMultipleOf4 height → x < width → y < height →
    blockIndex width x y < blockCount width height ∧ pixelAddr width x y < width * height ∧
    6 * blockIndex width x y + 5 < compressedLength width height) ∧
  (∀ width i j k : Nat, i < width / 4 → k < 16 →
    blockIndex width (4 * i + k % 4) (4 * j + k / 4) = j * (width / 4) + i ∧
    (pixelIndex (4 * i + k % 4) (4 * j + k / 4)).toNat = k) ∧
  ∀ (cb : CBlock) (x y : Nat),
    lane (unpackCodeword cb) (pixelIndex x y) = (cb[5 - y % 4]'(by omega)).extractLsb' (2 * (x % 4)) 2

/-- The instances of a kind share no state (R221): turning to another one, the model's own action (assumption 5), exchanges
the two and touches nothing else. -/
def Obligations.TurningToAnotherUnitExchangesTheTwo : Prop :=
  ∀ (s : State) (k : Nat) (rest : List Action),
    (∀ u : EncUnit, s.script = .turnTo .enc k :: rest → s.encPool[k]? = some u →
      step s = .next { s with enc := u, encPool := s.encPool.set k s.enc, script := rest, ret := none }) ∧
    (∀ u : DecUnit, s.script = .turnTo .dec k :: rest → s.decPool[k]? = some u →
      step s = .next { s with dec := u, decPool := s.decPool.set k s.dec, script := rest, ret := none })

/-- `MemRead` and `MemWrite` of R7 and the host's other actions on its variables (R33): a write stores its bytes and no other,
a read gives them back, a supplied buffer holds the bytes supplied, and dimensions are as set; the step of each changes that
one thing and nothing else. An access past a buffer's end faults, which is the model's choice (assumption 6). -/
def Obligations.BuffersKeepTheBytesStored : Prop :=
  (∀ (m m' : Memory) (a : Nat) (bs : List Byte), m.wf = true → m.write a bs = some m' →
    m'.wf = true ∧ m'.size = m.size ∧ m'.read a bs.length = some bs ∧
    ∀ x : Nat, x < a ∨ a + bs.length ≤ x → m'.readByte x = m.readByte x) ∧
  (∀ bs : List Byte, (Memory.ofBytes bs).read 0 bs.length = some bs ∧ (Memory.ofBytes bs).wf = true) ∧
  (∀ (s : State) (rest : List Action) (b : Buf) (a n : Nat), s.script = .memRead b a n :: rest →
    (a + n ≤ (s.buffer b).size → ∃ bs : List Byte, bs.length = n ∧
      (∀ k : Nat, k < n → bs[k]? = (s.buffer b).readByte (a + k)) ∧
      step s = .next { s with script := rest, ret := some (.bytes bs) }) ∧
    (0 < n → (s.buffer b).size < a + n → step s = .fault .outsideBuffer)) ∧
  (∀ (s : State) (rest : List Action) (b : Buf) (a : Nat) (bs : List Byte), s.script = .memWrite b a bs :: rest →
    (a + bs.length ≤ (s.buffer b).size → ∃ m : Memory, (s.buffer b).write a bs = some m ∧
      (b = .img → step s = .next { s with img := m, script := rest, ret := none }) ∧
      (b = .cmp → step s = .next { s with cmp := m, script := rest, ret := none })) ∧
    (bs ≠ [] → (s.buffer b).size < a + bs.length → step s = .fault .outsideBuffer)) ∧
  (∀ (s : State) (rest : List Action) (bs : List Byte),
    (s.script = .supply .img bs :: rest → step s = .next { s with img := Memory.ofBytes bs, script := rest, ret := none }) ∧
    (s.script = .supply .cmp bs :: rest → step s = .next { s with cmp := Memory.ofBytes bs, script := rest, ret := none })) ∧
  ∀ (s : State) (rest : List Action) (w h : Nat), s.script = .setDims w h :: rest →
    step s = .next { s with width := w, height := h, script := rest, ret := none }

/-- R247: "Two procedures may run at the same time on disjoint buffers with no interaction". A piece of work of a call under
way that is still to do runs; it changes that call, the unit of its kind in hand and nothing else, it leaves the call's input
as it was, and what it makes of the call depends on the call alone: not on the other calls, on which unit is in hand, or on
what happened before. So any interleaving, on any units, gives each call the same bytes (R62, R200). The actions are the
model's own (assumption 22), and the invariant says that the call began by its checks. -/
def Obligations.CallsRunSideBySide : Prop :=
  ∀ (s : State) (n : Nat) (piece : Nat × Nat) (rest : List Action) (c : Call), s.Inv →
    s.script = .workOn n piece :: rest → s.calls[n]? = some c → piece ∈ c.todo →
    ∃ (c' : Call) (u : EncUnit) (v : DecUnit),
      step s = .next { s with enc := u, dec := v, calls := s.calls.set n c', script := rest, ret := none } ∧
      (c.proc = .encodeImage → u.ph = .done ∧ v = s.dec ∧ c'.img = c.img) ∧
      (c.proc = .decodeImage → v.ph = .done ∧ u = s.enc ∧ c'.cmp = c.cmp) ∧
      c'.proc = c.proc ∧ c'.width = c.width ∧ c'.height = c.height ∧ c'.todo = c.todo.erase piece ∧
      ∀ (s' : State) (n' : Nat) (rest' : List Action), s'.script = .workOn n' piece :: rest' → s'.calls[n']? = some c →
        ∃ t' : State, step s' = .next t' ∧ t'.calls = s'.calls.set n' c'

/-- R247, R250: a call begins by the checks of its procedure, with their errors, and takes the host's input and dimensions as
they are then; when all its work is done, in whatever order and beside whatever else, it ends with success and returns the
bytes that the procedure in one step gives on the same input. Beginning and ending are the model's own actions (assumption
22). -/
def Obligations.CallsReturnTheProceduresBytes : Prop :=
  (∀ (s : State) (p : Proc) (rest : List Action), s.script = .beginCall p :: rest →
    (PositiveMultipleOf4 s.width ∧ PositiveMultipleOf4 s.height ∧ (p = .encodeImage → s.img.size = s.width * s.height) ∧
        (p = .decodeImage → s.width / 4 * (s.height / 4) * 6 ≤ s.cmp.size) →
      ∃ c : Call, step s = .next { s with calls := s.calls ++ [c], script := rest, ret := none } ∧
        c.proc = p ∧ c.width = s.width ∧ c.height = s.height ∧
        (p = .encodeImage → c.img = s.img ∧ c.todo = blockOrigins s.width s.height) ∧
        (p = .decodeImage → c.cmp = s.cmp ∧ c.todo = pixelOrder s.width s.height)) ∧
    (¬ (PositiveMultipleOf4 s.width ∧ PositiveMultipleOf4 s.height ∧ (p = .encodeImage → s.img.size = s.width * s.height) ∧
        (p = .decodeImage → s.width / 4 * (s.height / 4) * 6 ≤ s.cmp.size)) →
      step s = exec p.instr { s with script := rest })) ∧
  ∀ (s : State) (n : Nat) (rest : List Action) (c : Call), s.Inv → s.script = .endCall n :: rest →
    s.calls[n]? = some c → c.todo = [] →
    ∃ (bs : List Byte) (t : State),
      step s = .next { s with calls := s.calls.eraseIdx n, outcome := some .success, ret := some (.bytes bs), script := rest } ∧
      exec c.proc.instr (c.lend s) = .next t ∧ t.outcome = some .success ∧
      (c.proc = .encodeImage → t.cmp = Memory.ofBytes bs) ∧ (c.proc = .decodeImage → t.img = Memory.ofBytes bs)
end

