-- ==== Sys2Proof/Laws/State.lean ====
section
/-!
SUPPORT. One lemma per field per update of a unit or of the state, each true by rfl.
-/

namespace Sys2Proof.Machine

@[simp] theorem encAccept_tag (blk : Block) (u : EncUnit) : (encAccept blk u).tag = u.tag := rfl
@[simp] theorem encAccept_seq (blk : Block) (u : EncUnit) : (encAccept blk u).seq = u.seq + 1 := rfl
@[simp] theorem encAccept_age (blk : Block) (u : EncUnit) : (encAccept blk u).age = 0 := rfl
@[simp] theorem encAccept_blk (blk : Block) (u : EncUnit) : (encAccept blk u).blk = blk := rfl
@[simp] theorem encAccept_cb (blk : Block) (u : EncUnit) : (encAccept blk u).cb = Config.freeECb u.tag (u.seq + 1) := rfl
@[simp] theorem encAccept_ph (blk : Block) (u : EncUnit) : (encAccept blk u).ph = .busy := rfl

@[simp] theorem encComplete_tag (u : EncUnit) : (encComplete u).tag = u.tag := rfl
@[simp] theorem encComplete_seq (u : EncUnit) : (encComplete u).seq = u.seq := rfl
@[simp] theorem encComplete_age (u : EncUnit) : (encComplete u).age = 0 := rfl
@[simp] theorem encComplete_blk (u : EncUnit) : (encComplete u).blk = u.blk := rfl
@[simp] theorem encComplete_cb (u : EncUnit) : (encComplete u).cb = encodeBlock u.blk := rfl
@[simp] theorem encComplete_ph (u : EncUnit) : (encComplete u).ph = .done := rfl

@[simp] theorem encReset_tag (u : EncUnit) : (encReset u).tag = u.tag := rfl
@[simp] theorem encReset_seq (u : EncUnit) : (encReset u).seq = u.seq + 1 := rfl
@[simp] theorem encReset_age (u : EncUnit) : (encReset u).age = 0 := rfl
@[simp] theorem encReset_blk (u : EncUnit) : (encReset u).blk = Config.freeBlk u.tag (u.seq + 1) := rfl
@[simp] theorem encReset_cb (u : EncUnit) : (encReset u).cb = Config.freeECb u.tag (u.seq + 1) := rfl
@[simp] theorem encReset_ph (u : EncUnit) : (encReset u).ph = .idle := rfl

@[simp] theorem decAccept_tag (cb : CBlock) (pix : PixIdx) (u : DecUnit) : (decAccept cb pix u).tag = u.tag := rfl
@[simp] theorem decAccept_seq (cb : CBlock) (pix : PixIdx) (u : DecUnit) : (decAccept cb pix u).seq = u.seq + 1 := rfl
@[simp] theorem decAccept_age (cb : CBlock) (pix : PixIdx) (u : DecUnit) : (decAccept cb pix u).age = 0 := rfl
@[simp] theorem decAccept_cb (cb : CBlock) (pix : PixIdx) (u : DecUnit) : (decAccept cb pix u).cb = cb := rfl
@[simp] theorem decAccept_pix (cb : CBlock) (pix : PixIdx) (u : DecUnit) : (decAccept cb pix u).pix = pix := rfl
@[simp] theorem decAccept_px (cb : CBlock) (pix : PixIdx) (u : DecUnit) : (decAccept cb pix u).px = Config.freeDPx u.tag (u.seq + 1) := rfl
@[simp] theorem decAccept_ph (cb : CBlock) (pix : PixIdx) (u : DecUnit) : (decAccept cb pix u).ph = .busy := rfl

@[simp] theorem decComplete_tag (u : DecUnit) : (decComplete u).tag = u.tag := rfl
@[simp] theorem decComplete_seq (u : DecUnit) : (decComplete u).seq = u.seq := rfl
@[simp] theorem decComplete_age (u : DecUnit) : (decComplete u).age = 0 := rfl
@[simp] theorem decComplete_cb (u : DecUnit) : (decComplete u).cb = u.cb := rfl
@[simp] theorem decComplete_pix (u : DecUnit) : (decComplete u).pix = u.pix := rfl
@[simp] theorem decComplete_px (u : DecUnit) : (decComplete u).px = decodePixel u.cb u.pix := rfl
@[simp] theorem decComplete_ph (u : DecUnit) : (decComplete u).ph = .done := rfl

@[simp] theorem decReset_tag (u : DecUnit) : (decReset u).tag = u.tag := rfl
@[simp] theorem decReset_seq (u : DecUnit) : (decReset u).seq = u.seq + 1 := rfl
@[simp] theorem decReset_age (u : DecUnit) : (decReset u).age = 0 := rfl
@[simp] theorem decReset_cb (u : DecUnit) : (decReset u).cb = Config.freeDCb u.tag (u.seq + 1) := rfl
@[simp] theorem decReset_pix (u : DecUnit) : (decReset u).pix = Config.freeDPix u.tag (u.seq + 1) := rfl
@[simp] theorem decReset_px (u : DecUnit) : (decReset u).px = Config.freeDPx u.tag (u.seq + 1) := rfl
@[simp] theorem decReset_ph (u : DecUnit) : (decReset u).ph = .idle := rfl

@[simp] theorem answer_enc (r : Ret) (s : State) : (answer r s).enc = s.enc := rfl
@[simp] theorem answer_dec (r : Ret) (s : State) : (answer r s).dec = s.dec := rfl
@[simp] theorem answer_encPool (r : Ret) (s : State) : (answer r s).encPool = s.encPool := rfl
@[simp] theorem answer_decPool (r : Ret) (s : State) : (answer r s).decPool = s.decPool := rfl
@[simp] theorem answer_img (r : Ret) (s : State) : (answer r s).img = s.img := rfl
@[simp] theorem answer_cmp (r : Ret) (s : State) : (answer r s).cmp = s.cmp := rfl
@[simp] theorem answer_width (r : Ret) (s : State) : (answer r s).width = s.width := rfl
@[simp] theorem answer_height (r : Ret) (s : State) : (answer r s).height = s.height := rfl
@[simp] theorem answer_outcome (r : Ret) (s : State) : (answer r s).outcome = s.outcome := rfl
@[simp] theorem answer_calls (r : Ret) (s : State) : (answer r s).calls = s.calls := rfl
@[simp] theorem answer_ret (r : Ret) (s : State) : (answer r s).ret = some r := rfl
@[simp] theorem answer_script (r : Ret) (s : State) : (answer r s).script = s.script := rfl

@[simp] theorem quiet_enc (s : State) : (quiet s).enc = s.enc := rfl
@[simp] theorem quiet_dec (s : State) : (quiet s).dec = s.dec := rfl
@[simp] theorem quiet_encPool (s : State) : (quiet s).encPool = s.encPool := rfl
@[simp] theorem quiet_decPool (s : State) : (quiet s).decPool = s.decPool := rfl
@[simp] theorem quiet_img (s : State) : (quiet s).img = s.img := rfl
@[simp] theorem quiet_cmp (s : State) : (quiet s).cmp = s.cmp := rfl
@[simp] theorem quiet_width (s : State) : (quiet s).width = s.width := rfl
@[simp] theorem quiet_height (s : State) : (quiet s).height = s.height := rfl
@[simp] theorem quiet_outcome (s : State) : (quiet s).outcome = s.outcome := rfl
@[simp] theorem quiet_calls (s : State) : (quiet s).calls = s.calls := rfl
@[simp] theorem quiet_ret (s : State) : (quiet s).ret = none := rfl
@[simp] theorem quiet_script (s : State) : (quiet s).script = s.script := rfl

@[simp] theorem succeed_enc (s : State) : (succeed s).enc = s.enc := rfl
@[simp] theorem succeed_dec (s : State) : (succeed s).dec = s.dec := rfl
@[simp] theorem succeed_encPool (s : State) : (succeed s).encPool = s.encPool := rfl
@[simp] theorem succeed_decPool (s : State) : (succeed s).decPool = s.decPool := rfl
@[simp] theorem succeed_img (s : State) : (succeed s).img = s.img := rfl
@[simp] theorem succeed_cmp (s : State) : (succeed s).cmp = s.cmp := rfl
@[simp] theorem succeed_width (s : State) : (succeed s).width = s.width := rfl
@[simp] theorem succeed_height (s : State) : (succeed s).height = s.height := rfl
@[simp] theorem succeed_outcome (s : State) : (succeed s).outcome = some .success := rfl
@[simp] theorem succeed_calls (s : State) : (succeed s).calls = s.calls := rfl
@[simp] theorem succeed_ret (s : State) : (succeed s).ret = none := rfl
@[simp] theorem succeed_script (s : State) : (succeed s).script = s.script := rfl

@[simp] theorem raise_enc (e : ProcOutcome) (s : State) : (raise e s).enc = s.enc := rfl
@[simp] theorem raise_dec (e : ProcOutcome) (s : State) : (raise e s).dec = s.dec := rfl
@[simp] theorem raise_encPool (e : ProcOutcome) (s : State) : (raise e s).encPool = s.encPool := rfl
@[simp] theorem raise_decPool (e : ProcOutcome) (s : State) : (raise e s).decPool = s.decPool := rfl
@[simp] theorem raise_img (e : ProcOutcome) (s : State) : (raise e s).img = s.img := rfl
@[simp] theorem raise_cmp (e : ProcOutcome) (s : State) : (raise e s).cmp = s.cmp := rfl
@[simp] theorem raise_width (e : ProcOutcome) (s : State) : (raise e s).width = s.width := rfl
@[simp] theorem raise_height (e : ProcOutcome) (s : State) : (raise e s).height = s.height := rfl
@[simp] theorem raise_outcome (e : ProcOutcome) (s : State) : (raise e s).outcome = some e := rfl
@[simp] theorem raise_calls (e : ProcOutcome) (s : State) : (raise e s).calls = s.calls := rfl
@[simp] theorem raise_ret (e : ProcOutcome) (s : State) : (raise e s).ret = none := rfl
@[simp] theorem raise_script (e : ProcOutcome) (s : State) : (raise e s).script = s.script := rfl

@[simp] theorem lend_enc (c : Call) (s : State) : (c.lend s).enc = s.enc := rfl
@[simp] theorem lend_dec (c : Call) (s : State) : (c.lend s).dec = s.dec := rfl
@[simp] theorem lend_img (c : Call) (s : State) : (c.lend s).img = c.img := rfl
@[simp] theorem lend_cmp (c : Call) (s : State) : (c.lend s).cmp = c.cmp := rfl
@[simp] theorem lend_width (c : Call) (s : State) : (c.lend s).width = c.width := rfl
@[simp] theorem lend_height (c : Call) (s : State) : (c.lend s).height = c.height := rfl

@[simp] theorem after_proc (c : Call) (xy : Nat × Nat) (t : State) : (c.after xy t).proc = c.proc := rfl
@[simp] theorem after_width (c : Call) (xy : Nat × Nat) (t : State) : (c.after xy t).width = c.width := rfl
@[simp] theorem after_height (c : Call) (xy : Nat × Nat) (t : State) : (c.after xy t).height = c.height := rfl
@[simp] theorem after_img (c : Call) (xy : Nat × Nat) (t : State) : (c.after xy t).img = t.img := rfl
@[simp] theorem after_cmp (c : Call) (xy : Nat × Nat) (t : State) : (c.after xy t).cmp = t.cmp := rfl
@[simp] theorem after_todo (c : Call) (xy : Nat × Nat) (t : State) : (c.after xy t).todo = c.todo.erase xy := rfl

@[simp] theorem withCall_enc (s : State) (c : Call) : (s.withCall c).enc = s.enc := rfl
@[simp] theorem withCall_dec (s : State) (c : Call) : (s.withCall c).dec = s.dec := rfl
@[simp] theorem withCall_encPool (s : State) (c : Call) : (s.withCall c).encPool = s.encPool := rfl
@[simp] theorem withCall_decPool (s : State) (c : Call) : (s.withCall c).decPool = s.decPool := rfl
@[simp] theorem withCall_img (s : State) (c : Call) : (s.withCall c).img = s.img := rfl
@[simp] theorem withCall_cmp (s : State) (c : Call) : (s.withCall c).cmp = s.cmp := rfl
@[simp] theorem withCall_width (s : State) (c : Call) : (s.withCall c).width = s.width := rfl
@[simp] theorem withCall_height (s : State) (c : Call) : (s.withCall c).height = s.height := rfl
@[simp] theorem withCall_outcome (s : State) (c : Call) : (s.withCall c).outcome = s.outcome := rfl
@[simp] theorem withCall_calls (s : State) (c : Call) : (s.withCall c).calls = s.calls ++ [c] := rfl
@[simp] theorem withCall_ret (s : State) (c : Call) : (s.withCall c).ret = none := rfl
@[simp] theorem withCall_script (s : State) (c : Call) : (s.withCall c).script = s.script := rfl

end Sys2Proof.Machine
end

