-- ==== Sys2Proof/Laws/Codec.lean ====
section
/-!
SUPPORT. The stage functions on numbers: what each computes, with no narrowing left.
-/

namespace Sys2Proof.Machine

theorem palEntry2_toNat (val0 val1 : Byte) (flip : Bool) :
    (palEntry2 val0 val1 flip).toNat = (2 * val0.toNat + val1.toNat) / 3 := by
  unfold palEntry2
  rw [BitVec.toNat_ofNat, Nat.mod_eq_of_lt]
  have := val0.isLt; have := val1.isLt; omega

theorem palEntry3_toNat (val0 val1 : Byte) (flip : Bool) :
    (palEntry3 val0 val1 flip).toNat = (val0.toNat + 2 * val1.toNat) / 3 := by
  unfold palEntry3
  rw [BitVec.toNat_ofNat, Nat.mod_eq_of_lt]
  have := val0.isLt; have := val1.isLt; omega

theorem palEntry6_toNat (val0 val1 : Byte) (flip : Bool) :
    (palEntry6 val0 val1 flip).toNat = (val0.toNat + val1.toNat) / 2 := by
  unfold palEntry6
  rw [BitVec.toNat_ofNat, Nat.mod_eq_of_lt]
  have := val0.isLt; have := val1.isLt; omega

/-- A residual is the distance of the two bytes. -/
theorem residual_toNat (pixel entry : Byte) :
    (residual pixel entry).toNat = max pixel.toNat entry.toNat - min pixel.toNat entry.toNat := by
  unfold residual
  have := pixel.isLt; have := entry.isLt
  rw [BitVec.toNat_ofNat, Nat.mod_eq_of_lt] <;> omega

theorem residualTable_getElem (blk : Block) (p : Palette) (i j : Nat) (hi : i < 16) (hj : j < 8) :
    (residualTable blk p)[i][j] = residual blk[i] p[j] := by
  simp [residualTable]

theorem columnTotals_getElem (res : ResTable) (j : Nat) (hj : j < 8) :
    (columnTotals res)[j] = (res.toList.map fun row => row[j].toNat).sum := by
  simp [columnTotals]

theorem selectCodes_getElem (decr : Bool) (res : ResTable) (i : Nat) (hi : i < 16) :
    (selectCodes decr res)[i] = firstMinimum (activeHalf decr res[i]) := by
  simp [selectCodes]

theorem decodeBlock16_getElem (cb : CBlock) (i : Nat) (hi : i < 16) :
    (decodeBlock16 cb)[i] = decodePixel cb (BitVec.ofNat 4 i) := by
  simp only [decodeBlock16, Vector.getElem_ofFn]

theorem keepSmaller_cases (r : Vector Byte 4) (k j : Fin 4) :
    (r[j].toNat < r[k].toNat ∧ keepSmaller r k j = j) ∨ (r[k].toNat ≤ r[j].toNat ∧ keepSmaller r k j = k) := by
  unfold keepSmaller
  split
  · rename_i h; exact .inl ⟨h, rfl⟩
  · rename_i h; exact .inr ⟨by omega, rfl⟩

/-- The scan takes the first smallest residual. -/
theorem firstMinimum_spec (r : Vector Byte 4) :
    ∃ k : Fin 4, firstMinimum r = BitVec.ofNat 2 k.val ∧ (∀ j : Fin 4, r[k].toNat ≤ r[j].toNat) ∧
      ∀ j : Fin 4, j < k → r[k].toNat < r[j].toNat := by
  have every : ∀ P : Fin 4 → Prop, P 0 → P 1 → P 2 → P 3 → ∀ j, P j := by
    intro P h0 h1 h2 h3 j
    match j with
    | 0 => exact h0
    | 1 => exact h1
    | 2 => exact h2
    | 3 => exact h3
  refine ⟨_, rfl, ?_⟩
  rcases keepSmaller_cases r 0 1 with ⟨h1, e1⟩ | ⟨h1, e1⟩ <;> rw [e1] <;>
  [rcases keepSmaller_cases r 1 2 with ⟨h2, e2⟩ | ⟨h2, e2⟩; rcases keepSmaller_cases r 0 2 with ⟨h2, e2⟩ | ⟨h2, e2⟩] <;>
  rw [e2] <;>
  [rcases keepSmaller_cases r 2 3 with ⟨h3, e3⟩ | ⟨h3, e3⟩; rcases keepSmaller_cases r 1 3 with ⟨h3, e3⟩ | ⟨h3, e3⟩;
   rcases keepSmaller_cases r 2 3 with ⟨h3, e3⟩ | ⟨h3, e3⟩; rcases keepSmaller_cases r 0 3 with ⟨h3, e3⟩ | ⟨h3, e3⟩] <;>
  rw [e3] <;>
  exact ⟨every _ (by omega) (by omega) (by omega) (by omega),
    every _ (fun _ => by omega) (fun _ => by omega) (fun _ => by omega) (fun _ => by omega)⟩

end Sys2Proof.Machine
end

