-- ==== Sys2Proof/Laws/Memory.lean ====
section
/-!
SUPPORT. The laws of the host buffers: a byte reads as it was written, every other byte as before, and every operation
keeps the canonical form.
-/

namespace Sys2Proof.Machine

theorem cellsRead_cellsWrite_same (cells : List Host.Cell) (a : Nat) (v : Byte) (size low : Nat)
    (h : cellsWf size low cells = true) : cellsRead (cellsWrite cells a v) a = v := by
  have absent : ∀ (l : List Host.Cell) (lo : Nat), a < lo → cellsWf size lo l = true → cellsRead l a = unlistedByte := by
    intro l
    induction l with
    | nil => intro lo _ _; rfl
    | cons c rest ih =>
      obtain ⟨b, w⟩ := c
      intro lo hlo hwf
      simp only [cellsWf, Bool.and_eq_true, decide_eq_true_eq] at hwf
      have hne : a ≠ b := by omega
      simp only [cellsRead, hne, if_false]
      exact ih (b + 1) (by omega) hwf.2
  induction cells generalizing low with
  | nil =>
    by_cases hv : v = unlistedByte <;> simp [cellsWrite, hv, cellsRead]
  | cons c rest ih =>
    obtain ⟨b, w⟩ := c
    simp only [cellsWf, Bool.and_eq_true, decide_eq_true_eq] at h
    obtain ⟨⟨⟨hlow, hb⟩, hw⟩, hrest⟩ := h
    simp only [cellsWrite]
    split
    · rename_i hlt
      have hne : a ≠ b := by omega
      split
      · rename_i hv
        simp only [cellsRead, hne, if_false]
        rw [absent rest (b + 1) (by omega) hrest, hv]
      · simp [cellsRead]
    · split
      · rename_i heq
        split
        · rename_i hv
          rw [absent rest (b + 1) (by omega) hrest, hv]
        · simp [cellsRead]
      · rename_i hne
        simp only [cellsRead, hne, if_false]
        exact ih (b + 1) hrest

theorem cellsRead_cellsWrite_other (cells : List Host.Cell) (a a' : Nat) (v : Byte) (size low : Nat)
    (hne : a' ≠ a) (h : cellsWf size low cells = true) : cellsRead (cellsWrite cells a v) a' = cellsRead cells a' := by
  induction cells generalizing low with
  | nil =>
    by_cases hv : v = unlistedByte <;> simp [cellsWrite, hv, cellsRead, hne]
  | cons c rest ih =>
    obtain ⟨b, w⟩ := c
    simp only [cellsWf, Bool.and_eq_true, decide_eq_true_eq] at h
    simp only [cellsWrite]
    split
    · split
      · rfl
      · simp [cellsRead, hne]
    · split
      · rename_i heq
        split
        · subst heq; simp [cellsRead, hne]
        · subst heq; simp [cellsRead, hne]
      · by_cases hb : a' = b
        · simp [cellsRead, hb]
        · simp only [cellsRead, hb, if_false]
          exact ih (b + 1) h.2

theorem cellsWf_weaken {size low low' : Nat} {cells : List Host.Cell} (hle : low' ≤ low)
    (h : cellsWf size low cells = true) : cellsWf size low' cells = true := by
  cases cells with
  | nil => rfl
  | cons c rest =>
    obtain ⟨b, w⟩ := c
    simp only [cellsWf, Bool.and_eq_true, decide_eq_true_eq] at h ⊢
    exact ⟨⟨⟨by omega, h.1.1.2⟩, h.1.2⟩, h.2⟩

theorem cellsWrite_wf (cells : List Host.Cell) (a : Nat) (v : Byte) (size low : Nat) (ha : a < size) (hlow : low ≤ a)
    (h : cellsWf size low cells = true) : cellsWf size low (cellsWrite cells a v) = true := by
  induction cells generalizing low with
  | nil =>
    by_cases hv : v = unlistedByte <;> simp [cellsWrite, hv, cellsWf, ha, hlow]
  | cons c rest ih =>
    obtain ⟨b, w⟩ := c
    have h' := h
    simp only [cellsWf, Bool.and_eq_true, decide_eq_true_eq] at h
    obtain ⟨⟨⟨hlb, hb⟩, hw⟩, hrest⟩ := h
    simp only [cellsWrite]
    split
    · rename_i hlt
      split
      · exact h'
      · rename_i hv
        simp only [cellsWf, Bool.and_eq_true, decide_eq_true_eq]
        exact ⟨⟨⟨hlow, ha⟩, hv⟩, ⟨⟨⟨by omega, hb⟩, hw⟩, hrest⟩⟩
    · split
      · split
        · exact cellsWf_weaken (by omega) hrest
        · rename_i heq hv
          simp only [cellsWf, Bool.and_eq_true, decide_eq_true_eq]
          exact ⟨⟨⟨hlow, ha⟩, hv⟩, by subst heq; exact hrest⟩
      · simp only [cellsWf, Bool.and_eq_true, decide_eq_true_eq]
        exact ⟨⟨⟨hlb, hb⟩, hw⟩, ih (b + 1) (by omega) hrest⟩

theorem writeByte_size {m m' : Memory} {a : Nat} {v : Byte} (h : m.writeByte a v = some m') : m'.size = m.size := by
  unfold Memory.writeByte at h
  split at h
  · cases h; rfl
  · cases h

/-- Storing a byte keeps the canonical form. -/
theorem writeByte_wf {m m' : Memory} {a : Nat} {v : Byte} (hm : m.wf = true) (h : m.writeByte a v = some m') :
    m'.wf = true := by
  unfold Memory.writeByte at h
  split at h
  · rename_i ha
    cases h
    exact cellsWrite_wf m.cells a v m.size 0 ha (by omega) hm
  · cases h

/-- A stored byte reads back, and every other byte reads as before. -/
theorem readByte_writeByte {m m' : Memory} {a : Nat} {v : Byte} (hm : m.wf = true) (h : m.writeByte a v = some m')
    (a' : Nat) : m'.readByte a' = if a' = a then some v else m.readByte a' := by
  have hsize := writeByte_size h
  unfold Memory.writeByte at h
  split at h
  · rename_i ha
    cases h
    by_cases he : a' = a
    · subst he
      simp [Memory.readByte, ha, cellsRead_cellsWrite_same m.cells a' v m.size 0 hm]
    · simp [Memory.readByte, he, cellsRead_cellsWrite_other m.cells a a' v m.size 0 he hm]
  · cases h

theorem write_size {m m' : Memory} {a : Nat} {bs : List Byte} (h : m.write a bs = some m') : m'.size = m.size := by
  induction bs generalizing m a with
  | nil => cases h; rfl
  | cons v rest ih =>
    simp only [Memory.write] at h
    split at h
    · cases h
    · rename_i m1 h1
      rw [ih h, writeByte_size h1]

/-- `MemWrite` keeps the canonical form. -/
theorem write_wf {m m' : Memory} {a : Nat} {bs : List Byte} (hm : m.wf = true) (h : m.write a bs = some m') :
    m'.wf = true := by
  induction bs generalizing m a with
  | nil => cases h; exact hm
  | cons v rest ih =>
    simp only [Memory.write] at h
    split at h
    · cases h
    · rename_i m1 h1
      exact ih (writeByte_wf hm h1) h

/-- `MemWrite` succeeds exactly where every address exists. -/
theorem write_isSome (m : Memory) (a : Nat) (bs : List Byte) (h : a + bs.length ≤ m.size) :
    ∃ m', m.write a bs = some m' := by
  induction bs generalizing m a with
  | nil => exact ⟨m, rfl⟩
  | cons v rest ih =>
    simp only [List.length_cons] at h
    have ha : a < m.size := by omega
    obtain ⟨m1, h1⟩ : ∃ m1, m.writeByte a v = some m1 := ⟨_, by unfold Memory.writeByte; rw [if_pos ha]⟩
    simp only [Memory.write, h1]
    exact ih m1 (a + 1) (by rw [writeByte_size h1]; omega)

/-- What each byte reads as after `MemWrite`. -/
theorem readByte_write {m m' : Memory} {a : Nat} {bs : List Byte} (hm : m.wf = true) (h : m.write a bs = some m')
    (x : Nat) : m'.readByte x = if h : a ≤ x ∧ x < a + bs.length then some bs[x - a] else m.readByte x := by
  induction bs generalizing m a with
  | nil =>
    cases h
    rw [dif_neg (by simp)]
  | cons v rest ih =>
    simp only [Memory.write] at h
    split at h
    · cases h
    · rename_i m1 h1
      rw [ih (writeByte_wf hm h1) h, readByte_writeByte hm h1]
      simp only [List.length_cons]
      by_cases hx : x = a
      · subst hx
        rw [dif_neg (by omega), if_pos rfl, dif_pos (by omega)]
        simp
      · by_cases hr : a + 1 ≤ x ∧ x < a + 1 + rest.length
        · rw [dif_pos hr, dif_pos (by omega)]
          congr 1
          have : x - a = (x - (a + 1)) + 1 := by omega
          simp only [this, List.getElem_cons_succ]
        · rw [dif_neg hr, if_neg hx, dif_neg (by omega)]

/-- `MemRead` reads byte by byte. -/
theorem read_eq_some {m : Memory} {a n : Nat} (h : a + n ≤ m.size) :
    m.read a n = some ((List.range n).map fun k => cellsRead m.cells (a + k)) := by
  induction n generalizing a with
  | zero => rfl
  | succ n ih =>
    have ha : a < m.size := by omega
    simp only [Memory.read, Memory.readByte, ha, if_true, ih (show a + 1 + n ≤ m.size by omega)]
    rw [List.range_succ_eq_map]
    simp only [List.map_cons, List.map_map, Nat.add_zero, Option.some.injEq, List.cons.injEq, true_and]
    apply List.map_congr_left
    intro k _
    simp only [Function.comp]
    congr 1
    omega

theorem cellsOfBytes_wf (bs : List Byte) (a : Nat) : cellsWf (a + bs.length) a (cellsOfBytes a bs) = true := by
  induction bs generalizing a with
  | nil => rfl
  | cons v rest ih =>
    simp only [cellsOfBytes, List.length_cons]
    have h := ih (a + 1)
    rw [show a + 1 + rest.length = a + (rest.length + 1) by omega] at h
    split
    · exact cellsWf_weaken (by omega) h
    · rename_i hv
      simp only [cellsWf, Bool.and_eq_true, decide_eq_true_eq]
      exact ⟨⟨⟨by omega, by omega⟩, hv⟩, h⟩

/-- A supplied buffer is canonical. -/
theorem ofBytes_wf (bs : List Byte) : (Memory.ofBytes bs).wf = true := by
  have h := cellsOfBytes_wf bs 0
  rw [Nat.zero_add] at h
  exact h

/-- A pre-sized buffer is canonical. -/
theorem sized_wf (n : Nat) : (Memory.sized n).wf = true := rfl

/-- The buffers of every platform right after reset are canonical. -/
theorem platform_memory_wf (nEnc nDec : Nat) :
    (State.platform nEnc nDec).img.wf = true ∧ (State.platform nEnc nDec).cmp.wf = true := ⟨rfl, rfl⟩

/-- The buffers right after reset are canonical. -/
theorem reset_memory_wf : State.reset.img.wf = true ∧ State.reset.cmp.wf = true := ⟨rfl, rfl⟩

end Sys2Proof.Machine
end

