-- ==== Sys2Proof/Laws/Ops.lean ====
section
/-!
SUPPORT. Once for each shared operation over the units, everything it can do.
-/

namespace Sys2Proof.Machine

theorem encLatency_pos (u : EncUnit) : 0 < encLatency u := Nat.succ_pos _

theorem decLatency_pos (u : DecUnit) : 0 < decLatency u := Nat.succ_pos _

/-- The five things one edge of ENC's clock can do. -/
theorem encEdge_cases (p : EncPorts) (u : EncUnit) :
    (p.rst = true ∧ encEdge p u = encReset u) ∨
    (p.rst = false ∧ u.ph = .busy ∧ encLatency u ≤ u.age + 1 ∧ encEdge p u = encComplete u) ∨
    (p.rst = false ∧ u.ph = .busy ∧ u.age + 1 < encLatency u ∧ encEdge p u = { u with age := u.age + 1 }) ∨
    (p.rst = false ∧ u.ph ≠ .busy ∧ p.start = true ∧ encEdge p u = encAccept (blockOfPort p.blk) u) ∨
    (p.rst = false ∧ u.ph ≠ .busy ∧ p.start = false ∧ encEdge p u = u) := by
  unfold encEdge encEdgeWith
  by_cases hl : encLatency u ≤ u.age + 1
  · cases hr : p.rst <;> cases hp : u.ph <;> cases hs : p.start <;> simp [hl]
  · have hl' : u.age + 1 < encLatency u := by omega
    cases hr : p.rst <;> cases hp : u.ph <;> cases hs : p.start <;> simp [hl, hl']

/-- The five things one edge of DEC's clock can do. -/
theorem decEdge_cases (p : DecPorts) (u : DecUnit) :
    (p.rst = true ∧ decEdge p u = decReset u) ∨
    (p.rst = false ∧ u.ph = .busy ∧ decLatency u ≤ u.age + 1 ∧ decEdge p u = decComplete u) ∨
    (p.rst = false ∧ u.ph = .busy ∧ u.age + 1 < decLatency u ∧ decEdge p u = { u with age := u.age + 1 }) ∨
    (p.rst = false ∧ u.ph ≠ .busy ∧ p.start = true ∧ decEdge p u = decAccept (cblockOfPort p.cb) p.pix u) ∨
    (p.rst = false ∧ u.ph ≠ .busy ∧ p.start = false ∧ decEdge p u = u) := by
  unfold decEdge decEdgeWith
  by_cases hl : decLatency u ≤ u.age + 1
  · cases hr : p.rst <;> cases hp : u.ph <;> cases hs : p.start <;> simp [hl]
  · have hl' : u.age + 1 < decLatency u := by omega
    cases hr : p.rst <;> cases hp : u.ph <;> cases hs : p.start <;> simp [hl, hl']

/-- All of a unit after the transaction `ENC`. -/
theorem encTransact_eq (blk : Block) (u : EncUnit) :
    encTransact blk u = { u with seq := u.seq + 1, age := 0, blk := blk, cb := encodeBlock blk, ph := .done } := by
  unfold encTransact encSettle
  split <;> rfl

/-- All of a unit after the transaction `DEC`. -/
theorem decTransact_eq (cb : CBlock) (pix : PixIdx) (u : DecUnit) :
    decTransact cb pix u =
      { u with seq := u.seq + 1, age := 0, cb := cb, pix := pix, px := decodePixel cb pix, ph := .done } := by
  unfold decTransact decSettle
  split <;> rfl

/-- Work done piece by piece: a property that every piece keeps holds at the end. -/
theorem runOver_invariant {α : Type} {work : α → State → Option State} {P : State → Prop} {xs : List α} {s t : State}
    (keep : ∀ x ∈ xs, ∀ a b, work x a = some b → P a → P b) (h : runOver work xs s = some t) (hs : P s) : P t := by
  induction xs generalizing s with
  | nil => cases h; exact hs
  | cons x rest ih =>
    simp only [runOver] at h
    split at h
    · cases h
    · rename_i s1 h1
      exact ih (fun y hy => keep y (List.mem_cons_of_mem _ hy)) h (keep x List.mem_cons_self s s1 h1 hs)

/-- Work done piece by piece succeeds when an invariant makes every piece succeed. -/
theorem runOver_isSome {α : Type} {work : α → State → Option State} {P : State → Prop} {xs : List α} {s : State}
    (keep : ∀ x ∈ xs, ∀ a, P a → ∃ b, work x a = some b ∧ P b) (hs : P s) : ∃ t, runOver work xs s = some t ∧ P t := by
  induction xs generalizing s with
  | nil => exact ⟨s, rfl, hs⟩
  | cons x rest ih =>
    obtain ⟨b, hb, hP⟩ := keep x List.mem_cons_self s hs
    simp only [runOver, hb]
    exact ih (fun y hy => keep y (List.mem_cons_of_mem _ hy)) hP

theorem runOver_append {α : Type} (work : α → State → Option State) (xs ys : List α) (s : State) :
    runOver work (xs ++ ys) s = (runOver work xs s).bind (runOver work ys) := by
  induction xs generalizing s with
  | nil => rfl
  | cons x rest ih =>
    simp only [List.cons_append, runOver]
    split
    · rfl
    · exact ih _

/-- What one turn of ENCODE_IMAGE's loop does when it succeeds. -/
theorem encodeOneBlock_eq_some {o : Nat × Nat} {s t : State} (h : encodeOneBlock o s = some t) :
    ∃ blk m, readBlock s.img s.width o.1 o.2 = some blk ∧
      s.cmp.write (blockIndex s.width o.1 o.2 * 6) (encodeBlock blk).toList = some m ∧
      t = { s with enc := encTransact blk s.enc, cmp := m } := by
  unfold encodeOneBlock at h
  split at h
  · cases h
  · rename_i blk hb
    simp only [encTransact_eq] at h
    split at h
    · cases h
    · rename_i m hm
      refine ⟨blk, m, hb, hm, ?_⟩
      cases h
      rw [encTransact_eq]

/-- What one turn of DECODE_IMAGE's loop does when it succeeds. -/
theorem decodeOnePixel_eq_some {xy : Nat × Nat} {s t : State} (h : decodeOnePixel xy s = some t) :
    ∃ cb m, readCblock s.cmp (blockIndex s.width xy.1 xy.2) = some cb ∧
      s.img.write (pixelAddr s.width xy.1 xy.2) [decodePixel cb (pixelIndex xy.1 xy.2)] = some m ∧
      t = { s with dec := decTransact cb (pixelIndex xy.1 xy.2) s.dec, img := m } := by
  unfold decodeOnePixel at h
  split at h
  · cases h
  · rename_i cb hcb
    simp only [decTransact_eq] at h
    split at h
    · cases h
    · rename_i m hm
      refine ⟨cb, m, hcb, hm, ?_⟩
      cases h
      rw [decTransact_eq]

/-- What ENCODE_IMAGE can answer. -/
theorem execEncodeImage_cases (s : State) :
    (dimsOk s.width s.height = false ∧ execEncodeImage s = .next (raise (.invalidDimensions s.width s.height none) s)) ∨
    (dimsOk s.width s.height = true ∧ s.img.size ≠ s.width * s.height ∧ execEncodeImage s = .refused .imageLength) ∨
    (dimsOk s.width s.height = true ∧ s.img.size = s.width * s.height ∧
      execEncodeImage s = finish (encodeInOrder (blockOrigins s.width s.height) s)) := by
  unfold execEncodeImage afterEncodeChecks
  split
  · rename_i hd
    split
    · rename_i hs; exact .inr (.inr ⟨hd, hs, rfl⟩)
    · rename_i hs; exact .inr (.inl ⟨hd, hs, rfl⟩)
  · rename_i hd; exact .inl ⟨by simpa using hd, rfl⟩

/-- What DECODE_IMAGE can answer. -/
theorem execDecodeImage_cases (s : State) :
    (dimsOk s.width s.height = false ∧ execDecodeImage s = .next (raise (.invalidDimensions s.width s.height none) s)) ∨
    (dimsOk s.width s.height = true ∧ s.cmp.size < compressedLength s.width s.height ∧
      execDecodeImage s = .next (raise (.invalidDimensions s.width s.height (some s.cmp.size)) s)) ∨
    (dimsOk s.width s.height = true ∧ compressedLength s.width s.height ≤ s.cmp.size ∧
      execDecodeImage s = finish (decodeInOrder (pixelOrder s.width s.height) s)) := by
  unfold execDecodeImage afterDecodeChecks
  split
  · rename_i hd
    split
    · rename_i hs; exact .inr (.inr ⟨hd, hs, rfl⟩)
    · rename_i hs; exact .inr (.inl ⟨hd, by omega, rfl⟩)
  · rename_i hd; exact .inl ⟨by simpa using hd, rfl⟩

end Sys2Proof.Machine
end

