-- ==== Sys2Proof/Laws/Calls.lean ====
section
/-!
SUPPORT. Once for each action on a procedure under way, everything it can do.
-/

namespace Sys2Proof.Machine

/-- What beginning a call can answer. -/
theorem beginCall_next {p : Proc} {s t : State} (h : beginCall p s = .next t) :
    (∃ e, e.code = 1 ∧ t = raise e s) ∨
    (p = .encodeImage ∧ dimsOk s.width s.height = true ∧ s.img.size = s.width * s.height ∧
      t = s.withCall (Call.newEncode s)) ∨
    (p = .decodeImage ∧ dimsOk s.width s.height = true ∧ compressedLength s.width s.height ≤ s.cmp.size ∧
      t = s.withCall (Call.newDecode s)) := by
  cases p with
  | encodeImage =>
    simp only [beginCall, afterEncodeChecks] at h
    split at h
    · rename_i hd
      split at h
      · rename_i hs; cases h; exact .inr (.inl ⟨rfl, hd, hs, rfl⟩)
      · cases h
    · cases h; exact .inl ⟨_, rfl, rfl⟩
  | decodeImage =>
    simp only [beginCall, afterDecodeChecks] at h
    split at h
    · rename_i hd
      split at h
      · rename_i hs; cases h; exact .inr (.inr ⟨rfl, hd, hs, rfl⟩)
      · cases h; exact .inl ⟨_, rfl, rfl⟩
    · cases h; exact .inl ⟨_, rfl, rfl⟩

/-- What a piece of work does when it answers a next state. -/
theorem workOn_next {n : Nat} {piece : Nat × Nat} {s t : State} (h : workOn n piece s = .next t) :
    ∃ c r, s.calls[n]? = some c ∧ piece ∈ c.todo ∧ c.proc.work piece (c.lend s) = some r ∧
      t = { s with enc := r.enc, dec := r.dec, calls := s.calls.set n (c.after piece r), ret := none } := by
  unfold workOn at h
  split at h
  · cases h
  · rename_i c hc
    split at h
    · rename_i hp
      split at h
      · rename_i r hr; cases h; exact ⟨c, r, hc, hp, hr, rfl⟩
      · cases h
    · cases h

/-- A piece of work answers a next state when its call and its piece are there and the loop's turn succeeds. -/
theorem workOn_eq {n : Nat} {piece : Nat × Nat} {s r : State} {c : Call} (hc : s.calls[n]? = some c) (hp : piece ∈ c.todo)
    (hr : c.proc.work piece (c.lend s) = some r) :
    workOn n piece s =
      .next { s with enc := r.enc, dec := r.dec, calls := s.calls.set n (c.after piece r), ret := none } := by
  simp only [workOn, hc, hp, if_true, hr]
  rfl

/-- What the end of a call does when it answers a next state. -/
theorem endCall_next {n : Nat} {s t : State} (h : endCall n s = .next t) :
    ∃ c bs, s.calls[n]? = some c ∧ c.todo = [] ∧ c.output.read 0 c.output.size = some bs ∧
      t = { s with calls := s.calls.eraseIdx n, outcome := some .success, ret := some (.bytes bs) } := by
  unfold endCall at h
  split at h
  · cases h
  · rename_i c hc
    split at h
    · rename_i hd
      split at h
      · rename_i bs hb; cases h; exact ⟨c, bs, hc, hd, hb, rfl⟩
      · cases h
    · cases h

end Sys2Proof.Machine
end

