-- ==== Sys2Proof/Laws/Image.lean ====
section
/-!
SUPPORT. The host procedures piece by piece: equal buffers from equal bytes, the places of blocks and pixels, and what one turn
of each loop makes of a call under way.
-/

namespace Sys2Proof.Machine

theorem cellsRead_below {size low : Nat} {cells : List Host.Cell} (h : cellsWf size low cells = true) {a : Nat} (ha : a < low) :
    cellsRead cells a = unlistedByte := by
  induction cells generalizing low with
  | nil => rfl
  | cons b rest ih =>
    simp only [cellsWf, Bool.and_eq_true, decide_eq_true_eq] at h
    rw [cellsRead, if_neg (by omega)]
    exact ih h.2 (by omega)

theorem cells_ext {size : Nat} {l l' : List Host.Cell} {low : Nat} (h : cellsWf size low l = true)
    (h' : cellsWf size low l' = true) (e : ∀ a, low ≤ a → a < size → cellsRead l a = cellsRead l' a) : l = l' := by
  induction l generalizing l' low with
  | nil =>
    cases l' with
    | nil => rfl
    | cons b' rest' =>
      simp only [cellsWf, Bool.and_eq_true, decide_eq_true_eq] at h'
      have := e b'.1 h'.1.1.1 h'.1.1.2
      rw [cellsRead, cellsRead, if_pos rfl] at this
      exact absurd this.symm h'.1.2
  | cons b rest ih =>
    have hb := h
    simp only [cellsWf, Bool.and_eq_true, decide_eq_true_eq] at hb
    cases l' with
    | nil =>
      have := e b.1 hb.1.1.1 hb.1.1.2
      rw [cellsRead, cellsRead, if_pos rfl] at this
      exact absurd this hb.1.2
    | cons b' rest' =>
      have hb' := h'
      simp only [cellsWf, Bool.and_eq_true, decide_eq_true_eq] at hb'
      have h1 := e b.1 hb.1.1.1 hb.1.1.2
      have h2 := e b'.1 hb'.1.1.1 hb'.1.1.2
      rw [cellsRead, if_pos rfl, cellsRead] at h1
      rw [cellsRead, cellsRead, if_pos rfl] at h2
      have hk : b.1 = b'.1 := by
        rcases Nat.lt_trichotomy b.1 b'.1 with hlt | heq | hgt
        · rw [if_neg (by omega), cellsRead_below hb'.2 (by omega)] at h1
          exact absurd h1 hb.1.2
        · exact heq
        · rw [if_neg (by omega), cellsRead_below hb.2 (by omega)] at h2
          exact absurd h2.symm hb'.1.2
      rw [if_pos hk] at h1
      have hbb : b = b' := Prod.ext hk h1
      subst hbb
      congr 1
      refine ih (low := b.1 + 1) hb.2 hb'.2 ?_
      intro a ha hs
      have := e a (by omega) hs
      rwa [cellsRead, cellsRead, if_neg (by omega), if_neg (by omega)] at this

/-- Canonical buffers of one size with the same bytes are equal. -/
theorem memory_ext {m m' : Memory} (hm : m.wf = true) (hm' : m'.wf = true) (hs : m.size = m'.size)
    (e : ∀ a, a < m.size → m.readByte a = m'.readByte a) : m = m' := by
  obtain ⟨n, l⟩ := m
  obtain ⟨n', l'⟩ := m'
  cases hs
  congr 1
  refine cells_ext (low := 0) hm hm' ?_
  intro a _ ha
  have := e a ha
  simpa [Memory.readByte, show a < n from ha] using this

theorem cellsRead_ofBytes (bs : List Byte) (a k : Nat) (h : k < bs.length) :
    cellsRead (cellsOfBytes a bs) (a + k) = bs[k] := by
  induction bs generalizing a k with
  | nil => exact absurd h (Nat.not_lt_zero k)
  | cons v rest ih =>
    have hw := cellsOfBytes_wf rest (a + 1)
    cases k with
    | zero =>
      simp only [cellsOfBytes, Nat.add_zero, List.getElem_cons_zero]
      split
      · rename_i hv
        rw [cellsRead_below hw (by omega), hv]
      · rw [cellsRead, if_pos rfl]
    | succ k =>
      have hk : k < rest.length := by simpa using h
      have := ih (a + 1) k hk
      rw [show a + 1 + k = a + (k + 1) by omega] at this
      simp only [cellsOfBytes, List.getElem_cons_succ]
      split
      · exact this
      · rw [cellsRead, if_neg (by simp), this]

/-- A supplied buffer holds the bytes supplied. -/
theorem readByte_ofBytes (bs : List Byte) (k : Nat) (h : k < bs.length) : (Memory.ofBytes bs).readByte k = some bs[k] := by
  have := cellsRead_ofBytes bs 0 k h
  rw [Nat.zero_add] at this
  simp [Memory.readByte, Memory.ofBytes, h, this]

/-- A canonical buffer is the buffer of its bytes. -/
theorem ofBytes_read {m : Memory} (hm : m.wf = true) :
    ∃ bs, m.read 0 m.size = some bs ∧ Memory.ofBytes bs = m := by
  refine ⟨_, read_eq_some (Nat.le_of_eq (Nat.zero_add _)), ?_⟩
  refine memory_ext (ofBytes_wf _) hm (by simp [Memory.ofBytes]) ?_
  intro a ha
  have ha' : a < m.size := by simpa [Memory.ofBytes] using ha
  rw [readByte_ofBytes _ a (by simpa using ha')]
  simp [Memory.readByte, ha']

theorem mem_blockOrigins {w h x y : Nat} :
    (x, y) ∈ blockOrigins w h ↔ ∃ i j, i < w / 4 ∧ j < h / 4 ∧ x = 4 * i ∧ y = 4 * j := by
  simp only [blockOrigins, List.mem_flatMap, List.mem_map, List.mem_range, Prod.mk.injEq]
  constructor
  · rintro ⟨j, hj, i, hi, rfl, rfl⟩; exact ⟨i, j, hi, hj, rfl, rfl⟩
  · rintro ⟨i, j, hi, hj, rfl, rfl⟩; exact ⟨j, hj, i, hi, rfl, rfl⟩

theorem mem_pixelOrder {w h x y : Nat} : (x, y) ∈ pixelOrder w h ↔ x < w ∧ y < h := by
  simp only [pixelOrder, List.mem_flatMap, List.mem_map, List.mem_range, Prod.mk.injEq]
  constructor
  · rintro ⟨j, hj, i, hi, rfl, rfl⟩; exact ⟨hi, hj⟩
  · rintro ⟨hi, hj⟩; exact ⟨y, hj, x, hi, rfl, rfl⟩

theorem pixel_inside {w h x y : Nat} (hx : x < w) (hy : y < h) : y * w + x < w * h :=
  calc y * w + x < y * w + w := by omega
    _ = (y + 1) * w := by rw [Nat.add_mul, Nat.one_mul]
    _ ≤ h * w := Nat.mul_le_mul_right w hy
    _ = w * h := Nat.mul_comm h w

/-- Two places of a row-major grid are equal only when both coordinates are. -/
theorem place_inj {w x y x' y' : Nat} (hx : x < w) (hx' : x' < w) (h : y * w + x = y' * w + x') : x = x' ∧ y = y' := by
  have hw : 0 < w := by omega
  have h1 : (y * w + x) % w = (y' * w + x') % w := by rw [h]
  have h2 : (y * w + x) / w = (y' * w + x') / w := by rw [h]
  rw [Nat.mul_comm y w, Nat.mul_comm y' w] at h1 h2
  rw [Nat.mul_add_mod, Nat.mul_add_mod, Nat.mod_eq_of_lt hx, Nat.mod_eq_of_lt hx'] at h1
  rw [Nat.mul_add_div hw, Nat.mul_add_div hw, Nat.div_eq_of_lt hx, Nat.div_eq_of_lt hx'] at h2
  exact ⟨h1, by simpa using h2⟩

/-- The sixteen pixels the host reads for a block are those of the image (R55). -/
theorem readBlock_eq {img : Memory} {w h i j : Nat} (hs : img.size = w * h) (hi : i < w / 4) (hj : j < h / 4) :
    readBlock img w (4 * i) (4 * j) = some (blockOf img w i j) := by
  have row : ∀ r, r < 4 → readBlockRow img w (4 * i) (4 * j) r = some [pixelOf img w (4 * i) (4 * j + r),
      pixelOf img w (4 * i + 1) (4 * j + r), pixelOf img w (4 * i + 2) (4 * j + r), pixelOf img w (4 * i + 3) (4 * j + r)] := by
    intro r hr
    have at_ : ∀ k, k < 4 → (4 * j + r) * w + (4 * i + k) < img.size := fun k hk => by
      rw [hs]; exact pixel_inside (by omega) (by omega)
    have h3 := at_ 3 (by omega)
    unfold readBlockRow pixelAddr
    rw [read_eq_some (by omega)]
    have px : ∀ k, k < 4 → cellsRead img.cells ((4 * j + r) * w + 4 * i + k) = pixelOf img w (4 * i + k) (4 * j + r) := by
      intro k hk
      have := at_ k hk
      rw [← Nat.add_assoc] at this
      simp [pixelOf, Memory.readByte, ← Nat.add_assoc, this]
    rw [show List.range 4 = [0, 1, 2, 3] from rfl]
    simp only [List.map_cons, List.map_nil]
    rw [px 0 (by omega), px 1 (by omega), px 2 (by omega), px 3 (by omega), Nat.add_zero]
  unfold readBlock
  rw [row 0 (by omega), row 1 (by omega), row 2 (by omega), row 3 (by omega)]
  simp only [Option.some.injEq]
  ext k hk
  interval_cases k <;> simp [blockOf]

/-- The six bytes the host reads for a pixel are those of its block (R56). -/
theorem readCblock_eq {cmp : Memory} {n : Nat} (h : n * 6 + 6 ≤ cmp.size) : readCblock cmp n = some (cblockOf cmp n) := by
  unfold readCblock
  rw [read_eq_some h, show List.range 6 = [0, 1, 2, 3, 4, 5] from rfl]
  simp only [List.map_cons, List.map_nil, Option.some.injEq]
  ext k hk
  have : ∀ q, q < 6 → 6 * n + q < cmp.size := fun q hq => by omega
  interval_cases k <;> simp [cblockOf, Memory.readByte, this, Nat.mul_comm n 6]

/-- What one turn of ENCODE_IMAGE's loop makes of the output: the six bytes of its block, and every other block as before
(R192, R194). -/
theorem encodeOneBlock_turn {s : State} {i j : Nat} (hs : s.img.size = s.width * s.height) (hi : i < s.width / 4)
    (hj : j < s.height / 4) (hc : s.cmp.size = s.width / 4 * (s.height / 4) * 6) (hw : s.cmp.wf = true) :
    ∃ m : Memory, m.wf = true ∧ m.size = s.cmp.size ∧
      encodeOneBlock (4 * i, 4 * j) s = some { s with enc := encTransact (blockOf s.img s.width i j) s.enc, cmp := m } ∧
      (∀ k : Fin 6, m.readByte (6 * (j * (s.width / 4) + i) + k.val) =
        some (encodeBlock (blockOf s.img s.width i j))[k]) ∧
      ∀ i' j' : Nat, i' < s.width / 4 → ¬ (i' = i ∧ j' = j) → ∀ k : Fin 6,
        m.readByte (6 * (j' * (s.width / 4) + i') + k.val) = s.cmp.readByte (6 * (j' * (s.width / 4) + i') + k.val) := by
  have hn := pixel_inside hi hj
  have hidx : blockIndex s.width (4 * i) (4 * j) = j * (s.width / 4) + i := by simp [blockIndex]
  obtain ⟨m, hm⟩ := write_isSome s.cmp ((j * (s.width / 4) + i) * 6) (encodeBlock (blockOf s.img s.width i j)).toList
    (by simp; omega)
  refine ⟨m, write_wf hw hm, write_size hm, ?_, fun k => ?_, fun i' j' hi' hne k => ?_⟩
  · simp only [encodeOneBlock, readBlock_eq hs hi hj, hidx, encTransact_eq, hm]
  · have := k.isLt
    rw [readByte_write hw hm, dif_pos (by simp; omega)]
    simp [Nat.mul_comm]
  · rw [readByte_write hw hm, dif_neg]
    intro h
    have hk := k.isLt
    simp only [Vector.length_toList] at h
    have e : j' * (s.width / 4) + i' = j * (s.width / 4) + i := by omega
    exact hne (place_inj hi' hi e)

/-- What one turn of DECODE_IMAGE's loop makes of the output: its pixel, and every other pixel as before (R196). -/
theorem decodeOnePixel_turn {s : State} {x y : Nat} (hs : s.img.size = s.width * s.height) (hx : x < s.width)
    (hy : y < s.height) (h4 : s.width % 4 = 0) (h4' : s.height % 4 = 0) (hc : s.width / 4 * (s.height / 4) * 6 ≤ s.cmp.size)
    (hw : s.img.wf = true) :
    ∃ m : Memory, m.wf = true ∧ m.size = s.img.size ∧
      decodeOnePixel (x, y) s = some { s with
        dec := decTransact (cblockOf s.cmp (y / 4 * (s.width / 4) + x / 4)) (pixelIndex x y) s.dec, img := m } ∧
      m.readByte (y * s.width + x) =
        some (decodePixel (cblockOf s.cmp (y / 4 * (s.width / 4) + x / 4)) (BitVec.ofNat 4 (y % 4 * 4 + x % 4))) ∧
      ∀ x' y' : Nat, x' < s.width → ¬ (x' = x ∧ y' = y) →
        m.readByte (y' * s.width + x') = s.img.readByte (y' * s.width + x') := by
  have hn : y / 4 * (s.width / 4) + x / 4 < s.width / 4 * (s.height / 4) := pixel_inside (by omega) (by omega)
  have hp := pixel_inside hx hy
  have hcb := readCblock_eq (cmp := s.cmp) (n := y / 4 * (s.width / 4) + x / 4) (by omega)
  obtain ⟨m, hm⟩ := write_isSome s.img (y * s.width + x)
    [decodePixel (cblockOf s.cmp (y / 4 * (s.width / 4) + x / 4)) (pixelIndex x y)] (by simp; omega)
  refine ⟨m, write_wf hw hm, write_size hm, ?_, ?_, fun x' y' hx' hne => ?_⟩
  · simp only [decodeOnePixel, blockIndex, pixelAddr, hcb, decTransact_eq, hm]
  · rw [readByte_write hw hm, dif_pos (by simp)]
    simp [pixelIndex]
  · rw [readByte_write hw hm, dif_neg]
    intro h
    simp only [List.length_cons, List.length_nil] at h
    exact hne (place_inj hx' hx (by omega))

end Sys2Proof.Machine
end

