-- ==== Sys2Proof/Laws/Step.lean ====
section
/-!
SUPPORT. What a step does, by what the host does next.
-/

namespace Sys2Proof.Machine

theorem step_quiet {s : State} (h : s.script = []) : step s = .next (quietEdge s) := by
  unfold step
  rw [h]

theorem step_action {s : State} {a : Action} {rest : List Action} (h : s.script = a :: rest) :
    step s = runAction a { s with script := rest } := by
  unfold step
  rw [h]

theorem runRequest_ok {port : Port} {bytes : List Byte} {i : Instr} (h : decode port bytes = .ok i) (s : State) :
    runRequest port bytes s = exec i s := by
  unfold runRequest
  rw [h]

theorem runLine_wf {i : Instr} (h : i.wf = true) (s : State) : runLine i s = exec i s := by
  unfold runLine
  rw [if_pos h]

/-- A word of the table placed for the next step is presented by it. -/
theorem step_withFetchWord {nbits w : Nat} {i : Instr} (h : decodeTableWord nbits w = some i) (s : State) :
    step (s.withFetchWord nbits w) = exec i s := by
  unfold decodeTableWord at h
  unfold State.withFetchWord
  split at h
  · cases h
  · rename_i port bytes hreq
    simp only [hreq]
    split at h
    · rename_i j hj
      cases h
      rw [step_action rfl]
      exact runRequest_ok hj s
    · cases h

end Sys2Proof.Machine
end

