-- ==== Sys2Proof/Laws/PerInstr.lean ====
section
/-!
SUPPORT. Statements made per instruction. WordShape: an instruction that has an encoding has it on the port and with the
length of its row's word (16 bytes for 128 bits, 7 for 52, and for a palette index its byte and three operand bytes).
-/

namespace Sys2Proof.Laws.WordShape

/-- The number of bytes a port takes. -/
def portLength : Port → Nat
  | .enc => 16
  | .dec => 7
  | .pal => 4

/-- The word of an instruction has its port's length (R86). -/
def Statement (i : Instr) : Prop := ∀ port bytes, encode i = some (port, bytes) → bytes.length = portLength port

theorem encodeBlock (blk : Block) : Statement (.encodeBlock blk) := by
  intro port bytes h
  cases h
  simp [portLength]

theorem decodePixel (cb : CBlock) (pix : PixIdx) : Statement (.decodePixel cb pix) := by
  intro port bytes h
  cases h
  simp [portLength]

theorem pal0 (val0 : Byte) (val1 : Byte) (flip : Bool) : Statement (.pal0 val0 val1 flip) := by
  intro port bytes h
  cases h
  simp [portLength]

theorem pal1 (val0 : Byte) (val1 : Byte) (flip : Bool) : Statement (.pal1 val0 val1 flip) := by
  intro port bytes h
  cases h
  simp [portLength]

theorem pal2 (val0 : Byte) (val1 : Byte) (flip : Bool) : Statement (.pal2 val0 val1 flip) := by
  intro port bytes h
  cases h
  simp [portLength]

theorem pal3 (val0 : Byte) (val1 : Byte) (flip : Bool) : Statement (.pal3 val0 val1 flip) := by
  intro port bytes h
  cases h
  simp [portLength]

theorem pal4 (val0 : Byte) (val1 : Byte) (flip : Bool) : Statement (.pal4 val0 val1 flip) := by
  intro port bytes h
  cases h
  simp [portLength]

theorem pal5 (val0 : Byte) (val1 : Byte) (flip : Bool) : Statement (.pal5 val0 val1 flip) := by
  intro port bytes h
  cases h
  simp [portLength]

theorem pal6 (val0 : Byte) (val1 : Byte) (flip : Bool) : Statement (.pal6 val0 val1 flip) := by
  intro port bytes h
  cases h
  simp [portLength]

theorem pal7 (val0 : Byte) (val1 : Byte) (flip : Bool) : Statement (.pal7 val0 val1 flip) := by
  intro port bytes h
  cases h
  simp [portLength]

theorem buildPalette (val0 : Byte) (val1 : Byte) (flip : Bool) : Statement (.buildPalette val0 val1 flip) := by
  intro port bytes h
  cases h

theorem residuals (blk : Block) (p : Palette) : Statement (.residuals blk p) := by
  intro port bytes h
  cases h

theorem totals (res : ResTable) : Statement (.totals res) := by
  intro port bytes h
  cases h

theorem selectOrder (tot : Totals) : Statement (.selectOrder tot) := by
  intro port bytes h
  cases h

theorem selectEndpoints (decr : Bool) (maxv : Byte) (minv : Byte) : Statement (.selectEndpoints decr maxv minv) := by
  intro port bytes h
  cases h

theorem minmax (blk : Block) : Statement (.minmax blk) := by
  intro port bytes h
  cases h

theorem selectCode (decr : Bool) (res : ResTable) : Statement (.selectCode decr res) := by
  intro port bytes h
  cases h

theorem packCodewords (codes : Codes) : Statement (.packCodewords codes) := by
  intro port bytes h
  cases h

theorem emitBlock (v0 : Byte) (v1 : Byte) (cw : CodeWord) : Statement (.emitBlock v0 v1 cw) := by
  intro port bytes h
  cases h

theorem unpackBlock (cb : CBlock) : Statement (.unpackBlock cb) := by
  intro port bytes h
  cases h

theorem extractCode (cw : CodeWord) (pix : PixIdx) : Statement (.extractCode cw pix) := by
  intro port bytes h
  cases h

theorem selectIndex (dv0 : Byte) (dv1 : Byte) (code : Code) : Statement (.selectIndex dv0 dv1 code) := by
  intro port bytes h
  cases h

theorem paletteLookup (dv0 : Byte) (dv1 : Byte) (idx : PalIdx) : Statement (.paletteLookup dv0 dv1 idx) := by
  intro port bytes h
  cases h

theorem decodeBlock16 (cb : CBlock) : Statement (.decodeBlock16 cb) := by
  intro port bytes h
  cases h

theorem encodeImage : Statement .encodeImage := by
  intro port bytes h
  cases h

theorem decodeImage : Statement .decodeImage := by
  intro port bytes h
  cases h

theorem rst (which : UnitSel) : Statement (.rst which) := by
  intro port bytes h
  cases h

end Sys2Proof.Laws.WordShape
end

