-- ==== Sys2Proof/Tests/Slice0.lean ====
section
/-!
SUPPORT. The model's own tests. Expected values are those of spec/95_test_vectors.md, named beside each test. The second half
holds, for every statement with hypotheses, a named witness that meets them.
-/

namespace Sys2Proof.Tests

set_option Elab.async false

open Sys2Proof Sys2Proof.Machine

/-! Helpers. -/

/-- What a step handed back. -/
def retOf : Host.Outcome State Fault Refusal → Option Ret
  | .next t => t.ret
  | .fault _ => none
  | .refused _ => none

/-- A property of the next state, false where there is none. -/
def onNext (p : State → Bool) : Host.Outcome State Fault Refusal → Bool
  | .next t => p t
  | .fault _ => false
  | .refused _ => false

/-- The step is refused for this reason. -/
def refusedWith (r : Refusal) : Host.Outcome State Fault Refusal → Bool
  | .next _ => false
  | .fault _ => false
  | .refused q => decide (q = r)

/-- The step stops with this fault. -/
def faultsWith (f : Fault) : Host.Outcome State Fault Refusal → Bool
  | .next _ => false
  | .fault g => decide (g = f)
  | .refused _ => false

/-- The machine after reset with the host's next actions. -/
def withScript (as : List Action) : State := { State.reset with script := as }

/-- The machine after reset with buffers and dimensions. -/
def withImages (width height : Nat) (img cmp : List Byte) : State :=
  { State.reset with width := width, height := height, img := Memory.ofBytes img, cmp := Memory.ofBytes cmp }

/-- Blocks of V-ENC. -/
def ramp : Block := #v[50, 60, 70, 80, 90, 100, 110, 120, 130, 140, 150, 160, 170, 180, 190, 200]
def bimodal : Block := #v[200, 200, 200, 200, 200, 200, 200, 200, 200, 200, 200, 200, 40, 40, 40, 40]
def mixed : Block := #v[12, 200, 37, 90, 255, 0, 128, 64, 77, 77, 180, 3, 240, 19, 101, 150]
def lowdark : Block := #v[0, 0, 0, 0, 0, 0, 0, 0, 0, 0, 0, 0, 0, 0, 0, 90]
def eightWhite : Block := #v[255, 255, 255, 255, 255, 255, 255, 255, 0, 0, 0, 0, 0, 0, 0, 0]
def nineWhite : Block := #v[255, 255, 255, 255, 255, 255, 255, 255, 255, 0, 0, 0, 0, 0, 0, 0]

/-- The ports of ENC with a request for a block. -/
def ask (blk : Block) : EncPorts := { rst := false, start := true, blk := portOfBlock blk }

/-! Well-formedness (R28): a total of 4096 does not fit 12 bits, and the machine refuses the line. -/

theorem test_wf_total_too_wide : (Instr.selectOrder #v[0, 0, 4096, 0, 0, 0, 0, 0]).wf = false := by decide +kernel

theorem test_wf_total_widest : (Instr.selectOrder #v[0, 0, 4095, 0, 0, 0, 0, 4095]).wf = true := by decide +kernel

theorem test_wf_line_refused :
    refusedWith .operandWidth (step (withScript [.line (.selectOrder #v[0, 0, 4096, 0, 0, 0, 0, 0])])) = true := by
  decide +kernel

/-! Decoding: V-PORT, R85, R86, R91. -/

theorem test_decode_enc_ramp :
    decodeTableWord 128 0xC8BEB4AAA0968C82786E645A50463C32 = some (.encodeBlock ramp) := by decide +kernel

theorem test_decode_enc_checkerboard : decodeTableWord 128 0x00FF00FFFF00FF0000FF00FFFF00FF00 =
    some (.encodeBlock #v[0, 255, 0, 255, 255, 0, 255, 0, 0, 255, 0, 255, 255, 0, 255, 0]) := by decide +kernel

theorem test_decode_dec_pixel5 :
    decodeTableWord 52 0x500FF11441144 = some (.decodePixel #v[0x00, 0xFF, 0x11, 0x44, 0x11, 0x44] 5) := by decide +kernel

theorem test_decode_dec_pixel15 :
    decodeTableWord 52 0xFC83202AAFFD5 = some (.decodePixel #v[0xC8, 0x32, 0x02, 0xAA, 0xFF, 0xD5] 15) := by
  decide +kernel

theorem test_decode_palette_indices :
    [0b000, 0b001, 0b010, 0b011, 0b100, 0b101, 0b110, 0b111].map (decodeTableWord 3) =
      [some (.pal0 0 0 false), some (.pal1 0 0 false), some (.pal2 0 0 false), some (.pal3 0 0 false),
       some (.pal4 0 0 false), some (.pal5 0 0 false), some (.pal6 0 0 false), some (.pal7 0 0 false)] := by
  decide +kernel

theorem test_decode_palette_operands : decode .pal [2, 255, 7, 1] = .ok (.pal2 255 7 true) := by rfl

theorem test_decode_rejects_stray_bits :
    decode .dec [0x44, 0x11, 0x44, 0x11, 0xFF, 0x00, 0x10] = .error (.strayBits .dec) ∧
    decode .pal [8, 0, 0, 0] = .error (.strayBits .pal) ∧ decode .pal [0, 0, 0, 2] = .error (.strayBits .pal) :=
  ⟨rfl, rfl, rfl⟩

theorem test_decode_rejects_lengths :
    decode .enc [1, 2, 3] = .error (.wrongLength .enc) ∧ decode .dec [] = .error (.wrongLength .dec) ∧
    decode .pal [0] = .error (.wrongLength .pal) := ⟨rfl, rfl, rfl⟩

theorem test_encode_dec_pixel15 : encode (.decodePixel #v[0xC8, 0x32, 0x02, 0xAA, 0xFF, 0xD5] 15) =
    some (.dec, [0xD5, 0xFF, 0xAA, 0x02, 0x32, 0xC8, 0x0F]) := by decide +kernel

theorem test_first_step_runs_the_word :
    retOf (step (State.reset.withFetchWord 128 0xC8BEB4AAA0968C82786E645A50463C32)) =
      some (.cblock #v[0xC8, 0x32, 0x02, 0xAA, 0xFF, 0xD5]) := by decide +kernel

theorem test_wrong_bytes_refused :
    refusedWith (.notARequest (.wrongLength .enc)) (step (withScript [.request .enc [1, 2, 3]])) = true := by decide +kernel

/-! The palette's rows (V-PAL). -/

theorem test_pal0 : retOf (exec (.pal0 255 0 true) State.reset) = some (.entry 255) := by decide +kernel
theorem test_pal1 : retOf (exec (.pal1 255 1 true) State.reset) = some (.entry 1) := by decide +kernel
/-- `510/3`, not `254/3`. -/
theorem test_pal2 : retOf (exec (.pal2 255 0 false) State.reset) = some (.entry 170) := by decide +kernel
/-- `509/3` is not rounded up. -/
theorem test_pal2_truncates : retOf (exec (.pal2 254 1 false) State.reset) = some (.entry 169) := by decide +kernel
theorem test_pal3 : retOf (exec (.pal3 200 100 false) State.reset) = some (.entry 133) := by decide +kernel
theorem test_pal4 : retOf (exec (.pal4 200 100 true) State.reset) = some (.entry 200) := by decide +kernel
theorem test_pal4_unflipped : retOf (exec (.pal4 200 100 false) State.reset) = some (.entry 100) := by decide +kernel
theorem test_pal5 : retOf (exec (.pal5 200 100 true) State.reset) = some (.entry 100) := by decide +kernel
theorem test_pal5_unflipped : retOf (exec (.pal5 200 100 false) State.reset) = some (.entry 200) := by decide +kernel
theorem test_pal6 : retOf (exec (.pal6 255 0 false) State.reset) = some (.entry 127) := by decide +kernel
theorem test_pal7 : retOf (exec (.pal7 255 255 true) State.reset) = some (.entry 0) := by decide +kernel

theorem test_build_palette : retOf (exec (.buildPalette 0 255 true) State.reset) =
    some (.palette #v[0, 255, 85, 170, 0, 255, 127, 0]) := by decide +kernel

theorem test_build_palette_equal : retOf (exec (.buildPalette 255 255 true) State.reset) =
    some (.palette #v[255, 255, 255, 255, 255, 255, 255, 0]) := by decide +kernel

/-! The evaluator and the order (V-RES, V-TOT, V-ORD). -/

/-- Rows of pixels 12 and 0 of `mixed` (V-RES): `12 - 255` does not wrap. -/
theorem test_residuals_mixed :
    (residualTable mixed #v[255, 0, 170, 85, 0, 255, 127, 0])[0] = #v[243, 12, 158, 73, 12, 243, 115, 12] ∧
    (residualTable mixed #v[255, 0, 170, 85, 0, 255, 127, 0])[5] = #v[255, 0, 170, 85, 0, 255, 127, 0] := by
  decide +kernel

theorem test_residuals_runs : onNext (fun t => decide (t.ret = some (.residuals (residualTable mixed
    #v[255, 0, 170, 85, 0, 255, 127, 0])))) (exec (.residuals mixed #v[255, 0, 170, 85, 0, 255, 127, 0]) State.reset)
    = true := by decide +kernel

theorem test_totals_mixed :
    retOf (exec (.totals (residualTable mixed #v[255, 0, 170, 85, 0, 255, 127, 0])) State.reset) =
      some (.totals #v[2447, 1633, 1477, 1055, 1633, 2447, 1181, 1633]) := by decide +kernel

/-- The largest total, 4080. -/
theorem test_totals_white :
    (encTransients (constBlock 255)).tot = #v[0, 0, 0, 0, 0, 0, 0, 4080] := by decide +kernel

/-- Nine 255s: `S67 = 4336` does not fit 12 bits. -/
theorem test_select_order_thirteen_bits :
    retOf (exec (.selectOrder #v[1785, 2295, 1955, 2125, 2295, 1785, 2041, 2295]) State.reset) = some (.order true) := by
  decide +kernel

theorem test_select_order_equal_sums :
    retOf (exec (.selectOrder #v[0, 0, 4080, 4080, 0, 0, 4080, 4080]) State.reset) = some (.order false) := by
  decide +kernel

theorem test_select_endpoints : retOf (exec (.selectEndpoints true 200 50) State.reset) = some (.endpoints 200 50) := by
  decide +kernel

theorem test_select_endpoints_increasing :
    retOf (exec (.selectEndpoints false 90 0) State.reset) = some (.endpoints 0 90) := by decide +kernel

/-! The encoder (V-MM, V-CODE, V-PACK, V-ENC). -/

/-- 128 is not below 127: the comparison is unsigned. -/
theorem test_minmax_unsigned :
    retOf (exec (.minmax #v[128, 128, 128, 128, 128, 128, 128, 128, 128, 128, 128, 128, 128, 128, 128, 127]) State.reset) =
      some (.minmax 128 127) := by decide +kernel

theorem test_minmax_mixed : retOf (exec (.minmax mixed) State.reset) = some (.minmax 255 0) := by decide +kernel

/-- Lines of V-CODE: the lowest offset wins a tie. -/
theorem test_select_code_ties :
    [#v[165, 90, 80, 5], #v[90, 165, 37, 90], #v[0, 255, 127, 0], #v[0, 0, 0, 0], #v[17, 83, 17, 50], #v[50, 50, 16, 17],
     #v[1, 0, 0, 0], #v[5, 5, 5, 5], #v[9, 3, 3, 9], #v[9, 8, 7, 7]].map firstMinimum =
      [3, 2, 0, 0, 0, 2, 1, 0, 1, 2] := by decide +kernel

theorem test_select_code_lowdark :
    retOf (exec (.selectCode false (residualTable lowdark #v[90, 0, 60, 30, 0, 90, 45, 0])) State.reset) =
      some (.codes #v[0, 0, 0, 0, 0, 0, 0, 0, 0, 0, 0, 0, 0, 0, 0, 1]) := by decide +kernel

theorem test_pack_codewords :
    retOf (exec (.packCodewords #v[0, 1, 2, 3, 3, 2, 1, 0, 1, 1, 1, 1, 2, 2, 2, 2]) State.reset) =
      some (.codeword 0xAA551BE4) := by decide +kernel

theorem test_pack_codewords_pixel15 :
    retOf (exec (.packCodewords #v[0, 0, 0, 0, 0, 0, 0, 0, 0, 0, 0, 0, 0, 0, 0, 3]) State.reset) =
      some (.codeword 0xC0000000) := by decide +kernel

theorem test_emit_block : retOf (exec (.emitBlock 0xC8 0x64 0xAA551BE4) State.reset) =
    some (.cblock #v[0xC8, 0x64, 0xAA, 0x55, 0x1B, 0xE4]) := by decide +kernel

theorem test_encode_block_mixed : retOf (exec (.encodeBlock mixed) State.reset) =
    some (.cblock #v[0xFF, 0x00, 0xB4, 0x6F, 0xE4, 0xD9]) := by decide +kernel

theorem test_encode_block_lowdark : retOf (exec (.encodeBlock lowdark) State.reset) =
    some (.cblock #v[0x00, 0x5A, 0x40, 0x00, 0x00, 0x00]) := by decide +kernel

/-! The decoder (V-DEC, V-DEC16). -/

theorem test_unpack_block : retOf (exec (.unpackBlock #v[0xC8, 0x64, 0xAA, 0x55, 0x1B, 0xE4]) State.reset) =
    some (.unpacked 0xC8 0x64 0xAA551BE4) := by decide +kernel

theorem test_extract_code : retOf (exec (.extractCode 0x80000001 15) State.reset) = some (.code 2) := by decide +kernel

theorem test_extract_code_pixel1 : retOf (exec (.extractCode 0x1B1B1B1B 5) State.reset) = some (.code 2) := by
  decide +kernel

/-- Equal endpoints take the upper half. -/
theorem test_select_index_equal : retOf (exec (.selectIndex 10 10 3) State.reset) = some (.index true 7) := by
  decide +kernel

theorem test_select_index_lower : retOf (exec (.selectIndex 0xC8 0x64 2) State.reset) = some (.index false 2) := by
  decide +kernel

/-- Index 4 is `val0`, not `val1`. -/
theorem test_palette_lookup_flip : retOf (exec (.paletteLookup 0x64 0xC8 4) State.reset) = some (.pixel 100) := by
  decide +kernel

theorem test_palette_lookup_last : retOf (exec (.paletteLookup 0x64 0xC8 7) State.reset) = some (.pixel 0) := by
  decide +kernel

theorem test_decode_pixel_swapped :
    retOf (exec (.decodePixel #v[0x34, 0x12, 0x80, 0x00, 0x00, 0x01] 15) State.reset) = some (.pixel 40) := by
  decide +kernel

theorem test_decode_pixel_equal_code3 :
    retOf (exec (.decodePixel #v[0x0A, 0x0A, 0x00, 0x00, 0x00, 0xE4] 3) State.reset) = some (.pixel 0) := by
  decide +kernel

theorem test_decode_block16 : retOf (exec (.decodeBlock16 #v[0xFF, 0x00, 0xB4, 0x6F, 0xE4, 0xD9]) State.reset) =
    some (.block #v[0, 170, 0, 85, 255, 0, 170, 85, 85, 85, 170, 0, 255, 0, 85, 170]) := by decide +kernel

/-! The host procedures (P1, P2, V-ERR). -/

/-- IMG and CMP of program P1. -/
def p1Image : List Byte :=
  [10, 10, 10, 10, 0, 255, 0, 255, 10, 10, 10, 10, 255, 0, 255, 0] ++
  [10, 10, 10, 10, 0, 255, 0, 255, 10, 10, 10, 10, 255, 0, 255, 0]
def p1Compressed : List Byte := [0x0A, 0x0A, 0x00, 0x00, 0x00, 0x00, 0x00, 0xFF, 0x11, 0x44, 0x11, 0x44]

theorem test_encode_image_p1 :
    onNext (fun t => decide (t.cmp = Memory.ofBytes p1Compressed) && decide (t.outcome = some .success) &&
      decide (t.enc.cb = #v[0x00, 0xFF, 0x11, 0x44, 0x11, 0x44]) && decide (t.dec = DecUnit.afterReset 0))
      (exec .encodeImage (withImages 8 4 p1Image [])) = true := by decide +kernel

theorem test_decode_image_p2 :
    onNext (fun t => decide (t.img = Memory.ofBytes p1Image) && decide (t.outcome = some .success) &&
      decide (t.dec.px = 0) && decide (t.enc = EncUnit.afterReset 0))
      (exec .decodeImage (withImages 8 4 [] p1Compressed)) = true := by decide +kernel

theorem test_encode_image_width5 :
    onNext (fun t => decide (t.cmp = Memory.ofBytes [1, 2, 3]) && decide (t.enc.ph = .idle) &&
      decide (t.outcome = some (.invalidDimensions 5 4 none)))
      (exec .encodeImage (withImages 5 4 (List.replicate 20 0) [1, 2, 3])) = true := by decide +kernel

theorem test_decode_image_cmp5 :
    onNext (fun t => decide (t.outcome = some (.invalidDimensions 4 4 (some 5))) && decide (t.img.size = 0))
      (exec .decodeImage (withImages 4 4 [] [1, 2, 3, 4, 5])) = true := by decide +kernel

theorem test_encode_image_short_img :
    refusedWith .imageLength (exec .encodeImage (withImages 4 4 (List.replicate 15 0) [])) = true := by decide +kernel

theorem test_decode_image_extra_byte :
    onNext (fun t => decide (t.img = Memory.ofBytes (List.replicate 16 7)))
      (exec .decodeImage (withImages 4 4 [] [7, 7, 0, 0, 0, 0, 9])) = true := by decide +kernel

/-! The handshake (V-HS), with `ENC_LATENCY = 2`. -/

/-- Sequence H3: the phases after edges 2 to 7 and the last result. -/
theorem test_handshake_h3 :
    let u2 := encEdgeWith 2 (ask ramp) (EncUnit.afterReset 0)
    let u3 := encEdgeWith 2 encQuiet u2
    let u4 := encEdgeWith 2 (ask bimodal) u3
    let u5 := encEdgeWith 2 (ask bimodal) u4
    let u7 := encEdgeWith 2 encQuiet (encEdgeWith 2 encQuiet u5)
    [u2.ph, u3.ph, u4.ph, u5.ph, u7.ph] = [.busy, .busy, .done, .busy, .done] ∧
    u4.cb = #v[0xC8, 0x32, 0x02, 0xAA, 0xFF, 0xD5] ∧ u7.cb = #v[0xC8, 0x28, 0x55, 0x00, 0x00, 0x00] := by
  decide +kernel

/-- Sequence H2: the request at edge 3 is ignored. -/
theorem test_handshake_h2 :
    let u := encEdgeWith 2 encQuiet (encEdgeWith 2 (ask bimodal) (encEdgeWith 2 (ask ramp) (EncUnit.afterReset 0)))
    u.ph = .done ∧ u.cb = #v[0xC8, 0x32, 0x02, 0xAA, 0xFF, 0xD5] := by decide +kernel

/-- Sequence H4: reset wins over start, and abandons a request in flight. -/
theorem test_handshake_h4 :
    (encEdgeWith 2 { ask ramp with rst := true } (EncUnit.afterReset 0)).ph = .idle ∧
    (encEdgeWith 2 { encQuiet with rst := true } (encEdgeWith 2 (ask ramp) (EncUnit.afterReset 0))).ph = .idle := by
  decide +kernel

/-- Sequence H5 with `DEC_LATENCY = 1`. -/
theorem test_handshake_h5 :
    let p : DecPorts := { rst := false, start := true, cb := 0x00FF11441144, pix := 4 }
    let u := decEdgeWith 1 p (DecUnit.afterReset 0)
    u.ph = .busy ∧ (decEdgeWith 1 decQuiet u).ph = .done ∧ (decEdgeWith 1 decQuiet u).px = 255 := by decide +kernel

theorem test_rst_enc : onNext (fun t => decide (t.enc.ph = .idle)) (exec (.rst .enc)
    { State.reset with enc := { EncUnit.afterReset 0 with ph := .busy } }) = true := by rfl

theorem test_rst_dec : onNext (fun t => decide (t.dec.ph = .idle)) (exec (.rst .dec)
    { State.reset with dec := { DecUnit.afterReset 0 with ph := .done } }) = true := by rfl

theorem test_result_outside_done :
    refusedWith .resultNotValid (step (withScript [.readResult .enc])) = true ∧
    refusedWith .resultNotValid (step (withScript [.readResult .dec])) = true := by decide +kernel

theorem test_outcome_codes :
    [ProcOutcome.success, .invalidDimensions 5 4 none, .unsupportedInputFormat, .malformedArguments].map ProcOutcome.code =
      [0, 1, 2, 3] := by rfl

/-! Witnesses: for each statement with hypotheses, data that meets them. -/

/-- A unit in BUSY and one in DONE. -/
def busyEnc : EncUnit := { EncUnit.afterReset 0 with blk := ramp, ph := .busy, seq := 1 }
def doneEnc : EncUnit := { EncUnit.afterReset 0 with blk := ramp, cb := encodeBlock ramp, ph := .done, seq := 1 }
def busyDec : DecUnit := { DecUnit.afterReset 0 with ph := .busy, seq := 1 }
def doneDec : DecUnit := { DecUnit.afterReset 0 with ph := .done, seq := 1 }

/-- Dimensions at both sides of the check. -/
theorem dims_4_4 : PositiveMultipleOf4 4 ∧ PositiveMultipleOf4 4 := ⟨⟨1, by omega, rfl⟩, ⟨1, by omega, rfl⟩⟩
theorem dims_8_4 : PositiveMultipleOf4 8 ∧ PositiveMultipleOf4 4 := ⟨⟨2, by omega, rfl⟩, ⟨1, by omega, rfl⟩⟩
theorem dims_not_0 : ¬ PositiveMultipleOf4 0 := fun ⟨k, hk, h⟩ => by omega
theorem dims_not_5 : ¬ PositiveMultipleOf4 5 := fun ⟨k, hk, h⟩ => by omega

theorem test_witness_BuildPalette : ∃ a b : Byte, a = b ∧ a ≠ 0 := ⟨10, 10, rfl, by decide⟩

theorem test_witness_PaletteEntries :
    ((2 : Fin 8).val = 2 ∨ (2 : Fin 8).val = 3 ∨ (2 : Fin 8).val = 6) ∧ (0 : Byte).toNat ≤ (255 : Byte).toNat := by decide

theorem test_witness_DecoderPalette_decreasing : (encTransients ramp).decr = true := by decide +kernel
theorem test_witness_DecoderPalette_increasing : (encTransients lowdark).decr = false := by decide +kernel

theorem test_witness_Residuals :
    (residualTable nineWhite #v[255, 0, 170, 85, 0, 255, 127, 0])[0][1].toNat = 255 ∧
    (residualTable nineWhite #v[255, 0, 170, 85, 0, 255, 127, 0])[9][0].toNat = 255 ∧
    (#v[255, 0, 170, 85, 0, 255, 127, 0] : Palette)[7] = 0 := by decide +kernel

theorem test_witness_SelectOrder : ∃ t t' : Totals, t ≠ t' ∧ t[2] = t'[2] ∧ t[3] = t'[3] ∧ t[6] = t'[6] ∧ t[7] = t'[7] :=
  ⟨#v[0, 0, 1, 1, 0, 0, 1, 1], #v[9, 0, 1, 1, 0, 0, 1, 1], by decide⟩

theorem test_witness_SelectEndpoints : (50 : Byte).toNat ≤ (200 : Byte).toNat ∧ (7 : Byte).toNat ≤ (7 : Byte).toNat := by
  decide

/-- Both sides of the threshold, `m = 8` and `m = 9` (S4). -/
theorem test_witness_TwoValued_8 :
    (∀ i : Fin 16, eightWhite[i] = 0 ∨ eightWhite[i] = 255) ∧ (∃ i : Fin 16, eightWhite[i] = 0) ∧
    (∃ i : Fin 16, eightWhite[i] = 255) ∧ 8 = eightWhite.toList.countP (fun p => decide (p = 255)) ∧
    (encTransients eightWhite).decr = false := by decide +kernel

theorem test_witness_TwoValued_9 :
    (∀ i : Fin 16, nineWhite[i] = 0 ∨ nineWhite[i] = 255) ∧ (∃ i : Fin 16, nineWhite[i] = 0) ∧
    (∃ i : Fin 16, nineWhite[i] = 255) ∧ 9 = nineWhite.toList.countP (fun p => decide (p = 255)) ∧
    (encTransients nineWhite).decr = true := by decide +kernel

theorem test_witness_MinMax : ∃ blk : Block, blk = constBlock 7 := ⟨_, rfl⟩

theorem test_witness_SelectCode : ∃ r r' : ResTable, r ≠ r' ∧
    (∀ (i : Fin 16) (j : Fin 8), (j.val < 4 ↔ true = true) → r[i][j] = r'[i][j]) :=
  ⟨residualTable ramp #v[1, 2, 3, 4, 5, 6, 7, 8], residualTable ramp #v[1, 2, 3, 4, 5, 6, 7, 9], by decide +kernel,
    by decide +kernel⟩

theorem test_witness_PackCodewords : ∃ cw cw' : CodeWord,
    ∀ i : Fin 16, cw.extractLsb' (2 * i.val) 2 = cw'.extractLsb' (2 * i.val) 2 := ⟨0xAA551BE4, 0xAA551BE4, fun _ => rfl⟩

theorem test_witness_PaletteLookup : (0 : PalIdx) = 0 ∧ (7 : PalIdx) = 7 := ⟨rfl, rfl⟩

/-- Each code in each half (V-DEC). -/
theorem test_witness_DecodePixel :
    [0, 1, 2, 3].map (fun p : PixIdx => (unpackCodeword #v[0xC8, 0x64, 0, 0, 0, 0xE4]).extractLsb' (2 * p.toNat) 2) =
      [0, 1, 2, 3] ∧
    (0x64 : Byte).toNat < (0xC8 : Byte).toNat ∧ (0x0A : Byte).toNat ≤ (0x0A : Byte).toNat := by decide +kernel

theorem test_witness_DecodePixel_same_lane : ∃ cb cb' : CBlock, cb ≠ cb' ∧ cb[0] = cb'[0] ∧ cb[1] = cb'[1] ∧
    (unpackCodeword cb).extractLsb' (2 * (3 : PixIdx).toNat) 2 = (unpackCodeword cb').extractLsb' (2 * (3 : PixIdx).toNat) 2 :=
  ⟨#v[1, 2, 0, 0, 0, 0xE4], #v[1, 2, 9, 9, 9, 0xC0], by decide +kernel⟩

theorem test_witness_NeverProduces :
    (encodeBlock (constBlock 10))[0] = (encodeBlock (constBlock 10))[1] ∧
    (encodeBlock lowdark)[0].toNat < (encodeBlock lowdark)[1].toNat ∧
    (encodeBlock ramp)[1].toNat < (encodeBlock ramp)[0].toNat := by decide +kernel

theorem test_witness_OutputInvariants : ramp[15] = blockMax ramp ∧ ramp[0] = blockMin ramp := by decide +kernel

theorem test_witness_image_dims_bad :
    ¬ (PositiveMultipleOf4 (withImages 0 4 [] []).width ∧ PositiveMultipleOf4 (withImages 0 4 [] []).height) ∧
    ¬ (PositiveMultipleOf4 (withImages 4 5 [] []).width ∧ PositiveMultipleOf4 (withImages 4 5 [] []).height) :=
  ⟨fun h => dims_not_0 h.1, fun h => dims_not_5 h.2⟩

theorem test_witness_EncodeImage_wrong_length :
    (PositiveMultipleOf4 (withImages 4 4 [] []).width ∧ PositiveMultipleOf4 (withImages 4 4 [] []).height) ∧
    (withImages 4 4 (List.replicate 15 0) []).img.size ≠ 4 * 4 ∧ (withImages 4 4 (List.replicate 17 0) []).img.size ≠ 4 * 4 :=
  ⟨dims_4_4, by decide +kernel⟩

/-- Also of EncodeThenDecodeReconstructsTheImage and of the first half of OrderOfWorkDoesNotMatter and of EveryInstructionRuns. -/
theorem test_witness_EncodeImage :
    (PositiveMultipleOf4 (withImages 8 4 p1Image []).width ∧ PositiveMultipleOf4 (withImages 8 4 p1Image []).height) ∧
    (withImages 8 4 p1Image []).img.size = 8 * 4 := ⟨dims_8_4, by decide +kernel⟩

/-- One byte short, just long enough, one byte more. -/
theorem test_witness_DecodeImage :
    (PositiveMultipleOf4 (withImages 8 4 [] []).width ∧ PositiveMultipleOf4 (withImages 8 4 [] []).height) ∧
    (withImages 8 4 [] (p1Compressed.drop 1)).cmp.size < 8 / 4 * (4 / 4) * 6 ∧
    8 / 4 * (4 / 4) * 6 ≤ (withImages 8 4 [] p1Compressed).cmp.size ∧
    8 / 4 * (4 / 4) * 6 ≤ (withImages 8 4 [] (0 :: p1Compressed)).cmp.size := ⟨dims_8_4, by decide +kernel⟩

/-- Two buffers that agree on the needed twelve bytes and differ beyond. -/
theorem test_witness_DecodeImage_extra :
    12 ≤ (Memory.ofBytes (p1Compressed ++ [9])).size ∧ Memory.ofBytes (p1Compressed ++ [9]) ≠ Memory.ofBytes p1Compressed ∧
    ∀ a < 12, (Memory.ofBytes (p1Compressed ++ [9])).readByte a = (Memory.ofBytes p1Compressed).readByte a := by
  decide +kernel

theorem test_witness_OrderOfWork :
    [(4, 0), (0, 0)].Perm (blockOrigins 8 4) ∧ (pixelOrder 4 4).reverse.Perm (pixelOrder 4 4) :=
  ⟨by decide +kernel, List.reverse_perm _⟩

/-- Reset with a request at the same edge. -/
theorem test_witness_ResetEdge :
    (withScript [.encEdge { ask ramp with rst := true }]).script = .encEdge { ask ramp with rst := true } :: [] ∧
    ({ ask ramp with rst := true } : EncPorts).rst = true ∧
    (withScript [.decEdge { decQuiet with rst := true }]).script = .decEdge { decQuiet with rst := true } :: [] ∧
    ({ decQuiet with rst := true } : DecPorts).rst = true := ⟨rfl, rfl, rfl, rfl⟩

theorem test_witness_ResetAbandons :
    ({ State.reset with enc := busyEnc } : State).script = [] ∧
    (exec (.rst .enc) { State.reset with enc := busyEnc }) =
      .next { State.reset with enc := encReset busyEnc, ret := none } := ⟨rfl, rfl⟩

/-- A request in IDLE, in DONE and in BUSY, and an edge without one. -/
theorem test_witness_EncAccepts :
    (withScript [.encEdge (ask ramp)]).script = .encEdge (ask ramp) :: [] ∧ (ask ramp).rst = false ∧
    (ask ramp).start = true ∧ (withScript [.encEdge (ask ramp)]).enc.ph ≠ .busy ∧ doneEnc.ph ≠ .busy ∧
    busyEnc.ph = .busy ∧ encQuiet.start = false := by decide +kernel

theorem test_witness_DecAccepts :
    (withScript [.decEdge decQuiet]).script = .decEdge decQuiet :: [] ∧ decQuiet.rst = false ∧ decQuiet.start = false ∧
    ({ decQuiet with start := true } : DecPorts).start = true ∧ (withScript [.decEdge decQuiet]).dec.ph ≠ .busy ∧
    doneDec.ph ≠ .busy ∧ busyDec.ph = .busy := by decide +kernel

/-- Reset, accept and complete are edges that change the phase. -/
theorem test_witness_PhasesChange :
    (withScript [.readStatus .enc]).script = .readStatus .enc :: [] ∧
    (withScript [.readStatus .dec]).script = .readStatus .dec :: [] ∧
    ({ encQuiet with rst := true } : EncPorts).rst = true ∧ ({ decQuiet with rst := true } : DecPorts).rst = true ∧
    (encEdge (ask ramp) (EncUnit.afterReset 0)).ph ≠ (EncUnit.afterReset 0).ph ∧ (ask ramp).rst = false ∧
    (decEdge { decQuiet with start := true } doneDec).ph ≠ doneDec.ph :=
  ⟨rfl, rfl, rfl, rfl, by simp [encEdge, encEdgeWith, ask, EncUnit.afterReset, encAccept], rfl,
    by simp [decEdge, decEdgeWith, decQuiet, doneDec, decAccept]⟩

theorem test_witness_ResultsRead :
    ({ withScript [.readResult .enc] with enc := doneEnc } : State).script = .readResult .enc :: [] ∧ doneEnc.ph = .done ∧
    busyEnc.ph ≠ .done ∧ ({ withScript [.readResult .dec] with dec := doneDec } : State).script = .readResult .dec :: [] ∧
    doneDec.ph = .done ∧ busyDec.ph ≠ .done ∧ encQuiet.rst = false ∧ encQuiet.start = false ∧ decQuiet.rst = false ∧
    decQuiet.start = false := by decide +kernel

theorem test_witness_EncodeBlockEdges :
    (withScript [.encEdge { rst := false, start := true, blk := portOfBlock ramp }]).enc.ph ≠ .busy ∧
    (withScript [.encEdge { rst := false, start := true, blk := portOfBlock ramp }]).script =
      [.encEdge { rst := false, start := true, blk := portOfBlock ramp }] := ⟨by decide, rfl⟩

theorem test_witness_DecodePixelEdges :
    let p : DecPorts := { rst := false, start := true, cb := portOfCblock #v[0, 255, 0x11, 0x44, 0x11, 0x44], pix := 5 }
    (withScript [.decEdge p]).dec.ph ≠ .busy ∧ (withScript [.decEdge p]).script = [.decEdge p] := ⟨by decide, rfl⟩

theorem test_witness_Completes :
    ({ State.reset with enc := busyEnc, dec := busyDec } : State).script = [] ∧ busyEnc.ph = .busy ∧ busyDec.ph = .busy :=
  ⟨rfl, rfl, rfl⟩

theorem test_witness_StepRuns :
    decode .pal [2, 255, 7, 1] = .ok (.pal2 255 7 true) ∧
    (withScript [.request .pal [2, 255, 7, 1]]).script = .request .pal [2, 255, 7, 1] :: [] ∧
    (Instr.selectOrder #v[0, 0, 4095, 0, 0, 0, 0, 4095]).wf = true ∧
    (withScript [.line (.selectOrder #v[0, 0, 4095, 0, 0, 0, 0, 4095])]).script =
      .line (.selectOrder #v[0, 0, 4095, 0, 0, 0, 0, 4095]) :: [] ∧
    decodeTableWord 3 0b010 = some (.pal2 0 0 false) :=
  ⟨rfl, rfl, by decide +kernel, rfl, by decide +kernel⟩

theorem enc_reset_ok : (EncUnit.afterReset 0).Ok :=
  ⟨fun h => absurd h (by decide), fun h => absurd h (by decide), fun _ => rfl⟩
theorem dec_reset_ok : (DecUnit.afterReset 0).Ok :=
  ⟨fun h => absurd h (by decide), fun h => absurd h (by decide), fun _ => rfl⟩
theorem enc_done_ok : doneEnc.Ok := ⟨fun _ => rfl, fun h => absurd h (by decide), fun _ => rfl⟩

/-- The machine after reset with another ENC unit, a script and calls under way meets the invariant when they do. -/
theorem inv_with {u : EncUnit} {as : List Action} {ks : List Call} (hu : u.Ok) (hk : ∀ k ∈ ks, k.Ok) :
    ({ State.reset with enc := u, script := as, calls := ks } : State).Inv := by
  refine ⟨rfl, rfl, hu, dec_reset_ok, ?_, ?_, ?_, hk⟩
  · intro v hv; cases hv
  · intro v hv; cases hv
  · intro o ho; cases ho

/-- A state of the invariant other than reset, from which a step gives a next state. -/
theorem test_witness_Invariant :
    ({ State.reset with enc := doneEnc } : State).Inv ∧
    step { State.reset with enc := doneEnc } = .next (quietEdge { State.reset with enc := doneEnc }) :=
  ⟨inv_with enc_done_ok (fun k hk => by cases hk), rfl⟩

/-- Calls on the image of P1: one that has just begun, one whose second block is still to do, one that is done; and one of
DECODE_IMAGE that has just begun. -/
def newCall : Call := Call.newEncode (withImages 8 4 p1Image [])
def halfCall : Call :=
  { newCall with cmp := Memory.ofBytes [0x0A, 0x0A, 0, 0, 0, 0, 0, 0, 0, 0, 0, 0], todo := [(4, 0)] }
def doneCall : Call := { newCall with cmp := Memory.ofBytes p1Compressed, todo := [] }
def newDecodeCall : Call := Call.newDecode (withImages 4 4 [] [7, 7, 0, 0, 0, 0])

theorem newCall_ok : newCall.Ok := by
  refine ⟨dims_8_4.1, dims_8_4.2, by decide +kernel, by decide +kernel, by decide +kernel, by decide +kernel, fun _ h => h, ?_⟩
  intro i j (hi : i < 2) (hj : j < 1) h
  exfalso
  apply h
  interval_cases i <;> interval_cases j <;> decide +kernel

theorem doneCall_ok : doneCall.Ok := by
  refine ⟨dims_8_4.1, dims_8_4.2, by decide +kernel, by decide +kernel, by decide +kernel, by decide +kernel,
    fun _ h => absurd h List.not_mem_nil, ?_⟩
  intro i j (hi : i < 2) (hj : j < 1) _
  interval_cases i <;> interval_cases j <;> decide +kernel

/-- Worker 1 of a call stores block 1 at CMP+6 (P1), and the call under way beside it stays. -/
theorem test_work_on_block1 :
    onNext (fun t => decide (t.calls = [newDecodeCall, doneCall]) && decide (t.enc.ph = .done) &&
      decide (t.dec = DecUnit.afterReset 0) && decide (t.cmp = State.reset.cmp))
      (step { withScript [.workOn 1 (4, 0)] with calls := [newDecodeCall, halfCall] }) = true := by decide +kernel

theorem test_work_on_pixel :
    onNext (fun t => decide (t.dec.px = 7) && decide (t.calls.map (fun k => k.todo.length) = [15, 1]) &&
      decide (t.enc = EncUnit.afterReset 0))
      (step { withScript [.workOn 0 (3, 3)] with calls := [newDecodeCall, halfCall] }) = true := by decide +kernel

/-- A block that is done already is not done again (R58). -/
theorem test_work_once :
    refusedWith .notToDo (step { withScript [.workOn 0 (0, 0)] with calls := [halfCall] }) = true ∧
    refusedWith .notFinished (step { withScript [.endCall 0] with calls := [halfCall] }) = true ∧
    refusedWith .noSuchCall (step { withScript [.endCall 1] with calls := [halfCall] }) = true := by decide +kernel

theorem test_end_call :
    onNext (fun t => decide (t.ret = some (.bytes p1Compressed)) && decide (t.outcome = some .success) &&
      decide (t.calls = [newDecodeCall]))
      (step { withScript [.endCall 1] with calls := [newDecodeCall, doneCall] }) = true := by decide +kernel

/-- Beginning a call checks first: width 5 raises, good dimensions begin. -/
theorem test_begin_call :
    onNext (fun t => decide (t.outcome = some (.invalidDimensions 5 4 none)) && decide (t.calls = []))
      (beginCall .encodeImage (withImages 5 4 [] [])) = true ∧
    onNext (fun t => decide (t.calls = [newCall]) && decide (t.img = Memory.ofBytes p1Image))
      (beginCall .encodeImage (withImages 8 4 p1Image [])) = true ∧
    onNext (fun t => decide (t.outcome = some (.invalidDimensions 4 4 (some 5))))
      (beginCall .decodeImage (withImages 4 4 [] [1, 2, 3, 4, 5])) = true := by decide +kernel

/-- A state of the invariant with a call that has just begun. -/
theorem test_witness_CallsRun :
    ({ withScript [.workOn 0 (0, 0)] with calls := [newCall] } : State).Inv ∧
    ({ withScript [.workOn 0 (0, 0)] with calls := [newCall] } : State).script = .workOn 0 (0, 0) :: [] ∧
    ([newCall] : List Call)[0]? = some newCall ∧ (0, 0) ∈ newCall.todo :=
  ⟨inv_with enc_reset_ok (fun k hk => by rw [List.mem_singleton.mp hk]; exact newCall_ok), rfl, rfl, by decide +kernel⟩

/-- A state of the invariant with a call that is done; and both sides of the checks of beginning one. -/
theorem test_witness_CallsReturn :
    ({ withScript [.endCall 0] with calls := [doneCall] } : State).Inv ∧
    ({ withScript [.endCall 0] with calls := [doneCall] } : State).script = .endCall 0 :: [] ∧
    ([doneCall] : List Call)[0]? = some doneCall ∧ doneCall.todo = [] ∧
    (withScript [.beginCall .encodeImage]).script = .beginCall .encodeImage :: [] ∧
    (PositiveMultipleOf4 (withImages 8 4 p1Image []).width ∧ PositiveMultipleOf4 (withImages 8 4 p1Image []).height ∧
      (withImages 8 4 p1Image []).img.size = 8 * 4) ∧ ¬ PositiveMultipleOf4 (withImages 5 4 [] []).width :=
  ⟨inv_with enc_reset_ok (fun k hk => by rw [List.mem_singleton.mp hk]; exact doneCall_ok), rfl, rfl, rfl, rfl,
    ⟨dims_8_4.1, dims_8_4.2, by decide +kernel⟩, dims_not_5⟩

theorem test_witness_AfterReset : (State.platform 3 2).encPool.map EncUnit.tag = [1, 2] ∧
    (State.platform 3 2).decPool.map DecUnit.tag = [1] := by decide +kernel

theorem test_witness_EncWork :
    1 ≤ (withScript [.encEdge (ask ramp), .line (.encodeBlock bimodal)]).script.length ∧
    (∀ a ∈ (withScript [.encEdge (ask ramp), .line (.encodeBlock bimodal)]).script, encOnly a = true) ∧
    onNext (fun t => decide (t.script.length = 1))
      (Sys2Proof.core.run 1 (withScript [.encEdge (ask ramp), .line (.encodeBlock bimodal)])) = true :=
  ⟨by decide, by decide, rfl⟩

theorem test_witness_DecWork :
    1 ≤ (withScript [.decEdge decQuiet, .readStatus .dec]).script.length ∧
    (∀ a ∈ (withScript [.decEdge decQuiet, .readStatus .dec]).script, decOnly a = true) ∧
    onNext (fun t => decide (t.script.length = 1))
      (Sys2Proof.core.run 1 (withScript [.decEdge decQuiet, .readStatus .dec])) = true :=
  ⟨by decide, by decide, rfl⟩

/-- Reading a result is an action that touches no unit and answers a next state in DONE. -/
theorem test_witness_HostActions :
    touchesNoUnit (.readResult .enc) = true ∧
    onNext (fun _ => true) (step { withScript [.readResult .enc] with enc := doneEnc }) = true := ⟨rfl, rfl⟩

theorem test_witness_Frame :
    onNext (fun _ => true) (exec (.encodeBlock ramp) State.reset) = true ∧ drivesEnc (.decodeBlock16 #v[0, 0, 0, 0, 0, 0]) = false ∧
    drivesDec (.encodeBlock ramp) = false ∧ Instr.rst .enc ≠ .encodeImage ∧ Instr.rst .enc ≠ .decodeImage :=
  ⟨rfl, rfl, rfl, (fun h => by cases h), (fun h => by cases h)⟩

theorem test_witness_DecodeOfEncode :
    encode (.pal5 200 100 true) = some (.pal, [5, 200, 100, 1]) ∧ decode .pal [5, 200, 100, 1] = .ok (.pal5 200 100 true) :=
  ⟨rfl, rfl⟩

/-- Pixels of V-IMG: `(13, 2)` of a 16 by 4 image and `(6, 5)` of an 8 by 8 image. -/
theorem test_witness_Addresses :
    pixelAddr 16 13 2 = 45 ∧ blockIndex 16 13 2 = 3 ∧ pixelIndex 13 2 = 9 ∧ pixelAddr 8 6 5 = 46 ∧ blockIndex 8 6 5 = 3 ∧
    pixelIndex 6 5 = 6 ∧ (6 < 8 ∧ 5 < 8) ∧ 1 < 8 / 4 ∧ 15 < 16 := by decide

theorem test_witness_TurningTo :
    let s : State := { State.platform 2 2 with script := [.turnTo .enc 0] }
    let s' : State := { State.platform 2 2 with script := [.turnTo .dec 0] }
    s.script = .turnTo .enc 0 :: [] ∧ s.encPool[0]? = some (EncUnit.afterReset 1) ∧
    s'.script = .turnTo .dec 0 :: [] ∧ s'.decPool[0]? = some (DecUnit.afterReset 1) := by decide +kernel

/-- A store, and accesses that end one byte past a buffer of four bytes. -/
theorem test_witness_Buffers :
    let m := Memory.ofBytes [1, 2, 3, 4]
    let s : State := { withScript [.memRead .img 1 4] with img := m }
    let s' : State := { withScript [.memWrite .img 3 [0, 9]] with img := m }
    m.wf = true ∧ m.write 2 [0, 9] = some (Memory.ofBytes [1, 2, 0, 9]) ∧
    s.script = .memRead .img 1 4 :: [] ∧ 0 < 4 ∧ (s.buffer .img).size < 1 + 4 ∧
    s'.script = .memWrite .img 3 [0, 9] :: [] ∧ (s'.buffer .img).size < 3 + 2 := by decide +kernel

/-- Accesses that end at the last byte. -/
theorem test_witness_Buffers_inside :
    let s : State := { withScript [.memRead .img 1 3] with img := Memory.ofBytes [1, 2, 3, 4] }
    let s' : State := { withScript [.memWrite .img 3 [9]] with img := Memory.ofBytes [1, 2, 3, 4] }
    s.script = .memRead .img 1 3 :: [] ∧ 1 + 3 ≤ (s.buffer .img).size ∧ s'.script = .memWrite .img 3 [9] :: [] ∧
    3 + 1 ≤ (s'.buffer .img).size ∧ (withScript [.supply .cmp [5]]).script = .supply .cmp [5] :: [] ∧
    (withScript [.supply .img [5]]).script = .supply .img [5] :: [] ∧
    (withScript [.setDims 8 4]).script = .setDims 8 4 :: [] ∧ retOf (step s) = some (.bytes [2, 3, 4]) := by decide +kernel

theorem test_buffer_end_faults :
    faultsWith .outsideBuffer (step { withScript [.memRead .img 1 4] with img := Memory.ofBytes [1, 2, 3, 4] }) = true := by
  decide +kernel

end Sys2Proof.Tests
end

section
/-!
SUPPORT. Runs of steps, and the clock edges of one unit when nothing is asked of it: a BUSY unit ages edge by edge and
completes at the edge that reaches its latency (R158, R178).
-/

namespace Sys2Proof.Machine

/-- One step of a run, split off at the front. -/
theorem run_succ {s s' : State} (h : step s = .next s') (n : Nat) : Sys2Proof.core.run (n + 1) s = Sys2Proof.core.run n s' := by
  simp only [Host.Core.run, show Sys2Proof.core.step s = .next s' from h]

/-- A run that answers a next state after `n + 1` steps has a first step. -/
theorem exists_step_of_run_succ {s t : State} {n : Nat} (h : Sys2Proof.core.run (n + 1) s = .next t) :
    ∃ s', step s = .next s' ∧ Sys2Proof.core.run n s' = .next t := by
  simp only [Host.Core.run] at h
  split at h
  · rename_i s' hs; exact ⟨s', hs, h⟩
  · cases h
  · cases h

/-- A host with nothing to do lets the platform's clocks run. -/
theorem run_quiet {s : State} (h : s.script = []) (n : Nat) : Sys2Proof.core.run n s = .next (quietEdge^[n] s) := by
  induction n generalizing s with
  | zero => rfl
  | succ n ih => rw [run_succ (step_quiet h), ih (s := quietEdge s) h, Function.iterate_succ_apply]

/-- Over quiet edges of the platform, the ENC unit in hand sees quiet edges of its own clock and nothing else. -/
theorem quietEdge_iterate_enc (n : Nat) (s : State) : (quietEdge^[n] s).enc = (encEdge encQuiet)^[n] s.enc :=
  (Function.Semiconj.iterate_right (f := State.enc) (fun _ => rfl) n) s

/-- The same of the DEC unit in hand. -/
theorem quietEdge_iterate_dec (n : Nat) (s : State) : (quietEdge^[n] s).dec = (decEdge decQuiet)^[n] s.dec :=
  (Function.Semiconj.iterate_right (f := State.dec) (fun _ => rfl) n) s

/-- Iterating a function along a sequence that it follows for `n` places. -/
theorem iterate_follows {α : Type} {f : α → α} {x : Nat → α} {n : Nat} (h : ∀ k < n, f (x k) = x (k + 1)) :
    f^[n] (x 0) = x n := by
  induction n with
  | zero => rfl
  | succ n ih =>
    rw [Function.iterate_succ_apply', ih fun k hk => h k (Nat.lt_succ_of_lt hk), h n (Nat.lt_succ_self n)]

/-- A quiet edge before the last one of a request only counts. -/
theorem encEdge_quiet_early {u : EncUnit} (hb : u.ph = .busy) (hl : u.age + 1 < encLatency u) :
    encEdge encQuiet u = { u with age := u.age + 1 } := by
  simpa [encQuiet, hb, hl, Nat.not_le.mpr hl] using encEdge_cases encQuiet u

/-- The quiet edge that reaches the latency is the complete step (R158). -/
theorem encEdge_quiet_last {u : EncUnit} (hb : u.ph = .busy) (hl : encLatency u ≤ u.age + 1) :
    encEdge encQuiet u = encComplete u := by
  simpa [encQuiet, hb, hl, Nat.not_lt.mpr hl] using encEdge_cases encQuiet u

/-- A quiet edge before the last one of a request only counts. -/
theorem decEdge_quiet_early {u : DecUnit} (hb : u.ph = .busy) (hl : u.age + 1 < decLatency u) :
    decEdge decQuiet u = { u with age := u.age + 1 } := by
  simpa [decQuiet, hb, hl, Nat.not_le.mpr hl] using decEdge_cases decQuiet u

/-- The quiet edge that reaches the latency is the complete step (R178). -/
theorem decEdge_quiet_last {u : DecUnit} (hb : u.ph = .busy) (hl : decLatency u ≤ u.age + 1) :
    decEdge decQuiet u = decComplete u := by
  simpa [decQuiet, hb, hl, Nat.not_lt.mpr hl] using decEdge_cases decQuiet u

/-- A freshly accepted request after fewer quiet edges than its latency: the edges are counted and nothing else happens. -/
theorem encEdge_iterate_busy {u : EncUnit} (hb : u.ph = .busy) (ha : u.age = 0) {n : Nat} (hn : n < encLatency u) :
    (encEdge encQuiet)^[n] u = { u with age := n } := by
  have start : u = { u with age := 0 } := by rw [← ha]
  rw [start]
  refine iterate_follows (x := fun k => { u with age := k }) fun k hk => ?_
  exact encEdge_quiet_early hb (show k + 1 < encLatency u by omega)

/-- After as many quiet edges as its latency, the request is complete. -/
theorem encEdge_iterate_latency {u : EncUnit} (hb : u.ph = .busy) (ha : u.age = 0) :
    (encEdge encQuiet)^[encLatency u] u = encComplete u := by
  obtain ⟨m, hm⟩ : ∃ m, encLatency u = m + 1 := ⟨_, rfl⟩
  rw [hm, Function.iterate_succ_apply', encEdge_iterate_busy hb ha (by omega)]
  exact encEdge_quiet_last (u := { u with age := m }) hb (Nat.le_of_eq hm)

/-- A freshly accepted request after fewer quiet edges than its latency: the edges are counted and nothing else happens. -/
theorem decEdge_iterate_busy {u : DecUnit} (hb : u.ph = .busy) (ha : u.age = 0) {n : Nat} (hn : n < decLatency u) :
    (decEdge decQuiet)^[n] u = { u with age := n } := by
  have start : u = { u with age := 0 } := by rw [← ha]
  rw [start]
  refine iterate_follows (x := fun k => { u with age := k }) fun k hk => ?_
  exact decEdge_quiet_early hb (show k + 1 < decLatency u by omega)

/-- After as many quiet edges as its latency, the request is complete. -/
theorem decEdge_iterate_latency {u : DecUnit} (hb : u.ph = .busy) (ha : u.age = 0) :
    (decEdge decQuiet)^[decLatency u] u = decComplete u := by
  obtain ⟨m, hm⟩ : ∃ m, decLatency u = m + 1 := ⟨_, rfl⟩
  rw [hm, Function.iterate_succ_apply', decEdge_iterate_busy hb ha (by omega)]
  exact decEdge_quiet_last (u := { u with age := m }) hb (Nat.le_of_eq hm)

end Sys2Proof.Machine
end

section
/-!
SUPPORT and PROOFS. A request presented at a port edge by edge, against the same request as one transaction (R11).
-/

namespace Sys2Proof.Machine

/-- ENC's registers get back the block that its port presents (R34). The widths must keep their sums for the slices of an
append to apply, hence no `Nat.reduceAdd`. -/
@[simp] theorem blockOfPort_portOfBlock (b : Block) : blockOfPort (portOfBlock b) = b := by
  ext i hi : 1
  rw [blockOfPort, Vector.getElem_ofFn, portOfBlock]
  interval_cases i <;>
    simp (disch := omega) only [BitVec.extractLsb'_append_eq_of_le, BitVec.extractLsb'_append_eq_of_add_le,
      BitVec.extractLsb'_eq_self, Nat.reduceMul, Nat.reduceSub, -Nat.reduceAdd]

/-- DEC's registers get back the compressed block that its port presents (R35, R81). -/
@[simp] theorem cblockOfPort_portOfCblock (cb : CBlock) : cblockOfPort (portOfCblock cb) = cb := by
  ext i hi : 1
  rw [cblockOfPort, Vector.getElem_ofFn, portOfCblock]
  interval_cases i <;>
    simp (disch := omega) only [BitVec.extractLsb'_append_eq_of_le, BitVec.extractLsb'_append_eq_of_add_le,
      BitVec.extractLsb'_eq_self, Nat.reduceMul, Nat.reduceSub, -Nat.reduceAdd]

/-- A unit at rest accepts the block its port presents (R157). -/
theorem encEdge_accept {u : EncUnit} (h : u.ph ≠ .busy) (blk : Block) :
    encEdge { rst := false, start := true, blk := portOfBlock blk } u = encAccept blk u := by
  simpa [h] using encEdge_cases { rst := false, start := true, blk := portOfBlock blk } u

/-- A unit at rest accepts the compressed block and the index its ports present (R177). -/
theorem decEdge_accept {u : DecUnit} (h : u.ph ≠ .busy) (cb : CBlock) (p : PixIdx) :
    decEdge { rst := false, start := true, cb := portOfCblock cb, pix := p } u = decAccept cb p u := by
  simpa [h] using decEdge_cases { rst := false, start := true, cb := portOfCblock cb, pix := p } u

/-- The whole next state of the instruction ENCODE_BLOCK. -/
theorem exec_encodeBlock (blk : Block) (s : State) : exec (.encodeBlock blk) s =
    .next { s with enc := encTransact blk s.enc, ret := some (.cblock (encTransact blk s.enc).cb) } := rfl

/-- The whole next state of the instruction DECODE_PIXEL. -/
theorem exec_decodePixel (cb : CBlock) (p : PixIdx) (s : State) : exec (.decodePixel cb p) s =
    .next { s with dec := decTransact cb p s.dec, ret := some (.pixel (decTransact cb p s.dec).px) } := rfl

/-- The accept and the complete step make of a unit what the transaction makes of it, in flight or not. -/
theorem encComplete_encAccept (blk : Block) (u : EncUnit) : encComplete (encAccept blk u) = encTransact blk u := by
  rw [encTransact_eq]; rfl

/-- The same of DEC. -/
theorem decComplete_decAccept (cb : CBlock) (p : PixIdx) (u : DecUnit) :
    decComplete (decAccept cb p u) = decTransact cb p u := by
  rw [decTransact_eq]; rfl

/-- What `n` more steps make of the ENC unit when a request is presented and then nothing is asked. -/
theorem run_after_encAccept {s : State} {blk : Block} (hr : s.enc.ph ≠ .busy)
    (hs : s.script = [.encEdge { rst := false, start := true, blk := portOfBlock blk }]) (n : Nat) :
    ∃ t : State, Sys2Proof.core.run (n + 1) s = .next t ∧ t.enc = (encEdge encQuiet)^[n] (encAccept blk s.enc) := by
  have first : step s = .next (quiet { s with enc := encAccept blk s.enc, script := [] }) := by
    rw [step_action hs, ← encEdge_accept hr blk]; rfl
  refine ⟨_, (run_succ first n).trans (run_quiet rfl n), ?_⟩
  rw [quietEdge_iterate_enc]; rfl

/-- What `n` more steps make of the DEC unit when a request is presented and then nothing is asked. -/
theorem run_after_decAccept {s : State} {cb : CBlock} {p : PixIdx} (hr : s.dec.ph ≠ .busy)
    (hs : s.script = [.decEdge { rst := false, start := true, cb := portOfCblock cb, pix := p }]) (n : Nat) :
    ∃ t : State, Sys2Proof.core.run (n + 1) s = .next t ∧ t.dec = (decEdge decQuiet)^[n] (decAccept cb p s.dec) := by
  have first : step s = .next (quiet { s with dec := decAccept cb p s.dec, script := [] }) := by
    rw [step_action hs, ← decEdge_accept hr cb p]; rfl
  refine ⟨_, (run_succ first n).trans (run_quiet rfl n), ?_⟩
  rw [quietEdge_iterate_dec]; rfl

/-- Settles O17, by the equation of the transaction `ENC`. -/
theorem encodeBlockCompletesInEveryState : Obligations.EncodeBlockCompletesInEveryState := by
  intro s blk
  rw [exec_encodeBlock, encTransact_eq]

/-- Settles O41: after the accepting edge the unit counts quiet edges, and the one that reaches the latency completes it. -/
theorem encodeBlockIsItsClockEdges : Obligations.EncodeBlockIsItsClockEdges := by
  intro s blk hr hs
  refine ⟨encLatency (encAccept blk s.enc), rfl, fun k hk hkn => ?_, ?_⟩
  · obtain ⟨j, rfl⟩ : ∃ j, k = j + 1 := ⟨k - 1, by omega⟩
    obtain ⟨t, ht, he⟩ := run_after_encAccept hr hs j
    rw [encEdge_iterate_busy rfl rfl (by omega)] at he
    exact ⟨t, ht, by rw [he]; rfl, by rw [he]; rfl⟩
  · obtain ⟨t, ht, he⟩ := run_after_encAccept hr hs (encLatency (encAccept blk s.enc))
    rw [encEdge_iterate_latency rfl rfl, encComplete_encAccept] at he
    exact ⟨t, _, ht, exec_encodeBlock blk s, he⟩

/-- Settles O42, as O41. -/
theorem decodePixelIsItsClockEdges : Obligations.DecodePixelIsItsClockEdges := by
  intro s cb p hr hs
  refine ⟨decLatency (decAccept cb p s.dec), rfl, fun k hk hkn => ?_, ?_⟩
  · obtain ⟨j, rfl⟩ : ∃ j, k = j + 1 := ⟨k - 1, by omega⟩
    obtain ⟨t, ht, he⟩ := run_after_decAccept hr hs j
    rw [decEdge_iterate_busy rfl rfl (by omega)] at he
    exact ⟨t, ht, by rw [he]; rfl, by rw [he]; rfl, by rw [he]; rfl⟩
  · obtain ⟨t, ht, he⟩ := run_after_decAccept hr hs (decLatency (decAccept cb p s.dec))
    rw [decEdge_iterate_latency rfl rfl, decComplete_decAccept] at he
    exact ⟨t, _, ht, exec_decodePixel cb p s, he⟩

end Sys2Proof.Machine
end

section
/-!
SUPPORT and PROOFS. Work on one unit neither touches nor reads the rest of the state (R9, R20): said once over a view of a
unit, then used for ENC and for DEC.
-/

namespace Sys2Proof.Machine

/-- One unit as a part of the state: how it is read, and how it is put back together with what every step writes, the result
handed back and the rest of the script. -/
structure UnitView (U : Type) where
  get : State → U
  put : U → Option Ret → List Action → State → State
  get_put : ∀ u r q s, get (put u r q s) = u
  script_put : ∀ u r q s, (put u r q s).script = q
  put_put : ∀ u v r r' q q' s, put u r q (put v r' q' s) = put u r q s
  put_get : ∀ r q s, put (get s) r q s = { s with ret := r, script := q }

/-- The ENC unit in hand. -/
def encView : UnitView EncUnit where
  get s := s.enc
  put u r q s := { s with enc := u, ret := r, script := q }
  get_put _ _ _ _ := rfl
  script_put _ _ _ _ := rfl
  put_put _ _ _ _ _ _ _ := rfl
  put_get _ _ _ := rfl

/-- The DEC unit in hand. -/
def decView : UnitView DecUnit where
  get s := s.dec
  put u r q s := { s with dec := u, ret := r, script := q }
  get_put _ _ _ _ := rfl
  script_put _ _ _ _ := rfl
  put_put _ _ _ _ _ _ _ := rfl
  put_get _ _ _ := rfl

/-- An effect that is local to a unit: where it answers a next state, only the unit and the result handed back change, and
from every other state with the same unit they change to the same. -/
def UnitView.Local {U : Type} (V : UnitView U) (f : State → Host.Outcome State Fault Refusal) : Prop :=
  ∀ s t, f s = .next t → ∃ u r, ∀ s', V.get s' = V.get s → f s' = .next (V.put u r s'.script s')

namespace UnitView

variable {U : Type} {V : UnitView U}

/-- An effect that is a function of the unit is local to it. -/
theorem local_of_eq {f : State → Host.Outcome State Fault Refusal} (g : U → U) (r : U → Option Ret)
    (h : ∀ s, f s = .next (V.put (g (V.get s)) (r (V.get s)) s.script s)) : V.Local f :=
  fun s _ _ => ⟨g (V.get s), r (V.get s), fun s' hs => by rw [h s', hs]⟩

/-- A refusal has no effect. -/
theorem local_refused (e : Refusal) : V.Local fun _ => .refused e :=
  fun _ _ h => nomatch h

/-- A step whose action is local to a unit takes that action off the script and changes the unit alone. -/
theorem step_local {a : Action} {rest : List Action} {s s₁ : State} (hl : V.Local (runAction a))
    (hs : s.script = a :: rest) (h : step s = .next s₁) :
    ∃ u r, ∀ s', V.get s' = V.get s → s'.script = s.script → step s' = .next (V.put u r rest s') := by
  have same : ∀ s' : State, ({ s' with script := rest } : State) = V.put (V.get s') s'.ret rest s' :=
    fun s' => (V.put_get s'.ret rest s').symm
  rw [step_action hs] at h
  obtain ⟨u, r, hu⟩ := hl _ _ h
  refine ⟨u, r, fun s' hg hq => ?_⟩
  rw [step_action (hq.trans hs), hu _ (by rw [same s', same s, V.get_put, V.get_put, hg]), same s', V.script_put, V.put_put]

/-- A run of actions that are all local to a unit changes the unit alone, and to the same from every state with the same unit
and the same script. -/
theorem run_local {n : Nat} {s t : State} (hn : n ≤ s.script.length) (hl : ∀ a ∈ s.script, V.Local (runAction a))
    (h : Sys2Proof.core.run n s = .next t) :
    ∃ u, ∀ s', V.get s' = V.get s → s'.script = s.script →
      ∃ r q, Sys2Proof.core.run n s' = .next (V.put u r q s') := by
  induction n generalizing s with
  | zero =>
    refine ⟨V.get s, fun s' hg _ => ⟨s'.ret, s'.script, ?_⟩⟩
    rw [← hg, V.put_get]
    rfl
  | succ n ih =>
    obtain ⟨s₁, h₁, ht⟩ := exists_step_of_run_succ h
    obtain ⟨a, rest, hs⟩ := List.exists_cons_of_length_pos (show 0 < s.script.length by omega)
    rw [hs, List.length_cons] at hn
    obtain ⟨u₁, r₁, hu₁⟩ := step_local (hl a (by simp [hs])) hs h₁
    obtain rfl : V.put u₁ r₁ rest s = s₁ := Host.Outcome.next.inj ((hu₁ s rfl rfl).symm.trans h₁)
    have hq := V.script_put u₁ r₁ rest s
    obtain ⟨u, hu⟩ := ih (by rw [hq]; omega) (fun b hb => hl b (by rw [hq] at hb; simp [hs, hb])) ht
    refine ⟨u, fun s' hg hq' => ?_⟩
    obtain ⟨r, q, hr⟩ := hu (V.put u₁ r₁ rest s') (by simp only [V.get_put]) (by simp only [V.script_put])
    exact ⟨r, q, by rw [run_succ (hu₁ s' hg hq') n, hr, V.put_put]⟩

/-- What such a run leaves: the rest of the state as it was, and a unit that is the same from every other state with the same
unit and the same script. -/
theorem run_local_independent {n : Nat} {s t : State} (hn : n ≤ s.script.length)
    (hl : ∀ a ∈ s.script, V.Local (runAction a)) (h : Sys2Proof.core.run n s = .next t) :
    (∃ u r q, t = V.put u r q s) ∧ ∀ s', V.get s' = V.get s → s'.script = s.script →
      ∃ t', Sys2Proof.core.run n s' = .next t' ∧ V.get t' = V.get t := by
  obtain ⟨u, hu⟩ := run_local hn hl h
  obtain ⟨r, q, ht⟩ := hu s rfl rfl
  obtain rfl : t = V.put u r q s := Host.Outcome.next.inj (h.symm.trans ht)
  refine ⟨⟨u, r, q, rfl⟩, fun s' hg hq => ?_⟩
  obtain ⟨r', q', ht'⟩ := hu s' hg hq
  exact ⟨_, ht', by rw [V.get_put, V.get_put]⟩

end UnitView

/-- What the requests of each port are (R86, R91). -/
theorem decode_eq_ok {port : Port} {bytes : List Byte} {i : Instr} (h : decode port bytes = .ok i) :
    (port = .enc ∧ ∃ blk, i = .encodeBlock blk) ∨ (port = .dec ∧ ∃ cb p, i = .decodePixel cb p) ∨
    (port = .pal ∧ ∃ k val0 val1 flip, i = palOfIndex k val0 val1 flip) := by
  unfold decode at h
  split at h
  · cases h; exact .inl ⟨rfl, _, rfl⟩
  · cases h
  · split at h
    · cases h; exact .inr (.inl ⟨rfl, _, _, rfl⟩)
    · cases h
  · cases h
  · split at h
    · cases h; exact .inr (.inr ⟨rfl, _, _, _, _, rfl⟩)
    · cases h
  · cases h

/-- A request is as local as the instruction it stands for. -/
theorem UnitView.local_runRequest {U : Type} {V : UnitView U} {port : Port} {bytes : List Byte}
    (h : ∀ i, decode port bytes = .ok i → V.Local (exec i)) : V.Local (runRequest port bytes) := by
  cases hd : decode port bytes with
  | ok i => rw [show runRequest port bytes = exec i from funext (runRequest_ok hd)]; exact h i hd
  | error e =>
    rw [show runRequest port bytes = fun _ => .refused (.notARequest e) from funext fun s => by simp [runRequest, hd]]
    exact UnitView.local_refused _

/-- A line whose operands fit is as local as its instruction. -/
theorem UnitView.local_runLine {U : Type} {V : UnitView U} {i : Instr} (hw : i.wf = true) (h : V.Local (exec i)) :
    V.Local (runLine i) := by
  rw [show runLine i = exec i from funext (runLine_wf hw)]
  exact h

theorem local_encodeBlock (blk : Block) : encView.Local (exec (.encodeBlock blk)) :=
  UnitView.local_of_eq (encTransact blk) (fun u => some (.cblock (encTransact blk u).cb)) fun _ => rfl

theorem local_decodePixel (cb : CBlock) (p : PixIdx) : decView.Local (exec (.decodePixel cb p)) :=
  UnitView.local_of_eq (decTransact cb p) (fun u => some (.pixel (decTransact cb p u).px)) fun _ => rfl

theorem local_decodeBlock16 (cb : CBlock) : decView.Local (exec (.decodeBlock16 cb)) :=
  UnitView.local_of_eq (decTransact16 cb) (fun _ => some (.block (decodeBlock16 cb))) fun _ => rfl

theorem local_rst_enc : encView.Local (exec (.rst .enc)) :=
  UnitView.local_of_eq (encEdge { encQuiet with rst := true }) (fun _ => none) fun _ => rfl

theorem local_rst_dec : decView.Local (exec (.rst .dec)) :=
  UnitView.local_of_eq (decEdge { decQuiet with rst := true }) (fun _ => none) fun _ => rfl

/-- A read of a unit's result is local to it: refused outside DONE, else the register as it stands (R245). -/
theorem local_readResult_enc : encView.Local (readResult .enc) := by
  intro s t h
  by_cases hp : s.enc.ph = .done
  · refine ⟨s.enc, some (.eCbPort (portOfCblock s.enc.cb)), fun s' hg => ?_⟩
    change s'.enc = s.enc at hg
    rw [← hg] at hp ⊢
    exact if_pos hp
  · simp [readResult, hp] at h

theorem local_readResult_dec : decView.Local (readResult .dec) := by
  intro s t h
  by_cases hp : s.dec.ph = .done
  · refine ⟨s.dec, some (.dPxPort s.dec.px), fun s' hg => ?_⟩
    change s'.dec = s.dec at hg
    rw [← hg] at hp ⊢
    exact if_pos hp
  · simp [readResult, hp] at h

/-- Every action that concerns the ENC unit alone is local to it. -/
theorem local_of_encOnly {a : Action} (h : encOnly a = true) : encView.Local (runAction a) := by
  cases a with
  | request port bytes =>
    cases port with
    | enc =>
      refine UnitView.local_runRequest fun i hi => ?_
      obtain ⟨-, blk, rfl⟩ | ⟨⟨⟩, -⟩ | ⟨⟨⟩, -⟩ := decode_eq_ok hi
      exact local_encodeBlock blk
    | _ => cases h
  | line i =>
    cases i with
    | encodeBlock blk => exact UnitView.local_runLine rfl (local_encodeBlock blk)
    | rst which =>
      cases which with
      | enc => exact UnitView.local_runLine rfl local_rst_enc
      | dec => cases h
    | _ => cases h
  | encEdge p => exact UnitView.local_of_eq (encEdge p) (fun _ => none) fun _ => rfl
  | readStatus which =>
    cases which with
    | enc => exact UnitView.local_of_eq id (fun u => some (.status u.ph.stat)) fun _ => rfl
    | dec => cases h
  | readResult which =>
    cases which with
    | enc => exact local_readResult_enc
    | dec => cases h
  | _ => cases h

/-- Every action that concerns the DEC unit alone is local to it. -/
theorem local_of_decOnly {a : Action} (h : decOnly a = true) : decView.Local (runAction a) := by
  cases a with
  | request port bytes =>
    cases port with
    | dec =>
      refine UnitView.local_runRequest fun i hi => ?_
      obtain ⟨⟨⟩, -⟩ | ⟨-, cb, p, rfl⟩ | ⟨⟨⟩, -⟩ := decode_eq_ok hi
      exact local_decodePixel cb p
    | _ => cases h
  | line i =>
    cases i with
    | decodePixel cb p => exact UnitView.local_runLine rfl (local_decodePixel cb p)
    | decodeBlock16 cb => exact UnitView.local_runLine rfl (local_decodeBlock16 cb)
    | rst which =>
      cases which with
      | enc => cases h
      | dec => exact UnitView.local_runLine rfl local_rst_dec
    | _ => cases h
  | decEdge p => exact UnitView.local_of_eq (decEdge p) (fun _ => none) fun _ => rfl
  | readStatus which =>
    cases which with
    | enc => cases h
    | dec => exact UnitView.local_of_eq id (fun u => some (.status u.ph.stat)) fun _ => rfl
  | readResult which =>
    cases which with
    | enc => cases h
    | dec => exact local_readResult_dec
  | _ => cases h

/-- Settles O48: every action on one unit is local to it, so a run of them is. -/
theorem unitWorkIsIndependentOfTheRest : Obligations.UnitWorkIsIndependentOfTheRest := by
  refine ⟨fun n s t hn ha h => ?_, fun n s t hn ha h => ?_⟩
  · obtain ⟨⟨u, r, q, rfl⟩, same⟩ := UnitView.run_local_independent hn (fun a hm => local_of_encOnly (ha a hm)) h
    exact ⟨rfl, rfl, rfl, rfl, rfl, rfl, same⟩
  · obtain ⟨⟨u, r, q, rfl⟩, same⟩ := UnitView.run_local_independent hn (fun a hm => local_of_decOnly (ha a hm)) h
    exact ⟨rfl, rfl, rfl, rfl, rfl, rfl, same⟩

end Sys2Proof.Machine
end

section
/-!
SUPPORT and PROOFS. The host's own actions on its buffers and dimensions (R7, R33).
-/

namespace Sys2Proof.Machine

/-- A read of bytes that all are as given gives them. -/
theorem read_of_readByte {m : Memory} {a : Nat} {bs : List Byte}
    (h : ∀ k (hk : k < bs.length), m.readByte (a + k) = some bs[k]) : m.read a bs.length = some bs := by
  induction bs generalizing a with
  | nil => rfl
  | cons v rest ih =>
    have head : m.readByte a = some v := h 0 (Nat.succ_pos _)
    have tail : m.read (a + 1) rest.length = some rest :=
      ih fun k hk => by rw [Nat.add_assoc, Nat.add_comm 1 k]; exact h (k + 1) (Nat.succ_lt_succ hk)
    simp only [List.length_cons, Memory.read, head, tail]

/-- What a write stored reads back. -/
theorem read_write_same {m m' : Memory} {a : Nat} {bs : List Byte} (hm : m.wf = true) (h : m.write a bs = some m') :
    m'.read a bs.length = some bs :=
  read_of_readByte fun k hk => by rw [readByte_write hm h, dif_pos (by omega)]; simp

theorem readByte_write_other {m m' : Memory} {a : Nat} {bs : List Byte} (hm : m.wf = true) (h : m.write a bs = some m')
    {x : Nat} (hx : x < a ∨ a + bs.length ≤ x) : m'.readByte x = m.readByte x := by
  rw [readByte_write hm h, dif_neg (by omega)]

/-- A supplied buffer reads back whole. -/
theorem read_ofBytes (bs : List Byte) : (Memory.ofBytes bs).read 0 bs.length = some bs :=
  read_of_readByte fun k hk => by rw [Nat.zero_add]; exact readByte_ofBytes bs k hk

/-- A read inside a buffer gives each byte there. -/
theorem exists_read {m : Memory} {a n : Nat} (h : a + n ≤ m.size) :
    ∃ bs, m.read a n = some bs ∧ bs.length = n ∧ ∀ k, k < n → bs[k]? = m.readByte (a + k) := by
  refine ⟨_, read_eq_some h, by simp, fun k hk => ?_⟩
  simp [Memory.readByte, hk, show a + k < m.size by omega]

/-- A read of at least one byte that ends past the buffer fails. -/
theorem read_eq_none {m : Memory} {a n : Nat} (hn : 0 < n) (h : m.size < a + n) : m.read a n = none := by
  induction n generalizing a with
  | zero => exact absurd hn (Nat.lt_irrefl 0)
  | succ n ih =>
    by_cases ha : a < m.size
    · simp [Memory.read, Memory.readByte, ha, ih (a := a + 1) (by omega) (by omega)]
    · simp [Memory.read, Memory.readByte, ha]

/-- A write of at least one byte succeeds only inside the buffer. -/
theorem inside_of_write {m m' : Memory} {a : Nat} {bs : List Byte} (hb : bs ≠ []) (h : m.write a bs = some m') :
    a + bs.length ≤ m.size := by
  induction bs generalizing m a with
  | nil => exact absurd rfl hb
  | cons v rest ih =>
    simp only [Memory.write] at h
    split at h
    · cases h
    · rename_i m₁ h₁
      have ha : a < m.size := by
        by_contra hn
        simp [Memory.writeByte, hn] at h₁
      rw [List.length_cons]
      by_cases hr : rest = []
      · simpa [hr] using ha
      · have := ih hr h
        rw [writeByte_size h₁] at this
        omega

/-- A write of at least one byte that ends past the buffer fails. -/
theorem write_eq_none {m : Memory} {a : Nat} {bs : List Byte} (hb : bs ≠ []) (h : m.size < a + bs.length) :
    m.write a bs = none :=
  Option.eq_none_iff_forall_ne_some.mpr fun _ hw => absurd (inside_of_write hb hw) (Nat.not_le.mpr h)

theorem hostRead_some {b : Buf} {a n : Nat} {s : State} {bs : List Byte} (h : (s.buffer b).read a n = some bs) :
    hostRead b a n s = .next (answer (.bytes bs) s) := by
  simp only [hostRead, h]

theorem hostRead_none {b : Buf} {a n : Nat} {s : State} (h : (s.buffer b).read a n = none) :
    hostRead b a n s = .fault .outsideBuffer := by
  simp only [hostRead, h]

theorem hostWrite_some {b : Buf} {a : Nat} {bs : List Byte} {s : State} {m : Memory}
    (h : (s.buffer b).write a bs = some m) : hostWrite b a bs s = .next (quiet (s.withBuffer b m)) := by
  simp only [hostWrite, h]

theorem hostWrite_none {b : Buf} {a : Nat} {bs : List Byte} {s : State} (h : (s.buffer b).write a bs = none) :
    hostWrite b a bs s = .fault .outsideBuffer := by
  simp only [hostWrite, h]

/-- The script is no part of a buffer. -/
@[simp] theorem buffer_withScript (s : State) (b : Buf) (q : List Action) :
    ({ s with script := q } : State).buffer b = s.buffer b := by
  cases b <;> rfl

/-- A MemRead action inside its buffer hands back the bytes there; one that ends past it faults. -/
theorem step_memRead {s : State} {rest : List Action} {b : Buf} {a n : Nat} (hs : s.script = .memRead b a n :: rest) :
    (a + n ≤ (s.buffer b).size → ∃ bs : List Byte, bs.length = n ∧
      (∀ k : Nat, k < n → bs[k]? = (s.buffer b).readByte (a + k)) ∧
      step s = .next { s with script := rest, ret := some (.bytes bs) }) ∧
    (0 < n → (s.buffer b).size < a + n → step s = .fault .outsideBuffer) := by
  have act : step s = hostRead b a n { s with script := rest } := step_action hs
  rw [act]
  constructor
  · intro h
    obtain ⟨bs, hr, hlen, hbytes⟩ := exists_read h
    exact ⟨bs, hlen, hbytes, hostRead_some (by rw [buffer_withScript, hr])⟩
  · intro hn h
    exact hostRead_none (by rw [buffer_withScript, read_eq_none hn h])

/-- A MemWrite action inside its buffer writes that buffer; one that ends past it faults. -/
theorem step_memWrite {s : State} {rest : List Action} {b : Buf} {a : Nat} {bs : List Byte}
    (hs : s.script = .memWrite b a bs :: rest) :
    (a + bs.length ≤ (s.buffer b).size → ∃ m : Memory, (s.buffer b).write a bs = some m ∧
      (b = .img → step s = .next { s with img := m, script := rest, ret := none }) ∧
      (b = .cmp → step s = .next { s with cmp := m, script := rest, ret := none })) ∧
    (bs ≠ [] → (s.buffer b).size < a + bs.length → step s = .fault .outsideBuffer) := by
  have act : step s = hostWrite b a bs { s with script := rest } := step_action hs
  rw [act]
  constructor
  · intro h
    obtain ⟨m, hm⟩ := write_isSome (s.buffer b) a bs h
    rw [hostWrite_some (m := m) (by rw [buffer_withScript, hm])]
    exact ⟨m, hm, fun hb => by subst hb; rfl, fun hb => by subst hb; rfl⟩
  · intro hb h
    exact hostWrite_none (by rw [buffer_withScript, write_eq_none hb h])

/-- Settles O58, from the laws of the buffers and the steps of the four actions. -/
theorem buffersKeepTheBytesStored : Obligations.BuffersKeepTheBytesStored := by
  refine ⟨fun m m' a bs hm h => ⟨write_wf hm h, write_size h, read_write_same hm h, fun x => readByte_write_other hm h⟩,
    fun bs => ⟨read_ofBytes bs, ofBytes_wf bs⟩, fun s rest b a n hs => step_memRead hs,
    fun s rest b a bs hs => step_memWrite hs, fun s rest bs => ⟨fun hs => ?_, fun hs => ?_⟩, fun s rest w h hs => ?_⟩
  all_goals rw [step_action hs]; rfl

end Sys2Proof.Machine
end

section
/-!
SUPPORT and PROOFS. What each operation keeps of a unit in order, what an edge does to the phase (R23, R27), and which part of
the state each instruction and each action of the host may change.
-/

namespace Sys2Proof.Machine

theorem encReset_ok (u : EncUnit) : (encReset u).Ok := ⟨nofun, nofun, fun _ => rfl⟩

theorem encAccept_ok (blk : Block) (u : EncUnit) : (encAccept blk u).Ok :=
  ⟨nofun, fun _ => encLatency_pos _, fun h => absurd rfl h⟩

theorem encComplete_ok (u : EncUnit) : (encComplete u).Ok := ⟨fun _ => rfl, nofun, fun _ => rfl⟩

theorem encTransact_ok (blk : Block) (u : EncUnit) : (encTransact blk u).Ok := encComplete_ok _

/-- Every edge keeps an ENC unit in order, whatever its ports carry. -/
theorem encEdge_ok (p : EncPorts) {u : EncUnit} (hu : u.Ok) : (encEdge p u).Ok := by
  obtain ⟨-, e⟩ | ⟨-, -, -, e⟩ | ⟨-, hb, hl, e⟩ | ⟨-, -, -, e⟩ | ⟨-, -, -, e⟩ := encEdge_cases p u <;> rw [e]
  · exact encReset_ok u
  · exact encComplete_ok u
  · exact ⟨fun hd => by simp [hb] at hd, fun _ => hl, fun h => absurd hb h⟩
  · exact encAccept_ok _ u
  · exact hu

theorem decReset_ok (u : DecUnit) : (decReset u).Ok := ⟨nofun, nofun, fun _ => rfl⟩

theorem decAccept_ok (cb : CBlock) (p : PixIdx) (u : DecUnit) : (decAccept cb p u).Ok :=
  ⟨nofun, fun _ => decLatency_pos _, fun h => absurd rfl h⟩

theorem decComplete_ok (u : DecUnit) : (decComplete u).Ok := ⟨fun _ => rfl, nofun, fun _ => rfl⟩

theorem decTransact_ok (cb : CBlock) (p : PixIdx) (u : DecUnit) : (decTransact cb p u).Ok := decComplete_ok _

/-- Every edge keeps a DEC unit in order, whatever its ports carry. -/
theorem decEdge_ok (p : DecPorts) {u : DecUnit} (hu : u.Ok) : (decEdge p u).Ok := by
  obtain ⟨-, e⟩ | ⟨-, -, -, e⟩ | ⟨-, hb, hl, e⟩ | ⟨-, -, -, e⟩ | ⟨-, -, -, e⟩ := decEdge_cases p u <;> rw [e]
  · exact decReset_ok u
  · exact decComplete_ok u
  · exact ⟨fun hd => by simp [hb] at hd, fun _ => hl, fun h => absurd hb h⟩
  · exact decAccept_ok _ _ u
  · exact hu

/-- The phase of ENC after one edge: IDLE by reset; without reset a change is to BUSY by a request or from BUSY to DONE. -/
theorem encEdge_ph (p : EncPorts) (u : EncUnit) :
    (p.rst = true → (encEdge p u).ph = .idle) ∧
    ((encEdge p u).ph ≠ u.ph → p.rst = false →
      ((encEdge p u).ph = .busy ∧ p.start = true ∧ u.ph ≠ .busy) ∨ ((encEdge p u).ph = .done ∧ u.ph = .busy)) := by
  obtain ⟨hr, e⟩ | ⟨hr, hb, -, e⟩ | ⟨hr, -, -, e⟩ | ⟨hr, hn, hs, e⟩ | ⟨hr, -, -, e⟩ := encEdge_cases p u <;>
    rw [e, hr]
  · exact ⟨fun _ => rfl, nofun⟩
  · exact ⟨nofun, fun _ _ => .inr ⟨rfl, hb⟩⟩
  · exact ⟨nofun, fun h => absurd rfl h⟩
  · exact ⟨nofun, fun _ _ => .inl ⟨rfl, hs, hn⟩⟩
  · exact ⟨nofun, fun h => absurd rfl h⟩

/-- The phase of DEC after one edge. -/
theorem decEdge_ph (p : DecPorts) (u : DecUnit) :
    (p.rst = true → (decEdge p u).ph = .idle) ∧
    ((decEdge p u).ph ≠ u.ph → p.rst = false →
      ((decEdge p u).ph = .busy ∧ p.start = true ∧ u.ph ≠ .busy) ∨ ((decEdge p u).ph = .done ∧ u.ph = .busy)) := by
  obtain ⟨hr, e⟩ | ⟨hr, hb, -, e⟩ | ⟨hr, -, -, e⟩ | ⟨hr, hn, hs, e⟩ | ⟨hr, -, -, e⟩ := decEdge_cases p u <;>
    rw [e, hr]
  · exact ⟨fun _ => rfl, nofun⟩
  · exact ⟨nofun, fun _ _ => .inr ⟨rfl, hb⟩⟩
  · exact ⟨nofun, fun h => absurd rfl h⟩
  · exact ⟨nofun, fun _ _ => .inl ⟨rfl, hs, hn⟩⟩
  · exact ⟨nofun, fun h => absurd rfl h⟩

theorem readStatus_next {which : UnitSel} {s t : State} (h : readStatus which s = .next t) : ∃ r, t = answer r s := by
  cases which with
  | enc => cases h; exact ⟨_, rfl⟩
  | dec => cases h; exact ⟨_, rfl⟩

/-- A result read that answers hands a value back and does nothing else. -/
theorem readResult_next {which : UnitSel} {s t : State} (h : readResult which s = .next t) : ∃ r, t = answer r s := by
  cases which with
  | enc =>
    simp only [readResult] at h
    split at h <;> cases h
    exact ⟨_, rfl⟩
  | dec =>
    simp only [readResult] at h
    split at h <;> cases h
    exact ⟨_, rfl⟩

theorem hostRead_next {b : Buf} {a n : Nat} {s t : State} (h : hostRead b a n s = .next t) : ∃ r, t = answer r s := by
  unfold hostRead at h
  split at h <;> cases h
  exact ⟨_, rfl⟩

theorem hostWrite_next {b : Buf} {a : Nat} {bs : List Byte} {s t : State} (h : hostWrite b a bs s = .next t) :
    ∃ m, (s.buffer b).write a bs = some m ∧ t = quiet (s.withBuffer b m) := by
  unfold hostWrite at h
  split at h <;> cases h
  exact ⟨_, ‹_›, rfl⟩

/-- Turning to another unit takes it from the others and puts the one in hand in its place. -/
theorem turnTo_next {which : UnitSel} {k : Nat} {s t : State} (h : turnTo which k s = .next t) :
    (∃ u, s.encPool[k]? = some u ∧ t = quiet { s with enc := u, encPool := s.encPool.set k s.enc }) ∨
    (∃ u, s.decPool[k]? = some u ∧ t = quiet { s with dec := u, decPool := s.decPool.set k s.dec }) := by
  cases which with
  | enc =>
    simp only [turnTo] at h
    split at h <;> cases h
    exact .inl ⟨_, ‹_›, rfl⟩
  | dec =>
    simp only [turnTo] at h
    split at h <;> cases h
    exact .inr ⟨_, ‹_›, rfl⟩

/-- Two states with the same units, in hand and in the pools. -/
def SameUnits (t s : State) : Prop := t.enc = s.enc ∧ t.dec = s.dec ∧ t.encPool = s.encPool ∧ t.decPool = s.decPool

theorem sameUnits_answer (r : Ret) (s : State) : SameUnits (answer r s) s := ⟨rfl, rfl, rfl, rfl⟩

theorem sameUnits_withBuffer (s : State) (b : Buf) (m : Memory) : SameUnits (s.withBuffer b m) s := by
  cases b with
  | img => exact ⟨rfl, rfl, rfl, rfl⟩
  | cmp => exact ⟨rfl, rfl, rfl, rfl⟩

/-- An action that gives no unit an edge leaves the units as they were. -/
theorem runAction_sameUnits {a : Action} {s t : State} (ha : touchesNoUnit a = true) (h : runAction a s = .next t) :
    SameUnits t s := by
  cases a with
  | readStatus which => obtain ⟨r, rfl⟩ := readStatus_next h; exact sameUnits_answer r s
  | readResult which => obtain ⟨r, rfl⟩ := readResult_next h; exact sameUnits_answer r s
  | memRead b a n => obtain ⟨r, rfl⟩ := hostRead_next h; exact sameUnits_answer r s
  | supply b bytes => cases h; exact sameUnits_withBuffer s b _
  | memWrite b a bytes => obtain ⟨m, -, rfl⟩ := hostWrite_next h; exact sameUnits_withBuffer s b m
  | setDims w h => cases h; exact ⟨rfl, rfl, rfl, rfl⟩
  | beginCall p =>
    obtain ⟨e, -, rfl⟩ | ⟨-, -, -, rfl⟩ | ⟨-, -, -, rfl⟩ := beginCall_next h <;> exact ⟨rfl, rfl, rfl, rfl⟩
  | endCall n => obtain ⟨c, bs, -, -, -, rfl⟩ := endCall_next h; exact ⟨rfl, rfl, rfl, rfl⟩
  | _ => cases ha

/-- What an instruction may make of the state, part by part: a unit that changes has carried a transaction through or was
reset, and a buffer that changes is the output of a procedure. -/
structure InstrFrame (i : Instr) (s t : State) : Prop where
  encPool : t.encPool = s.encPool
  decPool : t.decPool = s.decPool
  width : t.width = s.width
  height : t.height = s.height
  script : t.script = s.script
  calls : t.calls = s.calls
  enc : t.enc = s.enc ∨ (drivesEnc i = true ∧ ∃ blk u, t.enc = encTransact blk u) ∨ (i = .rst .enc ∧ t.enc = encReset s.enc)
  dec : t.dec = s.dec ∨ (drivesDec i = true ∧ ∃ cb p u, t.dec = decTransact cb p u) ∨ (i = .rst .dec ∧ t.dec = decReset s.dec)
  img : t.img = s.img ∨ (i = .decodeImage ∧ t.img.wf = true)
  cmp : t.cmp = s.cmp ∨ (i = .encodeImage ∧ t.cmp.wf = true)
  outcome : t.outcome = s.outcome ∨ ((i = .encodeImage ∨ i = .decodeImage) ∧ ∃ o, t.outcome = some o ∧ o.code ≤ 1)

/-- A state that differs in what was handed back only is in every instruction's frame. -/
theorem InstrFrame.refl (i : Instr) (s : State) (r : Option Ret) : InstrFrame i s { s with ret := r } :=
  ⟨rfl, rfl, rfl, rfl, rfl, rfl, .inl rfl, .inl rfl, .inl rfl, .inl rfl, .inl rfl⟩

/-- The blocks of ENCODE_IMAGE drive the ENC unit and write CMP. -/
theorem encodeInOrder_frame {origins : List (Nat × Nat)} {s t : State} (h : encodeInOrder origins s = some t) :
    InstrFrame .encodeImage s t := by
  refine (runOver_invariant (P := fun a => InstrFrame .encodeImage s a ∧ a.cmp.wf = true) ?_ h ?_).1
  · rintro o - a b hb ⟨ha, hw⟩
    obtain ⟨blk, m, -, hm, rfl⟩ := encodeOneBlock_eq_some hb
    exact ⟨{ ha with enc := .inr (.inl ⟨rfl, blk, a.enc, rfl⟩), cmp := .inr ⟨rfl, write_wf hw hm⟩ }, write_wf hw hm⟩
  · exact ⟨{ InstrFrame.refl _ s s.ret with cmp := .inr ⟨rfl, sized_wf _⟩ }, sized_wf _⟩

/-- The pixels of DECODE_IMAGE drive the DEC unit and write IMG. -/
theorem decodeInOrder_frame {pixels : List (Nat × Nat)} {s t : State} (h : decodeInOrder pixels s = some t) :
    InstrFrame .decodeImage s t := by
  refine (runOver_invariant (P := fun a => InstrFrame .decodeImage s a ∧ a.img.wf = true) ?_ h ?_).1
  · rintro xy - a b hb ⟨ha, hw⟩
    obtain ⟨cb, m, -, hm, rfl⟩ := decodeOnePixel_eq_some hb
    exact ⟨{ ha with dec := .inr (.inl ⟨rfl, cb, _, a.dec, rfl⟩), img := .inr ⟨rfl, write_wf hw hm⟩ }, write_wf hw hm⟩
  · exact ⟨{ InstrFrame.refl _ s s.ret with img := .inr ⟨rfl, sized_wf _⟩ }, sized_wf _⟩

/-- A procedure that ends tells its caller an outcome (R217). -/
theorem InstrFrame.tells {i : Instr} {s t : State} {o : ProcOutcome} (h : InstrFrame i s t)
    (hi : i = .encodeImage ∨ i = .decodeImage) (ho : o.code ≤ 1) : InstrFrame i s { t with outcome := some o, ret := none } :=
  { h with outcome := .inr ⟨hi, o, rfl, ho⟩ }

theorem finish_frame {i : Instr} {s t : State} {r : Option State} (hi : i = .encodeImage ∨ i = .decodeImage)
    (hr : ∀ a, r = some a → InstrFrame i s a) (h : finish r = .next t) : InstrFrame i s t := by
  cases r with
  | none => cases h
  | some a => cases h; exact (hr a rfl).tells hi (by decide)

/-- Every instruction keeps to its frame: the two procedures by their loops, the transactions and resets by their units, and
every stage because it only hands a value back. -/
theorem exec_frame {i : Instr} {s t : State} (h : exec i s = .next t) : InstrFrame i s t := by
  cases i with
  | encodeBlock blk => cases h; exact { InstrFrame.refl _ s none with enc := .inr (.inl ⟨rfl, blk, s.enc, rfl⟩) }
  | decodePixel cb p => cases h; exact { InstrFrame.refl _ s none with dec := .inr (.inl ⟨rfl, cb, p, s.dec, rfl⟩) }
  | decodeBlock16 cb => cases h; exact { InstrFrame.refl _ s none with dec := .inr (.inl ⟨rfl, cb, 15, _, rfl⟩) }
  | rst which =>
    cases which with
    | enc => cases h; exact { InstrFrame.refl _ s none with enc := .inr (.inr ⟨rfl, rfl⟩) }
    | dec => cases h; exact { InstrFrame.refl _ s none with dec := .inr (.inr ⟨rfl, rfl⟩) }
  | encodeImage =>
    change execEncodeImage s = .next t at h
    obtain ⟨-, e⟩ | ⟨-, -, e⟩ | ⟨-, -, e⟩ := execEncodeImage_cases s <;> rw [e] at h
    · cases h; exact (InstrFrame.refl _ s none).tells (.inl rfl) (Nat.le_refl 1)
    · cases h
    · exact finish_frame (.inl rfl) (fun _ => encodeInOrder_frame) h
  | decodeImage =>
    change execDecodeImage s = .next t at h
    obtain ⟨-, e⟩ | ⟨-, -, e⟩ | ⟨-, -, e⟩ := execDecodeImage_cases s <;> rw [e] at h
    · cases h; exact (InstrFrame.refl _ s none).tells (.inr rfl) (Nat.le_refl 1)
    · cases h; exact (InstrFrame.refl _ s none).tells (.inr rfl) (Nat.le_refl 1)
    · exact finish_frame (.inr rfl) (fun _ => decodeInOrder_frame) h
  | _ => cases h; exact InstrFrame.refl _ s _

/-- The ENC unit after an instruction: as before unless the instruction drives it, and otherwise in DONE or reset. -/
theorem InstrFrame.encUnit {i : Instr} {s t : State} (h : InstrFrame i s t) :
    (drivesEnc i = false → t.enc = s.enc) ∧ (t.enc = s.enc ∨ t.enc.ph = .done ∨ (i = .rst .enc ∧ t.enc.ph = .idle)) := by
  obtain e | ⟨hd, blk, u, e⟩ | ⟨rfl, e⟩ := h.enc
  · exact ⟨fun _ => e, .inl e⟩
  · exact ⟨fun hn => absurd (hd.symm.trans hn) nofun, .inr (.inl (by rw [e]; rfl))⟩
  · exact ⟨nofun, .inr (.inr ⟨rfl, by rw [e]; rfl⟩)⟩

/-- The same of the DEC unit. -/
theorem InstrFrame.decUnit {i : Instr} {s t : State} (h : InstrFrame i s t) :
    (drivesDec i = false → t.dec = s.dec) ∧ (t.dec = s.dec ∨ t.dec.ph = .done ∨ (i = .rst .dec ∧ t.dec.ph = .idle)) := by
  obtain e | ⟨hd, cb, p, u, e⟩ | ⟨rfl, e⟩ := h.dec
  · exact ⟨fun _ => e, .inl e⟩
  · exact ⟨fun hn => absurd (hd.symm.trans hn) nofun, .inr (.inl (by rw [e]; rfl))⟩
  · exact ⟨nofun, .inr (.inr ⟨rfl, by rw [e]; rfl⟩)⟩

theorem InstrFrame.cmp_eq {i : Instr} {s t : State} (h : InstrFrame i s t) (hi : i ≠ .encodeImage) : t.cmp = s.cmp :=
  h.cmp.resolve_right fun hc => hi hc.1

theorem InstrFrame.img_eq {i : Instr} {s t : State} (h : InstrFrame i s t) (hi : i ≠ .decodeImage) : t.img = s.img :=
  h.img.resolve_right fun hc => hi hc.1

theorem InstrFrame.outcome_eq {i : Instr} {s t : State} (h : InstrFrame i s t) (he : i ≠ .encodeImage) (hd : i ≠ .decodeImage) :
    t.outcome = s.outcome :=
  h.outcome.resolve_right fun hc => hc.1.elim he hd

/-- Settles O49: every instruction keeps to its frame, and the host's other actions give no unit an edge. -/
theorem instructionsChangeOnlyTheirOwnState : Obligations.InstructionsChangeOnlyTheirOwnState := by
  refine ⟨fun i s t h => ?_, fun s t a rest hs ha h => ?_⟩
  · have f := exec_frame h
    exact ⟨f.encPool, f.decPool, f.width, f.height, f.script, f.calls, f.encUnit.1, f.decUnit.1, f.encUnit.2, f.decUnit.2,
      fun hi a => by rw [f.cmp_eq hi], fun hi a => by rw [f.img_eq hi], f.outcome_eq⟩
  · rw [step_action hs] at h
    exact runAction_sameUnits (s := { s with script := rest }) ha h

/-- Settles O39: the status word of each phase, the reads that hand a word back, and the phase after each edge. -/
theorem phasesChangeOnlyAsTheRulesSay : Obligations.PhasesChangeOnlyAsTheRulesSay := by
  refine ⟨rfl, rfl, rfl, fun ph => by cases ph <;> decide, rfl, rfl, fun s rest hs => step_action hs,
    fun s rest hs => step_action hs, fun s t which rest hs h => ?_, encEdge_ph, decEdge_ph⟩
  rw [step_action hs] at h
  obtain ⟨r, rfl⟩ := readResult_next h
  exact ⟨rfl, rfl, rfl, rfl⟩

end Sys2Proof.Machine
end

section
/-!
SUPPORT and PROOFS. The invariant of the machine, kept by every step: by instructions through their frame, by the host's
actions one by one, and by a piece of a call's work through what one turn of its procedure's loop stores.
-/

namespace Sys2Proof.Machine

theorem positiveMultipleOf4_of_dimOk {n : Nat} (h : dimOk n = true) : PositiveMultipleOf4 n := by
  simp only [dimOk, Bool.and_eq_true, decide_eq_true_eq] at h
  exact ⟨n / 4, by omega, by omega⟩

/-- Dimensions that pass the check of R191 and R195. -/
theorem positiveMultipleOf4_of_dimsOk {w h : Nat} (hd : dimsOk w h = true) :
    PositiveMultipleOf4 w ∧ PositiveMultipleOf4 h := by
  obtain ⟨hw, hh⟩ := Bool.and_eq_true_iff.mp hd
  exact ⟨positiveMultipleOf4_of_dimOk hw, positiveMultipleOf4_of_dimOk hh⟩

theorem PositiveMultipleOf4.mod_eq {n : Nat} (h : PositiveMultipleOf4 n) : n % 4 = 0 := by
  obtain ⟨k, -, rfl⟩ := h
  exact Nat.mul_mod_right 4 k

/-- A call of ENCODE_IMAGE that begins by its checks is in order: every block is to do. -/
theorem newEncode_ok {s : State} (hi : s.img.wf = true) (hd : dimsOk s.width s.height = true)
    (hs : s.img.size = s.width * s.height) : (Call.newEncode s).Ok := by
  obtain ⟨hw, hh⟩ := positiveMultipleOf4_of_dimsOk hd
  refine ⟨hw, hh, hi, sized_wf _, hs, rfl, fun _ h => h, fun i j hin hjn hdone => absurd ?_ hdone⟩
  exact mem_blockOrigins.mpr ⟨i, j, hin, hjn, rfl, rfl⟩

/-- A call of DECODE_IMAGE that begins by its checks is in order: every pixel is to do. -/
theorem newDecode_ok {s : State} (hc : s.cmp.wf = true) (hd : dimsOk s.width s.height = true)
    (hs : compressedLength s.width s.height ≤ s.cmp.size) : (Call.newDecode s).Ok := by
  obtain ⟨hw, hh⟩ := positiveMultipleOf4_of_dimsOk hd
  refine ⟨hw, hh, sized_wf _, hc, rfl, hs, fun _ h => h, fun x y hx hy hdone => absurd ?_ hdone⟩
  exact mem_pixelOrder.mpr ⟨hx, hy⟩

/-- One block of a call of ENCODE_IMAGE: the call stays in order, and the ENC unit has carried a transaction through. -/
theorem encodeOneBlock_keeps_call {c : Call} (hp : c.proc = .encodeImage) (hc : c.Ok) {piece : Nat × Nat}
    (hm : piece ∈ c.todo) {s r : State} (hr : encodeOneBlock piece (c.lend s) = some r) :
    (c.after piece r).Ok ∧ r.enc.Ok ∧ r.dec = s.dec := by
  simp only [Call.Ok, hp] at hc
  obtain ⟨hw, hh, himg, hcmp, hsize, hout, htodo, hbytes⟩ := hc
  obtain ⟨i, j, hi, hj, hx, hy⟩ := mem_blockOrigins.mp (htodo piece hm)
  obtain rfl : piece = (4 * i, 4 * j) := Prod.ext hx hy
  obtain ⟨m, hmwf, hmsize, hturn, hnew, hold⟩ := encodeOneBlock_turn (s := c.lend s) hsize hi hj hout hcmp
  obtain rfl := Option.some.inj (hturn.symm.trans hr)
  refine ⟨?_, encTransact_ok _ _, rfl⟩
  simp only [Call.Ok, after_proc, hp]
  refine ⟨hw, hh, himg, hmwf, hsize, hmsize.trans hout, fun xy h => htodo xy (List.mem_of_mem_erase h),
    fun i' j' hi' hj' hdone k => ?_⟩
  by_cases he : i' = i ∧ j' = j
  · obtain ⟨rfl, rfl⟩ := he
    exact hnew k
  · have hne : (4 * i', 4 * j') ≠ (4 * i, 4 * j) := fun h => he (by simpa using h)
    exact (hold i' j' hi' he k).trans (hbytes i' j' hi' hj' ((List.mem_erase_of_ne hne).not.mp hdone) k)

/-- One pixel of a call of DECODE_IMAGE: the call stays in order, and the DEC unit has carried a transaction through. -/
theorem decodeOnePixel_keeps_call {c : Call} (hp : c.proc = .decodeImage) (hc : c.Ok) {piece : Nat × Nat}
    (hm : piece ∈ c.todo) {s r : State} (hr : decodeOnePixel piece (c.lend s) = some r) :
    (c.after piece r).Ok ∧ r.dec.Ok ∧ r.enc = s.enc := by
  simp only [Call.Ok, hp] at hc
  obtain ⟨hw, hh, himg, hcmp, hsize, hin, htodo, hbytes⟩ := hc
  obtain ⟨x, y⟩ := piece
  obtain ⟨hx, hy⟩ := mem_pixelOrder.mp (htodo (x, y) hm)
  obtain ⟨m, hmwf, hmsize, hturn, hnew, hold⟩ :=
    decodeOnePixel_turn (s := c.lend s) hsize hx hy hw.mod_eq hh.mod_eq hin himg
  obtain rfl := Option.some.inj (hturn.symm.trans hr)
  refine ⟨?_, decTransact_ok _ _ _, rfl⟩
  simp only [Call.Ok, after_proc, hp]
  refine ⟨hw, hh, hmwf, hcmp, hmsize.trans hsize, hin, fun xy h => htodo xy (List.mem_of_mem_erase h),
    fun x' y' hx' hy' hdone => ?_⟩
  by_cases he : x' = x ∧ y' = y
  · obtain ⟨rfl, rfl⟩ := he
    exact hnew
  · have hne : (x', y') ≠ (x, y) := fun h => he (Prod.mk.inj h)
    exact (hold x' y' hx' he).trans (hbytes x' y' hx' hy' ((List.mem_erase_of_ne hne).not.mp hdone))

/-- A piece of work keeps its call and both units in hand in order. -/
theorem work_keeps_call {c : Call} (hc : c.Ok) {piece : Nat × Nat} (hm : piece ∈ c.todo) {s r : State} (he : s.enc.Ok)
    (hd : s.dec.Ok) (hr : c.proc.work piece (c.lend s) = some r) : (c.after piece r).Ok ∧ r.enc.Ok ∧ r.dec.Ok := by
  cases hp : c.proc with
  | encodeImage =>
    rw [hp] at hr
    obtain ⟨hc', he', hsame⟩ := encodeOneBlock_keeps_call hp hc hm hr
    exact ⟨hc', he', hsame ▸ hd⟩
  | decodeImage =>
    rw [hp] at hr
    obtain ⟨hc', hd', hsame⟩ := decodeOnePixel_keeps_call hp hc hm hr
    exact ⟨hc', hsame ▸ he, hd'⟩

/-- A property of every entry of a list survives setting one entry to a value that has it. -/
theorem forall_mem_set {α : Type} {P : α → Prop} {l : List α} (h : ∀ x ∈ l, P x) (n : Nat) {v : α} (hv : P v) :
    ∀ x ∈ l.set n v, P x :=
  fun x hx => (List.mem_or_eq_of_mem_set hx).elim (h x) fun e => e ▸ hv

namespace State.Inv

variable {s : State}

theorem setEnc (h : s.Inv) {u : EncUnit} (hu : u.Ok) : ({ s with enc := u } : State).Inv := by
  obtain ⟨himg, hcmp, -, hdec, hencs, hdecs, hout, hcalls⟩ := h
  exact ⟨himg, hcmp, hu, hdec, hencs, hdecs, hout, hcalls⟩

theorem setDec (h : s.Inv) {u : DecUnit} (hu : u.Ok) : ({ s with dec := u } : State).Inv := by
  obtain ⟨himg, hcmp, henc, -, hencs, hdecs, hout, hcalls⟩ := h
  exact ⟨himg, hcmp, henc, hu, hencs, hdecs, hout, hcalls⟩

theorem setPools (h : s.Inv) {us : List EncUnit} {vs : List DecUnit} (hus : ∀ u ∈ us, u.Ok) (hvs : ∀ v ∈ vs, v.Ok) :
    ({ s with encPool := us, decPool := vs } : State).Inv := by
  obtain ⟨himg, hcmp, henc, hdec, -, -, hout, hcalls⟩ := h
  exact ⟨himg, hcmp, henc, hdec, hus, hvs, hout, hcalls⟩

theorem setBuffer (h : s.Inv) (b : Buf) {m : Memory} (hm : m.wf = true) : (s.withBuffer b m).Inv := by
  obtain ⟨himg, hcmp, henc, hdec, hencs, hdecs, hout, hcalls⟩ := h
  cases b with
  | img => exact ⟨hm, hcmp, henc, hdec, hencs, hdecs, hout, hcalls⟩
  | cmp => exact ⟨himg, hm, henc, hdec, hencs, hdecs, hout, hcalls⟩

theorem setOutcome (h : s.Inv) {o : ProcOutcome} (ho : o.code ≤ 1) : ({ s with outcome := some o } : State).Inv := by
  obtain ⟨himg, hcmp, henc, hdec, hencs, hdecs, -, hcalls⟩ := h
  exact ⟨himg, hcmp, henc, hdec, hencs, hdecs, fun _ e => Option.some.inj e ▸ ho, hcalls⟩

theorem setCalls (h : s.Inv) {cs : List Call} (hcs : ∀ c ∈ cs, c.Ok) : ({ s with calls := cs } : State).Inv := by
  obtain ⟨himg, hcmp, henc, hdec, hencs, hdecs, hout, -⟩ := h
  exact ⟨himg, hcmp, henc, hdec, hencs, hdecs, hout, hcs⟩

theorem buffer_wf (h : s.Inv) (b : Buf) : (s.buffer b).wf = true := by
  obtain ⟨himg, hcmp, -⟩ := h
  cases b with
  | img => exact himg
  | cmp => exact hcmp

/-- A call that begins joins the calls under way. -/
theorem withCall (h : s.Inv) {c : Call} (hc : c.Ok) : (s.withCall c).Inv := by
  have ⟨_, _, _, _, _, _, _, hcalls⟩ := h
  refine h.setCalls fun c' hc' => ?_
  obtain hm | hm := List.mem_append.mp hc'
  · exact hcalls c' hm
  · exact List.mem_singleton.mp hm ▸ hc

end State.Inv

/-- An instruction that keeps to its frame keeps the invariant. -/
theorem InstrFrame.inv {i : Instr} {s t : State} (h : InstrFrame i s t) (hs : s.Inv) : t.Inv := by
  obtain ⟨himg, hcmp, henc, hdec, hencs, hdecs, hout, hcalls⟩ := hs
  refine ⟨?_, ?_, ?_, ?_, h.encPool ▸ hencs, h.decPool ▸ hdecs, ?_, h.calls ▸ hcalls⟩
  · obtain e | ⟨-, hw⟩ := h.img
    · exact e ▸ himg
    · exact hw
  · obtain e | ⟨-, hw⟩ := h.cmp
    · exact e ▸ hcmp
    · exact hw
  · obtain e | ⟨-, blk, u, e⟩ | ⟨-, e⟩ := h.enc <;> rw [e]
    · exact henc
    · exact encTransact_ok blk u
    · exact encReset_ok s.enc
  · obtain e | ⟨-, cb, p, u, e⟩ | ⟨-, e⟩ := h.dec <;> rw [e]
    · exact hdec
    · exact decTransact_ok cb p u
    · exact decReset_ok s.dec
  · obtain e | ⟨-, o, e, ho⟩ := h.outcome <;> rw [e]
    · exact hout
    · exact fun _ e' => Option.some.inj e' ▸ ho

theorem beginCall_inv {p : Proc} {s t : State} (hs : s.Inv) (h : beginCall p s = .next t) : t.Inv := by
  obtain ⟨e, he, rfl⟩ | ⟨-, hd, hsize, rfl⟩ | ⟨-, hd, hsize, rfl⟩ := beginCall_next h
  · exact hs.setOutcome (Nat.le_of_eq he)
  · exact hs.withCall (newEncode_ok (hs.buffer_wf .img) hd hsize)
  · exact hs.withCall (newDecode_ok (hs.buffer_wf .cmp) hd hsize)

theorem workOn_inv {n : Nat} {piece : Nat × Nat} {s t : State} (hs : s.Inv) (h : workOn n piece s = .next t) : t.Inv := by
  have ⟨_, _, henc, hdec, _, _, _, hcalls⟩ := hs
  obtain ⟨c, r, hc, hp, hr, rfl⟩ := workOn_next h
  obtain ⟨hcall, he, hd⟩ := work_keeps_call (hcalls c (List.mem_of_getElem? hc)) hp henc hdec hr
  exact ((hs.setEnc he).setDec hd).setCalls (forall_mem_set hcalls n hcall)

theorem endCall_inv {n : Nat} {s t : State} (hs : s.Inv) (h : endCall n s = .next t) : t.Inv := by
  have ⟨_, _, _, _, _, _, _, hcalls⟩ := hs
  obtain ⟨c, bs, -, -, -, rfl⟩ := endCall_next h
  exact (hs.setOutcome (o := .success) (Nat.zero_le 1)).setCalls fun c hc => hcalls c (List.mem_of_mem_eraseIdx hc)

theorem turnTo_inv {which : UnitSel} {k : Nat} {s t : State} (hs : s.Inv) (h : turnTo which k s = .next t) : t.Inv := by
  have ⟨_, _, henc, hdec, hencs, hdecs, _, _⟩ := hs
  obtain ⟨u, hu, rfl⟩ | ⟨u, hu, rfl⟩ := turnTo_next h
  · exact (hs.setEnc (hencs u (List.mem_of_getElem? hu))).setPools (forall_mem_set hencs k henc) hdecs
  · exact (hs.setDec (hdecs u (List.mem_of_getElem? hu))).setPools hencs (forall_mem_set hdecs k hdec)

/-- Every action of the host keeps the invariant. It looks at neither the dimensions nor the script nor what is handed back,
so a read and a change of dimensions keep it as it is. -/
theorem runAction_inv {a : Action} {s t : State} (hs : s.Inv) (h : runAction a s = .next t) : t.Inv := by
  have ⟨_, _, henc, hdec, _, _, _, _⟩ := hs
  cases a with
  | request port bytes =>
    simp only [runAction, runRequest] at h
    split at h
    · exact (exec_frame h).inv hs
    · cases h
  | line i =>
    simp only [runAction, runLine] at h
    split at h
    · exact (exec_frame h).inv hs
    · cases h
  | encEdge p => cases h; exact hs.setEnc (encEdge_ok p henc)
  | decEdge p => cases h; exact hs.setDec (decEdge_ok p hdec)
  | readStatus which => obtain ⟨r, rfl⟩ := readStatus_next h; exact hs
  | readResult which => obtain ⟨r, rfl⟩ := readResult_next h; exact hs
  | memRead b a n => obtain ⟨r, rfl⟩ := hostRead_next h; exact hs
  | setDims w h' => cases h; exact hs
  | supply b bytes => cases h; exact hs.setBuffer b (ofBytes_wf bytes)
  | memWrite b a bytes =>
    obtain ⟨m, hm, rfl⟩ := hostWrite_next h
    exact hs.setBuffer b (write_wf (hs.buffer_wf b) hm)
  | turnTo which k => exact turnTo_inv hs h
  | beginCall p => exact beginCall_inv hs h
  | workOn n piece => exact workOn_inv hs h
  | endCall n => exact endCall_inv hs h

/-- A quiet edge of every clock keeps the invariant, unit by unit. -/
theorem quietEdge_inv {s : State} (hs : s.Inv) : (quietEdge s).Inv := by
  have ⟨_, _, henc, hdec, hencs, hdecs, _, _⟩ := hs
  exact ((hs.setEnc (encEdge_ok encQuiet henc)).setDec (decEdge_ok decQuiet hdec)).setPools
    (List.forall_mem_map.mpr fun u hu => encEdge_ok encQuiet (hencs u hu))
    (List.forall_mem_map.mpr fun u hu => decEdge_ok decQuiet (hdecs u hu))

/-- Settles O46: a step is a quiet edge of every clock or one action of the host, and each keeps the invariant. -/
theorem everyStepKeepsTheInvariant : Obligations.EveryStepKeepsTheInvariant := by
  intro s t hs h
  cases hq : s.script with
  | nil => rw [step_quiet hq] at h; cases h; exact quietEdge_inv hs
  | cons a rest => rw [step_action hq] at h; exact runAction_inv (s := { s with script := rest }) hs h

end Sys2Proof.Machine
end

section
/-!
SUPPORT and PROOFS. Where a pixel is: its address, its block, its index there (R54, R56, R90), and the bits of the compressed
block that hold its code (R197).
-/

namespace Sys2Proof.Machine

@[simp] theorem pixelIndex_toNat (x y : Nat) : (pixelIndex x y).toNat = y % 4 * 4 + x % 4 := by
  rw [pixelIndex, BitVec.toNat_ofNat, Nat.mod_eq_of_lt (by omega)]

/-- The upper two bits are the row in the block. -/
theorem pixelIndex_row (x y : Nat) : (pixelIndex x y).extractLsb' 2 2 = BitVec.ofNat 2 y := by
  apply BitVec.eq_of_toNat_eq
  rw [BitVec.extractLsb'_toNat, pixelIndex_toNat, BitVec.toNat_ofNat, Nat.shiftRight_eq_div_pow]
  omega

/-- The lower two bits are the column in the block. -/
theorem pixelIndex_column (x y : Nat) : (pixelIndex x y).extractLsb' 0 2 = BitVec.ofNat 2 x := by
  apply BitVec.eq_of_toNat_eq
  rw [BitVec.extractLsb'_toNat, pixelIndex_toNat, BitVec.toNat_ofNat, Nat.shiftRight_zero]
  omega

/-- Every pixel's block is one of the image's: a place of the grid of blocks, a quarter of the image each way. -/
theorem blockIndex_lt_blockCount {w h x y : Nat} (hw : w % 4 = 0) (hh : h % 4 = 0) (hx : x < w) (hy : y < h) :
    blockIndex w x y < blockCount w h :=
  pixel_inside (by omega) (by omega)

/-- The sixteen pixels of the block with origin `(4 * i, 4 * j)` have its index. -/
theorem blockIndex_of_origin {w i k : Nat} (j : Nat) (hk : k < 16) :
    blockIndex w (4 * i + k % 4) (4 * j + k / 4) = j * (w / 4) + i := by
  rw [blockIndex, show (4 * i + k % 4) / 4 = i by omega, show (4 * j + k / 4) / 4 = j by omega]

/-- Pixel `k` of a block, counted from the block's origin, has index `k` there. -/
theorem pixelIndex_of_origin {k : Nat} (i j : Nat) (hk : k < 16) :
    (pixelIndex (4 * i + k % 4) (4 * j + k / 4)).toNat = k := by
  rw [pixelIndex_toNat]
  omega

/-- A lane is the slice of the code word that R171 names. -/
theorem lane_eq_extractLsb' (cw : CodeWord) (p : PixIdx) : lane cw p = cw.extractLsb' (2 * p.toNat) 2 := by
  have hmask : ∀ v : CodeWord, (v &&& 3).setWidth 2 = v.setWidth 2 := fun v => by
    rw [BitVec.setWidth_and]
    exact BitVec.and_allOnes
  rw [lane, hmask, BitVec.setWidth_ushiftRight_eq_extractLsb]

/-- The code word's bytes, lowest first, are the block's, last first (R170). The widths must keep their sums for the slices of
an append to apply, hence no `Nat.reduceAdd`. -/
theorem unpackCodeword_byte (cb : CBlock) {r : Nat} (hr : r < 4) :
    (unpackCodeword cb).extractLsb' (8 * r) 8 = cb[5 - r] := by
  rw [unpackCodeword, codewordOfBytes]
  interval_cases r <;>
    simp (disch := omega) only [BitVec.extractLsb'_append_eq_of_le, BitVec.extractLsb'_append_eq_of_add_le,
      BitVec.extractLsb'_eq_self, Nat.reduceMul, Nat.reduceSub, -Nat.reduceAdd]

/-- A slice of a slice is a slice of the whole. -/
theorem extractLsb'_extractLsb'_of_add_le {w a m b n : Nat} {v : BitVec w} (h : b + n ≤ m) :
    (v.extractLsb' a m).extractLsb' b n = v.extractLsb' (a + b) n := by
  ext i hi
  rw [BitVec.getElem_extractLsb', BitVec.getLsbD_extractLsb', BitVec.getElem_extractLsb', Nat.add_assoc,
    decide_eq_true (by omega), Bool.true_and]

/-- R197: the row of a pixel picks the byte of the block that holds its code, the column the two bits of that byte. -/
theorem lane_unpackCodeword (cb : CBlock) (x y : Nat) :
    lane (unpackCodeword cb) (pixelIndex x y) = (cb[5 - y % 4]'(by omega)).extractLsb' (2 * (x % 4)) 2 := by
  rw [lane_eq_extractLsb', pixelIndex_toNat, ← unpackCodeword_byte cb (Nat.mod_lt y (by decide)),
    extractLsb'_extractLsb'_of_add_le (by omega)]
  congr 1
  omega

/-- Settles O56: the formulas, with the ranges as places of a row-major grid, of pixels and of blocks. -/
theorem addressesAndIndicesAgree : Obligations.AddressesAndIndicesAgree := by
  refine ⟨fun w x y => ⟨rfl, rfl, pixelIndex_toNat x y, pixelIndex_row x y, pixelIndex_column x y⟩,
    fun w h x y hw hh hx hy => ?_, fun w i j k _ hk => ⟨blockIndex_of_origin j hk, pixelIndex_of_origin i j hk⟩,
    lane_unpackCodeword⟩
  have hblock := blockIndex_lt_blockCount hw.mod_eq hh.mod_eq hx hy
  exact ⟨hblock, pixel_inside hx hy, by rw [compressedLength]; omega⟩

end Sys2Proof.Machine
end

section
/-!
SUPPORT and PROOFS. Request words: the bytes of each port and the instruction they stand for determine each other (R80 to R86),
and so do a port's value and the registers it carries (R34, R35).
-/

namespace Sys2Proof.Machine

/-- The ENC port's bytes are the block's (R86). -/
theorem decode_enc_toList (blk : Block) : decode .enc blk.toList = .ok (.encodeBlock blk) := by
  have pixels : blk = #v[blk[0], blk[1], blk[2], blk[3], blk[4], blk[5], blk[6], blk[7], blk[8], blk[9], blk[10], blk[11],
      blk[12], blk[13], blk[14], blk[15]] := by
    ext i hi : 1
    interval_cases i <;> rfl
  rw [pixels]
  rfl

/-- A byte whose value fits fewer bits is the byte of its low bits. -/
theorem setWidth_setWidth_of_toNat_lt {n : Nat} {b : Byte} (h : b.toNat < 2 ^ n) : (b.setWidth n).setWidth 8 = b := by
  apply BitVec.eq_of_toNat_eq
  rw [BitVec.toNat_setWidth, BitVec.toNat_setWidth, Nat.mod_eq_of_lt h, Nat.mod_eq_of_lt b.isLt]

/-- The DEC port's bytes are the compressed block's, last first, and the pixel index (R86). -/
theorem decode_dec_reverse (cb : CBlock) (pix : PixIdx) :
    decode .dec (cb.toList.reverse ++ [pix.setWidth 8]) = .ok (.decodePixel cb pix) := by
  have bytes : cb = #v[cb[0], cb[1], cb[2], cb[3], cb[4], cb[5]] := by
    ext i hi : 1
    interval_cases i <;> rfl
  have fits : (pix.setWidth 8).toNat < 16 := by
    rw [BitVec.toNat_setWidth_of_le (by decide)]
    exact pix.isLt
  have index : (pix.setWidth 8).setWidth 4 = pix := by simp
  rw [bytes]
  exact (if_pos fits).trans (by rw [index])

theorem getLsbD_flagByte (flip : Bool) : (flagByte flip).getLsbD 0 = flip := by cases flip <;> rfl

/-- A byte that is 0 or 1 is the byte of its lowest bit. -/
theorem flagByte_getLsbD {f : Byte} (h : f.toNat < 2) : flagByte (f.getLsbD 0) = f := by
  obtain rfl | rfl : f = 0 ∨ f = 1 := by
    have : f.toNat = 0 ∨ f.toNat = 1 := by omega
    exact this.imp BitVec.eq_of_toNat_eq BitVec.eq_of_toNat_eq
  · rfl
  · rfl

/-- The palette-index word of each of the eight entries (R85, R91). -/
theorem encode_palOfIndex (k : PalIdx) (val0 val1 : Byte) (flip : Bool) :
    encode (palOfIndex k val0 val1 flip) = some (.pal, [k.setWidth 8, val0, val1, flagByte flip]) := by
  obtain ⟨⟨n, hn⟩⟩ := k
  interval_cases n <;> rfl

/-- A palette-index word selects the entry of its index (R91). -/
theorem decode_pal_word (k : PalIdx) (val0 val1 : Byte) (flip : Bool) :
    decode .pal [k.setWidth 8, val0, val1, flagByte flip] = .ok (palOfIndex k val0 val1 flip) := by
  have hk : (k.setWidth 8).toNat < 8 := by
    rw [BitVec.toNat_setWidth_of_le (by decide)]
    exact k.isLt
  have hf : (flagByte flip).toNat < 2 := by cases flip <;> decide
  have index : (k.setWidth 8).setWidth 3 = k := by simp
  simp only [decode, hk, hf, decide_true, Bool.and_self, if_true, index, getLsbD_flagByte]

/-- Settles O51: the word of each of the ten rows that have one, read back on its port; the eight palette entries by their
index. -/
theorem decodeOfEncodeIsTheInstruction : Obligations.DecodeOfEncodeIsTheInstruction := by
  intro i port bytes h
  cases i with
  | encodeBlock blk => cases h; exact decode_enc_toList blk
  | decodePixel cb pix => cases h; exact decode_dec_reverse cb pix
  | pal0 val0 val1 flip => cases h; exact decode_pal_word 0 val0 val1 flip
  | pal1 val0 val1 flip => cases h; exact decode_pal_word 1 val0 val1 flip
  | pal2 val0 val1 flip => cases h; exact decode_pal_word 2 val0 val1 flip
  | pal3 val0 val1 flip => cases h; exact decode_pal_word 3 val0 val1 flip
  | pal4 val0 val1 flip => cases h; exact decode_pal_word 4 val0 val1 flip
  | pal5 val0 val1 flip => cases h; exact decode_pal_word 5 val0 val1 flip
  | pal6 val0 val1 flip => cases h; exact decode_pal_word 6 val0 val1 flip
  | pal7 val0 val1 flip => cases h; exact decode_pal_word 7 val0 val1 flip
  | _ => cases h

/-- Settles O52: the decoder's three ways to accept; the checks on stray bits say that no bit of a byte is dropped. -/
theorem encodeOfDecodeIsTheWord : Obligations.EncodeOfDecodeIsTheWord := by
  intro i port bytes h
  unfold decode at h
  split at h
  · cases h; rfl
  · cases h
  · split at h
    · rename_i hi
      cases h
      simp [encode, setWidth_setWidth_of_toNat_lt (n := 4) hi]
    · cases h
  · cases h
  · split at h
    · rename_i hc
      cases h
      simp only [Bool.and_eq_true, decide_eq_true_eq] at hc
      obtain ⟨hk, hf⟩ := hc
      rw [encode_palOfIndex, setWidth_setWidth_of_toNat_lt (n := 3) hk, flagByte_getLsbD hf]
    · cases h
  · cases h

theorem lowBytes_eq_ofFn (m v : Nat) : lowBytes m v = List.ofFn fun k : Fin m => BitVec.ofNat 8 (v >>> (8 * k.val)) := by
  induction m generalizing v with
  | zero => rfl
  | succ m ih =>
    have next : ∀ k, (v / 256) >>> (8 * k) = v >>> (8 * (k + 1)) := fun k => by
      rw [show v / 256 = v >>> 8 from (Nat.shiftRight_eq_div_pow v 8).symm, ← Nat.shiftRight_add, Nat.mul_add, Nat.add_comm]
    rw [lowBytes, ih, List.ofFn_succ]
    simp only [next, Fin.val_zero, Fin.val_succ, Nat.mul_zero, Nat.shiftRight_zero]

/-- The bytes of a word are its slices of eight bits, lowest first. -/
theorem lowBytes_toNat {n : Nat} (m : Nat) (w : BitVec n) :
    lowBytes m w.toNat = List.ofFn fun k : Fin m => w.extractLsb' (8 * k.val) 8 :=
  lowBytes_eq_ofFn m w.toNat

/-- The bytes of an ENC request word are the pixels on `e_blk` (R34, R86). -/
theorem lowBytes_encWord (w : BitVec 128) : lowBytes 16 w.toNat = (blockOfPort w).toList := by
  rw [lowBytes_toNat, blockOfPort, Vector.toList_ofFn]

/-- The bytes of a DEC request word are those of `d_cb`, last first, and `d_pix` (R35, R86). -/
theorem lowBytes_decWord (w : BitVec 52) :
    lowBytes 7 w.toNat =
      (cblockOfPort (w.extractLsb' 0 48)).toList.reverse ++ [(w.extractLsb' 48 4).setWidth 8] := by
  have high : w.extractLsb' 48 8 = (w.extractLsb' 48 4).setWidth 8 := by
    apply BitVec.eq_of_toNat_eq
    have := w.isLt
    simp only [BitVec.extractLsb'_toNat, BitVec.toNat_setWidth, Nat.shiftRight_eq_div_pow]
    omega
  rw [lowBytes_toNat]
  simp [cblockOfPort, Vector.toList_ofFn, List.ofFn_succ, high, extractLsb'_extractLsb'_of_add_le]

/-- Settles O53: a word's bytes are the fields of its ports, which decode whatever they are. -/
theorem everyRequestWordIsLegal : Obligations.EveryRequestWordIsLegal := by
  refine ⟨fun w => ?_, fun w => ?_,
    fun s => ⟨fun blk => ⟨_, exec_encodeBlock blk s⟩, fun cb p => ⟨_, exec_decodePixel cb p s⟩⟩⟩
  · have presented : tableRequest 128 w.toNat = some (.enc, (blockOfPort w).toList) := by
      rw [tableRequest, if_pos w.isLt, if_pos rfl, lowBytes_encWord]
    simp only [decodeTableWord, presented, decode_enc_toList]
  · have presented : tableRequest 52 w.toNat = some (.dec,
        (cblockOfPort (w.extractLsb' 0 48)).toList.reverse ++ [(w.extractLsb' 48 4).setWidth 8]) := by
      rw [tableRequest, if_pos w.isLt, if_neg (by decide), if_pos (.inl rfl), lowBytes_decWord]
    simp only [decodeTableWord, presented, decode_dec_reverse]

/-- Settles O44, by the equations of a step on each kind of request. -/
theorem stepRunsTheDecodedRequest : Obligations.StepRunsTheDecodedRequest := by
  refine ⟨fun s port bytes rest i hs hd => ?_, fun s i rest hs hw => ?_, fun s nbits w i hd => step_withFetchWord hd s⟩
  · rw [step_action hs]
    exact runRequest_ok hd _
  · rw [step_action hs]
    exact runLine_wf hw _

/-- The pixels on `e_blk` fix every bit of it. -/
theorem blockOfPort_injective : Function.Injective blockOfPort := by
  intro w w' h
  refine BitVec.eq_of_getLsbD_eq fun i hi => ?_
  have byte : (blockOfPort w)[i / 8] = (blockOfPort w')[i / 8] := by rw [h]
  rw [blockOfPort, blockOfPort, Vector.getElem_ofFn, Vector.getElem_ofFn] at byte
  have bit := congrArg (BitVec.getLsbD · (i % 8)) byte
  simpa [BitVec.getLsbD_extractLsb', Nat.mod_lt, Nat.div_add_mod] using bit

/-- The bytes on a 48-bit port fix every bit of it. -/
theorem cblockOfPort_injective : Function.Injective cblockOfPort := by
  intro w w' h
  refine BitVec.eq_of_getLsbD_eq fun i hi => ?_
  have byte : (cblockOfPort w)[5 - i / 8] = (cblockOfPort w')[5 - i / 8] := by rw [h]
  rw [cblockOfPort, cblockOfPort, Vector.getElem_ofFn, Vector.getElem_ofFn] at byte
  have bit := congrArg (BitVec.getLsbD · (i % 8)) byte
  have place : 40 - 8 * (5 - i / 8) + i % 8 = i := by omega
  simpa [BitVec.getLsbD_extractLsb', Nat.mod_lt, place] using bit

/-- Settles O54: taking the bytes off undoes putting them on, and loses no bit, so putting them on undoes taking them off. -/
theorem portsCarryTheBytes : Obligations.PortsCarryTheBytes :=
  ⟨blockOfPort_portOfBlock, fun _ => blockOfPort_injective (blockOfPort_portOfBlock _), cblockOfPort_portOfCblock,
    fun _ => cblockOfPort_injective (cblockOfPort_portOfCblock _)⟩

/-- Settles O55: the decoder run on each word. -/
theorem specWordsDecode : Obligations.SpecWordsDecode := by
  unfold Obligations.SpecWordsDecode
  decide

end Sys2Proof.Machine
end

section
/-!
SUPPORT and PROOFS. No instruction faults: the loops of the two procedures stay inside their buffers (R92, R199, R214).
-/

namespace Sys2Proof.Machine

/-- The state between two blocks of ENCODE_IMAGE: the dimensions it was called with and both buffers of their lengths. -/
structure EncodingImage (w h : Nat) (s : State) : Prop where
  width : s.width = w
  height : s.height = h
  img_size : s.img.size = w * h
  cmp_size : s.cmp.size = w / 4 * (h / 4) * 6
  cmp_wf : s.cmp.wf = true

/-- The state between two pixels of DECODE_IMAGE. -/
structure DecodingImage (w h : Nat) (s : State) : Prop where
  width : s.width = w
  height : s.height = h
  img_size : s.img.size = w * h
  cmp_size : w / 4 * (h / 4) * 6 ≤ s.cmp.size
  img_wf : s.img.wf = true

/-- Every block of the image is encoded inside the buffers. -/
theorem EncodingImage.exists_turn {w h : Nat} {s : State} (hs : EncodingImage w h s) {o : Nat × Nat}
    (ho : o ∈ blockOrigins w h) : ∃ t, encodeOneBlock o s = some t ∧ EncodingImage w h t := by
  obtain ⟨rfl, rfl, himg, hcmp, hwf⟩ := hs
  obtain ⟨i, j, hi, hj, hx, hy⟩ := mem_blockOrigins.mp ho
  obtain rfl : o = (4 * i, 4 * j) := Prod.ext hx hy
  obtain ⟨m, hmwf, hmsize, hturn, -, -⟩ := encodeOneBlock_turn himg hi hj hcmp hwf
  exact ⟨_, hturn, rfl, rfl, himg, hmsize.trans hcmp, hmwf⟩

/-- Every pixel of the image is decoded inside the buffers. -/
theorem DecodingImage.exists_turn {w h : Nat} {s : State} (hs : DecodingImage w h s) (hw : w % 4 = 0) (hh : h % 4 = 0)
    {xy : Nat × Nat} (hm : xy ∈ pixelOrder w h) : ∃ t, decodeOnePixel xy s = some t ∧ DecodingImage w h t := by
  obtain ⟨rfl, rfl, himg, hcmp, hwf⟩ := hs
  obtain ⟨hx, hy⟩ := mem_pixelOrder.mp hm
  obtain ⟨m, hmwf, hmsize, hturn, -, -⟩ := decodeOnePixel_turn himg hx hy hw hh hcmp hwf
  exact ⟨_, hturn, rfl, rfl, hmsize.trans himg, hcmp, hmwf⟩

/-- The blocks of an image are encoded in any order when IMG holds the image. -/
theorem encodeInOrder_isSome {s : State} (hs : s.img.size = s.width * s.height) {origins : List (Nat × Nat)}
    (ho : ∀ o ∈ origins, o ∈ blockOrigins s.width s.height) : ∃ t, encodeInOrder origins s = some t := by
  have start : EncodingImage s.width s.height { s with cmp := Memory.sized (compressedLength s.width s.height) } :=
    ⟨rfl, rfl, hs, rfl, sized_wf _⟩
  obtain ⟨t, ht, -⟩ := runOver_isSome (fun o hm _ ha => ha.exists_turn (ho o hm)) start
  exact ⟨t, ht⟩

/-- The pixels of an image are decoded in any order when CMP holds its blocks. -/
theorem decodeInOrder_isSome {s : State} (hw : s.width % 4 = 0) (hh : s.height % 4 = 0)
    (hs : compressedLength s.width s.height ≤ s.cmp.size) {pixels : List (Nat × Nat)}
    (hp : ∀ xy ∈ pixels, xy ∈ pixelOrder s.width s.height) : ∃ t, decodeInOrder pixels s = some t := by
  have start : DecodingImage s.width s.height { s with img := Memory.sized (s.width * s.height) } :=
    ⟨rfl, rfl, rfl, hs, sized_wf _⟩
  obtain ⟨t, ht, -⟩ := runOver_isSome (fun xy hm _ ha => ha.exists_turn hw hh (hp xy hm)) start
  exact ⟨t, ht⟩

/-- ENCODE_IMAGE answers a next state when IMG has `width * height` bytes. -/
theorem execEncodeImage_isNext {s : State} (hs : s.img.size = s.width * s.height) : ∃ t, execEncodeImage s = .next t := by
  obtain ⟨-, e⟩ | ⟨-, hn, -⟩ | ⟨-, -, e⟩ := execEncodeImage_cases s
  · exact ⟨_, e⟩
  · exact absurd hs hn
  · obtain ⟨t, ht⟩ := encodeInOrder_isSome hs fun _ h => h
    exact ⟨succeed t, by rw [e, ht]; rfl⟩

/-- DECODE_IMAGE answers a next state, its error with bad dimensions or a short CMP. -/
theorem execDecodeImage_isNext (s : State) : ∃ t, execDecodeImage s = .next t := by
  obtain ⟨-, e⟩ | ⟨-, -, e⟩ | ⟨hd, hs, e⟩ := execDecodeImage_cases s
  · exact ⟨_, e⟩
  · exact ⟨_, e⟩
  · obtain ⟨hw, hh⟩ := positiveMultipleOf4_of_dimsOk hd
    obtain ⟨t, ht⟩ := decodeInOrder_isSome hw.mod_eq hh.mod_eq hs fun _ h => h
    exact ⟨succeed t, by rw [e, ht]; rfl⟩

/-- Settles O50: the procedures by their loops; every other row answers without a check. -/
theorem everyInstructionRuns : Obligations.EveryInstructionRuns := by
  intro i s h
  cases i with
  | encodeImage => exact execEncodeImage_isNext (h rfl)
  | decodeImage => exact execDecodeImage_isNext s
  | rst which =>
    cases which with
    | enc => exact ⟨_, rfl⟩
    | dec => exact ⟨_, rfl⟩
  | _ => exact ⟨_, rfl⟩

end Sys2Proof.Machine
end

section
/-!
SUPPORT and PROOFS. The Palette Builder: the eight entries on numbers, how they depend on the endpoints and on `flip`, and the
rows that hand them back (R110 to R119).
-/

namespace Sys2Proof.Machine

/-- The row a palette index selects hands back the palette's entry of that index and changes nothing else (R91, R111 to R118). -/
theorem exec_palOfIndex (k : PalIdx) (val0 val1 : Byte) (flip : Bool) (s : State) :
    exec (palOfIndex k val0 val1 flip) s =
      .next { s with ret := some (.entry (buildPalette val0 val1 flip)[k.toFin]) } := by
  obtain ⟨⟨n, hn⟩⟩ := k
  interval_cases n <;> rfl

/-- The whole next state of the instruction BUILD_PALETTE. -/
theorem exec_buildPalette (val0 val1 : Byte) (flip : Bool) (s : State) :
    exec (.buildPalette val0 val1 flip) s = .next { s with ret := some (.palette (buildPalette val0 val1 flip)) } := rfl

/-- "swapping `val0` and `val1` gives PAL3's value" (R113). -/
theorem palEntry3_swap (val0 val1 : Byte) (flip : Bool) : palEntry3 val1 val0 flip = palEntry2 val0 val1 flip :=
  BitVec.eq_of_toNat_eq (by rw [palEntry3_toNat, palEntry2_toNat, Nat.add_comm])

/-- "Symmetric in `val0` and `val1`" (R117). -/
theorem palEntry6_comm (val0 val1 : Byte) (flip : Bool) : palEntry6 val1 val0 flip = palEntry6 val0 val1 flip :=
  BitVec.eq_of_toNat_eq (by rw [palEntry6_toNat, palEntry6_toNat, Nat.add_comm])

/-- "`floor(3v/3) = v`" (R110). -/
@[simp] theorem palEntry2_self (v : Byte) (flip : Bool) : palEntry2 v v flip = v :=
  BitVec.eq_of_toNat_eq (by rw [palEntry2_toNat]; omega)

@[simp] theorem palEntry3_self (v : Byte) (flip : Bool) : palEntry3 v v flip = v := by
  rw [palEntry3_swap, palEntry2_self]

/-- "`floor(2v/2) = v`" (R110). -/
@[simp] theorem palEntry6_self (v : Byte) (flip : Bool) : palEntry6 v v flip = v :=
  BitVec.eq_of_toNat_eq (by rw [palEntry6_toNat]; omega)

/-- The palette of equal endpoints (R110). -/
theorem buildPalette_self (v : Byte) (flip : Bool) : buildPalette v v flip = #v[v, v, v, v, v, v, v, 0] := by
  simp [buildPalette, palEntry0, palEntry1, palEntry4, palEntry5, palEntry7]

/-- Every entry but 4 and 5 is the same whatever `flip` is (R119). -/
theorem buildPalette_flip_irrel (val0 val1 : Byte) (f g : Bool) :
    ∀ k : Fin 8, k.val ≠ 4 → k.val ≠ 5 → (buildPalette val0 val1 f)[k] = (buildPalette val0 val1 g)[k]
  | 4, h, _ => absurd rfl h
  | 5, _, h => absurd rfl h
  | 0, _, _ | 1, _, _ | 2, _, _ | 3, _, _ | 6, _, _ | 7, _, _ => rfl

/-- The interval of bytes between two endpoints, in either order. -/
def LiesBetween (val0 val1 v : Byte) : Prop :=
  min val0.toNat val1.toNat ≤ v.toNat ∧ v.toNat ≤ max val0.toNat val1.toNat

theorem liesBetween_left (val0 val1 : Byte) : LiesBetween val0 val1 val0 := ⟨min_le_left _ _, le_max_left _ _⟩

theorem liesBetween_right (val0 val1 : Byte) : LiesBetween val0 val1 val1 := ⟨min_le_right _ _, le_max_right _ _⟩

theorem palEntry2_liesBetween (val0 val1 : Byte) (flip : Bool) : LiesBetween val0 val1 (palEntry2 val0 val1 flip) := by
  rw [LiesBetween, palEntry2_toNat]; omega

theorem palEntry3_liesBetween (val0 val1 : Byte) (flip : Bool) : LiesBetween val0 val1 (palEntry3 val0 val1 flip) := by
  rw [LiesBetween, palEntry3_toNat]; omega

theorem palEntry4_liesBetween (val0 val1 : Byte) : ∀ flip, LiesBetween val0 val1 (palEntry4 val0 val1 flip)
  | false => liesBetween_right val0 val1
  | true => liesBetween_left val0 val1

theorem palEntry5_liesBetween (val0 val1 : Byte) : ∀ flip, LiesBetween val0 val1 (palEntry5 val0 val1 flip)
  | false => liesBetween_left val0 val1
  | true => liesBetween_right val0 val1

theorem palEntry6_liesBetween (val0 val1 : Byte) (flip : Bool) : LiesBetween val0 val1 (palEntry6 val0 val1 flip) := by
  rw [LiesBetween, palEntry6_toNat]; omega

/-- Entry 7 "is the only entry that can lie outside the interval between the endpoints" (R118). -/
theorem buildPalette_liesBetween (val0 val1 : Byte) (flip : Bool) :
    ∀ k : Fin 8, k.val < 7 → LiesBetween val0 val1 (buildPalette val0 val1 flip)[k]
  | 0, _ => liesBetween_left val0 val1
  | 1, _ => liesBetween_right val0 val1
  | 2, _ => palEntry2_liesBetween val0 val1 flip
  | 3, _ => palEntry3_liesBetween val0 val1 flip
  | 4, _ => palEntry4_liesBetween val0 val1 flip
  | 5, _ => palEntry5_liesBetween val0 val1 flip
  | 6, _ => palEntry6_liesBetween val0 val1 flip
  | 7, h => absurd h (lt_irrefl 7)

/-- Settles O1: each row hands back the entry of its index, entry 3 of the swapped pair is entry 2, and both transient palettes
are built from the named endpoints. -/
theorem lowerHalfEntriesAreTheRules : Obligations.LowerHalfEntriesAreTheRules := by
  refine ⟨fun s a b f => ⟨exec_palOfIndex 0 a b f s, exec_palOfIndex 1 a b f s, ⟨palEntry2 a b f, ?_, ?_, ?_⟩,
    palEntry3 a b f, palEntry3_toNat a b f, exec_palOfIndex 3 a b f s⟩, fun _ => ⟨rfl, rfl⟩, fun _ _ => ⟨rfl, rfl⟩⟩
  · exact palEntry2_toNat a b f
  · exact exec_palOfIndex 2 a b f s
  · rw [← palEntry3_swap a b f]
    exact exec_palOfIndex 3 b a f s

/-- Settles O2: each row hands back the entry of its index, the average is symmetric, and the entries' bounds. -/
theorem upperHalfEntriesAreTheRules : Obligations.UpperHalfEntriesAreTheRules := by
  intro s a b f
  refine ⟨buildPalette_liesBetween a b f, exec_palOfIndex 4 a b false s, exec_palOfIndex 4 a b true s,
    exec_palOfIndex 5 a b false s, exec_palOfIndex 5 a b true s, ⟨palEntry6 a b f, ?_, ?_, ?_⟩, exec_palOfIndex 7 a b f s⟩
  · exact palEntry6_toNat a b f
  · exact exec_palOfIndex 6 a b f s
  · rw [← palEntry6_comm a b f]
    exact exec_palOfIndex 6 b a f s

/-- Settles O3: the three quotients on numbers, the other entries by definition, and the palette of equal endpoints. -/
theorem buildPaletteGivesTheEightEntries : Obligations.BuildPaletteGivesTheEightEntries := by
  intro s a b f
  refine ⟨buildPalette a b f, exec_buildPalette a b f s, rfl, rfl, palEntry2_toNat a b f, palEntry3_toNat a b f, rfl, rfl,
    palEntry6_toNat a b f, rfl, ?_⟩
  rintro rfl
  exact buildPalette_self a f

/-- Settles O4: six entries do not look at `flip`; entries 4 and 5 are the endpoints. -/
theorem flipSwapsEntriesFourAndFiveOnly : Obligations.FlipSwapsEntriesFourAndFiveOnly :=
  fun a b => ⟨buildPalette_flip_irrel a b false true, rfl, rfl, rfl, rfl⟩

end Sys2Proof.Machine
end

section
/-!
SUPPORT and PROOFS. The Residual Evaluator: a residual as the distance of two bytes, the totals as sums over the rows, and the
two rows that hand the tables back (R130, R131).
-/

namespace Sys2Proof.Machine

/-- The whole next state of the instruction RESIDUALS. -/
theorem exec_residuals (blk : Block) (p : Palette) (s : State) :
    exec (.residuals blk p) s = .next { s with ret := some (.residuals (residualTable blk p)) } := rfl

/-- The whole next state of the instruction TOTALS. -/
theorem exec_totals (res : ResTable) (s : State) :
    exec (.totals res) s = .next { s with ret := some (.totals (columnTotals res)) } := rfl

/-- "`abs` is taken of that signed difference" (R130). -/
theorem residual_eq_abs_sub (pixel entry : Byte) :
    ((residual pixel entry).toNat : Int) = |(pixel.toNat : Int) - (entry.toNat : Int)| := by
  rw [residual_toNat, ← max_sub_min_eq_abs']
  omega

/-- The greatest residual is that of the two extreme bytes, in either order (R130). -/
theorem residual_toNat_eq_255_iff (pixel entry : Byte) : (residual pixel entry).toNat = 255 ↔
    (pixel.toNat = 0 ∧ entry.toNat = 255) ∨ (pixel.toNat = 255 ∧ entry.toNat = 0) := by
  have hp := pixel.isLt
  have he := entry.isLt
  rw [residual_toNat]
  omega

/-- The distance of a pixel from the constant 0 is the pixel (R130). -/
@[simp] theorem residual_zero_right (pixel : Byte) : residual pixel 0 = pixel :=
  BitVec.eq_of_toNat_eq (by simp [residual_toNat])

/-- A total is the sum of its column over the sixteen rows (R131). -/
theorem columnTotals_eq_sum (res : ResTable) (j : Fin 8) : (columnTotals res)[j] = ∑ i : Fin 16, res[i][j].toNat := by
  have hrows : res.toList = List.ofFn fun i : Fin 16 => res[i] :=
    List.ext_getElem (by simp) fun i _ _ => by simp only [Fin.getElem_fin, Vector.getElem_toList, List.getElem_ofFn]
  calc (columnTotals res)[j] = (res.toList.map fun row => row[j].toNat).sum := columnTotals_getElem res j j.isLt
    _ = ∑ i : Fin 16, res[i][j].toNat := by rw [hrows, List.map_ofFn, List.sum_ofFn]; rfl

/-- "sixteen values of at most 255 give at most 4080" (R131). -/
theorem columnTotals_le (res : ResTable) (j : Fin 8) : (columnTotals res)[j] ≤ 4080 := by
  have hbyte : ∀ i : Fin 16, res[i][j].toNat ≤ 255 := fun i => Nat.le_of_lt_succ res[i][j].isLt
  calc (columnTotals res)[j] = ∑ i : Fin 16, res[i][j].toNat := columnTotals_eq_sum res j
    _ ≤ ∑ _i : Fin 16, 255 := Finset.sum_le_sum fun i _ => hbyte i
    _ = 4080 := by simp

/-- Settles O7: every entry of the table is the residual of its pixel and palette entry. -/
theorem residualsAreAbsoluteDifferences : Obligations.ResidualsAreAbsoluteDifferences := by
  intro s blk p
  have hentry (i : Fin 16) (j : Fin 8) : (residualTable blk p)[i][j] = residual blk[i] p[j] :=
    residualTable_getElem blk p i j i.isLt j.isLt
  refine ⟨residualTable blk p, exec_residuals blk p s, fun i j => ?_, fun i j h => ?_, fun h7 i => ?_⟩
  · rw [hentry]
    exact residual_eq_abs_sub blk[i] p[j]
  · rw [hentry] at h
    exact (residual_toNat_eq_255_iff blk[i] p[j]).mp h
  · calc (residualTable blk p)[i][7] = residual blk[i] p[7] := hentry i 7
      _ = blk[i] := by rw [h7, residual_zero_right]

/-- Settles O8, by the sum of a column and the bound of its sixteen bytes. -/
theorem totalsAreExactColumnSums : Obligations.TotalsAreExactColumnSums :=
  fun s res => ⟨columnTotals res, exec_totals res s, fun j => ⟨columnTotals_eq_sum res j, columnTotals_le res j⟩⟩

end Sys2Proof.Machine
end

section
/-!
SUPPORT and PROOFS. The Order Selector: the comparison of the two sums, the order of the stored endpoints, and the totals of a
constant block, which decide its order (R140, R141).
-/

namespace Sys2Proof.Machine

/-- The whole next state of the instruction SELECT_ORDER. -/
theorem exec_selectOrder (tot : Totals) (s : State) :
    exec (.selectOrder tot) s = .next { s with ret := some (.order (orderFlag tot)) } := rfl

/-- The whole next state of the instruction SELECT_ENDPOINTS. -/
theorem exec_selectEndpoints (decr : Bool) (maxv minv : Byte) (s : State) :
    exec (.selectEndpoints decr maxv minv) s = .next { s with
      ret := some (.endpoints (storedEndpoints decr maxv minv).1 (storedEndpoints decr maxv minv).2) } := rfl

/-- `DECR := (S23 < S67)` (R140). -/
theorem orderFlag_eq_true_iff (tot : Totals) : orderFlag tot = true ↔ tot[2] + tot[3] < tot[6] + tot[7] :=
  decide_eq_true_iff

/-- "`TOT[0]`, `TOT[1]`, `TOT[4]`, `TOT[5]` are not read" (R140). -/
theorem orderFlag_congr {t t' : Totals} (h2 : t[2] = t'[2]) (h3 : t[3] = t'[3]) (h6 : t[6] = t'[6]) (h7 : t[7] = t'[7]) :
    orderFlag t = orderFlag t' := by
  rw [orderFlag, orderFlag, h2, h3, h6, h7]

/-- The stored pair is decreasing exactly in the decreasing order of two different endpoints (R141). -/
theorem storedEndpoints_decreasing_iff {maxv minv : Byte} (h : minv.toNat ≤ maxv.toNat) : ∀ decr,
    (storedEndpoints decr maxv minv).2.toNat < (storedEndpoints decr maxv minv).1.toNat ↔
      decr = true ∧ minv.toNat < maxv.toNat
  | true => (and_iff_right rfl).symm
  | false => iff_of_false h.not_gt (fun hd => Bool.noConfusion hd.1)

/-- The stored pair is increasing exactly in the increasing order of two different endpoints (R141). -/
theorem storedEndpoints_increasing_iff {maxv minv : Byte} (h : minv.toNat ≤ maxv.toNat) : ∀ decr,
    (storedEndpoints decr maxv minv).1.toNat < (storedEndpoints decr maxv minv).2.toNat ↔
      decr = false ∧ minv.toNat < maxv.toNat
  | true => iff_of_false h.not_gt (fun hd => Bool.noConfusion hd.1)
  | false => (and_iff_right rfl).symm

/-- The order ENC chooses is that of its totals (R156). -/
theorem encTransients_decr (blk : Block) : (encTransients blk).decr = orderFlag (encTransients blk).tot := by
  simp only [encTransients]

theorem constBlock_toList (v : Byte) : (constBlock v).toList = List.replicate 16 v := by
  simp only [constBlock, Vector.toList_ofFn, List.ofFn_const]

@[simp] theorem constBlock_getElem (v : Byte) (i : Nat) (hi : i < 16) : (constBlock v)[i] = v :=
  Vector.getElem_ofFn hi

@[simp] theorem blockMax_constBlock (v : Byte) : blockMax (constBlock v) = v := by
  simp only [blockMax, constBlock_toList, constBlock_getElem, List.replicate, List.foldl_cons, List.foldl_nil, ite_self]

@[simp] theorem blockMin_constBlock (v : Byte) : blockMin (constBlock v) = v := by
  simp only [blockMin, constBlock_toList, constBlock_getElem, List.replicate, List.foldl_cons, List.foldl_nil, ite_self]

/-- A constant block measures each candidate sixteen times. -/
theorem columnTotals_constBlock (v : Byte) (p : Palette) (j : Fin 8) :
    (columnTotals (residualTable (constBlock v) p))[j] = 16 * (residual v p[j]).toNat := by
  have hentry (i : Fin 16) : (residualTable (constBlock v) p)[i][j] = residual v p[j] := by
    calc (residualTable (constBlock v) p)[i][j]
      _ = residual (constBlock v)[i] p[j] := residualTable_getElem (constBlock v) p i j i.isLt j.isLt
      _ = residual v p[j] := congrArg (residual · p[j]) (constBlock_getElem v i i.isLt)
  rw [columnTotals_eq_sum]
  simp only [hentry, Finset.sum_const, Finset.card_univ, Fintype.card_fin, smul_eq_mul]

/-- In a constant block every candidate but the constant 0 fits exactly (R140). -/
theorem encTransients_constBlock_tot (v : Byte) :
    (encTransients (constBlock v)).tot = #v[0, 0, 0, 0, 0, 0, 0, 16 * v.toNat] := by
  have hpal : buildPalette (blockMax (constBlock v)) (blockMin (constBlock v)) false = #v[v, v, v, v, v, v, v, 0] := by
    rw [blockMax_constBlock, blockMin_constBlock, buildPalette_self]
  refine Vector.ext fun j hj => ?_
  calc (encTransients (constBlock v)).tot[j]
    _ = (columnTotals (residualTable (constBlock v) #v[v, v, v, v, v, v, v, 0]))[j] := by rw [← hpal]; rfl
    _ = 16 * (residual v #v[v, v, v, v, v, v, v, 0][j]).toNat := columnTotals_constBlock v _ ⟨j, hj⟩
    _ = #v[0, 0, 0, 0, 0, 0, 0, 16 * v.toNat][j] := by interval_cases j <;> simp [residual_toNat]

/-- "A constant block of value `v > 0` has `S23 = 0` and `S67 = 0 + 16*v > 0`, so `DECR = 1`" (R140). -/
theorem encTransients_constBlock_decr (v : Byte) : (encTransients (constBlock v)).decr = decide (0 < v.toNat) := by
  have hsums : 0 + 0 < 0 + 16 * v.toNat ↔ 0 < v.toNat := by omega
  rw [encTransients_decr, encTransients_constBlock_tot, Bool.eq_iff_iff, orderFlag_eq_true_iff, decide_eq_true_iff]
  exact hsums

/-- Settles O10: the flag is the comparison, reads no other total, and of a constant block compares 0 with the last total. -/
theorem selectOrderComparesTheTwoSums : Obligations.SelectOrderComparesTheTwoSums :=
  ⟨fun s t => ⟨orderFlag t, exec_selectOrder t s, orderFlag_eq_true_iff t⟩, fun _ _ => orderFlag_congr,
    encTransients_constBlock_decr⟩

/-- Settles O11: the pair by the flag's two values, and when it is strictly ordered. -/
theorem selectEndpointsStoresTheChosenOrder : Obligations.SelectEndpointsStoresTheChosenOrder := by
  intro s d maxv minv
  refine ⟨_, _, exec_selectEndpoints d maxv minv s, ?_, ?_, fun h =>
    ⟨storedEndpoints_decreasing_iff h d, storedEndpoints_increasing_iff h d⟩⟩
  · exact apply_ite Prod.fst _ _ _
  · exact apply_ite Prod.snd _ _ _

end Sys2Proof.Machine
end

section
/-!
SUPPORT and PROOFS. MINMAX and SELECT_CODE: the scan for a bound, and the scan for the first smallest residual of the
active half (R150 to R152).
-/

namespace Sys2Proof.Machine

/-- The whole next state of the instruction MINMAX. -/
theorem exec_minmax (blk : Block) (s : State) :
    exec (.minmax blk) s = .next { s with ret := some (.minmax (blockMax blk) (blockMin blk)) } := rfl

section Scan

variable {α κ : Type} [LinearOrder κ] (key : α → κ)

/-- A scan that moves on to each value of a smaller key ends on its first candidate or on a scanned value. -/
theorem foldl_smallerKey_mem (l : List α) (a : α) : l.foldl (fun m p => if key p < key m then p else m) a ∈ a :: l := by
  induction l generalizing a with
  | nil => exact List.mem_cons_self
  | cons p l ih =>
    rw [List.foldl_cons]
    split
    · exact List.mem_cons_of_mem a (ih p)
    · exact List.cons_subset_cons a (List.subset_cons_self p l) (ih a)

/-- No value the scan has seen has a smaller key than the one it ends on. -/
theorem foldl_smallerKey_le (l : List α) (a : α) :
    ∀ x ∈ a :: l, key (l.foldl (fun m p => if key p < key m then p else m) a) ≤ key x := by
  induction l generalizing a with
  | nil => exact fun x hx => (congrArg key (List.mem_singleton.mp hx)).ge
  | cons p l ih =>
    rw [List.foldl_cons, List.forall_mem_cons, List.forall_mem_cons]
    split
    · rename_i h
      obtain ⟨hp, hl⟩ := List.forall_mem_cons.mp (ih p)
      exact ⟨hp.trans h.le, hp, hl⟩
    · rename_i h
      obtain ⟨ha, hl⟩ := List.forall_mem_cons.mp (ih a)
      exact ⟨ha, ha.trans (not_lt.mp h), hl⟩

end Scan

/-- A value found from pixel 0 on is a pixel. -/
theorem exists_pixel_eq {blk : Block} {v : Byte} (h : v ∈ blk[0] :: blk.toList) : ∃ i : Fin 16, blk[i] = v := by
  obtain rfl | h := List.mem_cons.mp h
  · exact ⟨0, rfl⟩
  · obtain ⟨i, hi, e⟩ := Vector.getElem_of_mem (Vector.mem_toList_iff.mp h)
    exact ⟨⟨i, hi⟩, e⟩

/-- Every pixel is among those scanned from pixel 0 on. -/
theorem pixel_mem (blk : Block) (i : Fin 16) : blk[i] ∈ blk[0] :: blk.toList :=
  List.mem_cons_of_mem _ (Vector.mem_toList_iff.mpr (Vector.getElem_mem i.isLt))

/-- `MAXV` is a pixel of the block (R150). -/
theorem exists_eq_blockMax (blk : Block) : ∃ i : Fin 16, blk[i] = blockMax blk :=
  exists_pixel_eq (foldl_smallerKey_mem (fun p : Byte => OrderDual.toDual p.toNat) blk.toList blk[0])

/-- `MINV` is a pixel of the block (R150). -/
theorem exists_eq_blockMin (blk : Block) : ∃ i : Fin 16, blk[i] = blockMin blk :=
  exists_pixel_eq (foldl_smallerKey_mem BitVec.toNat blk.toList blk[0])

theorem le_blockMax (blk : Block) (i : Fin 16) : blk[i].toNat ≤ (blockMax blk).toNat :=
  foldl_smallerKey_le (fun p : Byte => OrderDual.toDual p.toNat) blk.toList blk[0] blk[i] (pixel_mem blk i)

theorem blockMin_le (blk : Block) (i : Fin 16) : (blockMin blk).toNat ≤ blk[i].toNat :=
  foldl_smallerKey_le BitVec.toNat blk.toList blk[0] blk[i] (pixel_mem blk i)

/-- Settles O13: each scan ends on a pixel that no pixel passes. -/
theorem minMaxAreAttainedBounds : Obligations.MinMaxAreAttainedBounds := by
  intro s blk
  refine ⟨blockMax blk, blockMin blk, exec_minmax blk s, exists_eq_blockMax blk, exists_eq_blockMin blk,
    fun i => ⟨blockMin_le blk i, le_blockMax blk i⟩, ?_⟩
  rintro v rfl
  exact ⟨blockMax_constBlock v, blockMin_constBlock v⟩

/-- The whole next state of the instruction SELECT_CODE. -/
theorem exec_selectCode (decr : Bool) (res : ResTable) (s : State) :
    exec (.selectCode decr res) s = .next { s with ret := some (.codes (selectCodes decr res)) } := rfl

/-- The code of a pixel is the first offset of its active half with the smallest residual (R151, R152). -/
theorem selectCodes_spec (decr : Bool) (res : ResTable) (i : Fin 16) :
    ∃ k : Fin 4, (selectCodes decr res)[i].toNat = k.val ∧
      (∀ j : Fin 4, (activeHalf decr res[i])[k].toNat ≤ (activeHalf decr res[i])[j].toNat) ∧
      ∀ j : Fin 4, j < k → (activeHalf decr res[i])[k].toNat < (activeHalf decr res[i])[j].toNat := by
  obtain ⟨k, hk, hmin⟩ := firstMinimum_spec (activeHalf decr res[i])
  refine ⟨k, ?_, hmin⟩
  calc (selectCodes decr res)[i].toNat
    _ = (firstMinimum (activeHalf decr res[i])).toNat := congrArg BitVec.toNat (selectCodes_getElem decr res i i.isLt)
    _ = k.val := by rw [hk, BitVec.toNat_ofNat, Nat.mod_eq_of_lt k.isLt]

/-- "The scan never looks at the inactive half" (R151). -/
theorem activeHalf_congr {decr : Bool} {row row' : ResRow}
    (h : ∀ j : Fin 8, (j.val < 4 ↔ decr = true) → row[j] = row'[j]) : activeHalf decr row = activeHalf decr row' := by
  cases decr with
  | false =>
    have upper : row[4] = row'[4] ∧ row[5] = row'[5] ∧ row[6] = row'[6] ∧ row[7] = row'[7] :=
      ⟨h 4 (by decide), h 5 (by decide), h 6 (by decide), h 7 (by decide)⟩
    simp only [activeHalf, upper, Bool.false_eq_true, if_false]
  | true =>
    have lower : row[0] = row'[0] ∧ row[1] = row'[1] ∧ row[2] = row'[2] ∧ row[3] = row'[3] :=
      ⟨h 0 (by decide), h 1 (by decide), h 2 (by decide), h 3 (by decide)⟩
    simp only [activeHalf, lower, if_true]

/-- Settles O14: the scan's first minimum in each row, which depends on the active half alone. -/
theorem selectCodeTakesTheFirstMinimum : Obligations.SelectCodeTakesTheFirstMinimum := by
  refine ⟨fun s d r => ⟨selectCodes d r, exec_selectCode d r s, fun i =>
    ⟨activeHalf d r[i], ?_, ?_, selectCodes_spec d r i⟩⟩, fun d r r' h => Vector.ext fun i hi => ?_⟩
  · rintro rfl; rfl
  · rintro rfl; rfl
  · rw [selectCodes_getElem, selectCodes_getElem]
    exact congrArg firstMinimum (activeHalf_congr (h ⟨i, hi⟩))

end Sys2Proof.Machine
end

section
/-!
SUPPORT and PROOFS. PACK_CODEWORDS and EMIT_BLOCK: a code word as its sixteen lanes and as its four bytes (R87, R88,
R153, R154).
-/

namespace Sys2Proof.Machine

/-- The whole next state of the instruction PACK_CODEWORDS. -/
theorem exec_packCodewords (codes : Codes) (s : State) :
    exec (.packCodewords codes) s = .next { s with ret := some (.codeword (packCodewords codes)) } := rfl

/-- A code put into lane `i` is seen in the bits of that lane and in no other (R153). -/
theorem getLsbD_putLane (cw : CodeWord) (i : Nat) (code : Code) {b : Nat} (hb : b < 32) :
    (putLane cw i code).getLsbD b = (cw.getLsbD b || (decide (b / 2 = i) && code.getLsbD (b % 2))) := by
  rw [putLane, BitVec.getLsbD_or, BitVec.getLsbD_shiftLeft, BitVec.getLsbD_setWidth]
  congr 1
  by_cases h : b / 2 = i
  · have hbit : b - 2 * i = b % 2 := by omega
    have hlow : ¬ b < 2 * i := by omega
    have hwidth : b % 2 < 32 := by omega
    simp only [hbit, hb, hlow, hwidth, h, decide_true, decide_false, Bool.not_false, Bool.true_and]
  · rw [decide_eq_false h, Bool.false_and]
    rcases Nat.lt_or_ge b (2 * i) with hlt | hge
    · simp [hlt]
    · simp [BitVec.getLsbD_of_ge code (b - 2 * i) (by omega)]

/-- A bit of a word into which the lanes of a list have been put. -/
theorem getLsbD_foldl_putLane (codes : Codes) (lanes : List (Fin 16)) (cw : CodeWord) {b : Nat} (hb : b < 32) :
    (lanes.foldl (fun cw i => putLane cw i.val codes[i]) cw).getLsbD b =
      (cw.getLsbD b || lanes.any fun i => decide (b / 2 = i.val) && codes[i].getLsbD (b % 2)) := by
  induction lanes generalizing cw with
  | nil => simp
  | cons i lanes ih => rw [List.foldl_cons, ih, getLsbD_putLane cw i codes[i] hb, List.any_cons, Bool.or_assoc]

/-- Every bit of the packed word is a bit of one code (R153). -/
theorem getLsbD_packCodewords (codes : Codes) {b : Nat} (hb : b < 32) :
    (packCodewords codes).getLsbD b = (codes[b / 2]'(by omega)).getLsbD (b % 2) := by
  rw [packCodewords, getLsbD_foldl_putLane codes _ 0 hb, Bool.eq_iff_iff]
  simp only [BitVec.ofNat_eq_ofNat, BitVec.getLsbD_zero, Bool.false_or, List.any_eq_true, List.mem_finRange, true_and,
    Bool.and_eq_true, decide_eq_true_eq]
  constructor
  · rintro ⟨i, hi, h⟩
    simpa [hi] using h
  · exact fun h => ⟨⟨b / 2, by omega⟩, rfl, h⟩

/-- Lane `i` of the packed word is `CODE[i]` (R153). -/
theorem packCodewords_lane (codes : Codes) (i : Fin 16) : (packCodewords codes).extractLsb' (2 * i.val) 2 = codes[i] := by
  refine BitVec.eq_of_getLsbD_eq fun j hj => ?_
  have hlane : (2 * i.val + j) / 2 = i.val := by omega
  have hbit : (2 * i.val + j) % 2 = j := by omega
  rw [BitVec.getLsbD_extractLsb', decide_eq_true hj, Bool.true_and, getLsbD_packCodewords codes (by omega)]
  simp [hlane, hbit]

/-- The `n` lowest base-4 digits of a number. -/
theorem sum_base4_digits (x n : Nat) :
    ∑ i ∈ Finset.range n, x / 2 ^ (2 * i) % 2 ^ 2 * 2 ^ (2 * i) = x % 2 ^ (2 * n) := by
  induction n with
  | zero => simp [Nat.mod_one]
  | succ n ih =>
    rw [Finset.sum_range_succ, ih, Nat.mul_succ, Nat.pow_add, Nat.mod_mul, Nat.mul_comm (2 ^ (2 * n))]

/-- A word is the sum of its sixteen lanes, each at its weight (R88, R153). -/
theorem toNat_eq_sum_lanes (cw : CodeWord) :
    cw.toNat = ∑ i : Fin 16, (cw.extractLsb' (2 * i.val) 2).toNat * 2 ^ (2 * i.val) := by
  simp only [BitVec.extractLsb'_toNat, Nat.shiftRight_eq_div_pow]
  rw [Fin.sum_univ_eq_sum_range (fun i => cw.toNat / 2 ^ (2 * i) % 2 ^ 2 * 2 ^ (2 * i)) 16]
  exact (Nat.mod_eq_of_lt cw.isLt).symm.trans (sum_base4_digits cw.toNat 16).symm

/-- Settles O15: the lanes of the packed word, and the number that the lanes of any word make up. -/
theorem packCodewordsFillsEveryLane : Obligations.PackCodewordsFillsEveryLane := by
  refine ⟨fun s k => ⟨packCodewords k, exec_packCodewords k s, packCodewords_lane k, ?_⟩, fun cw cw' h => ?_⟩
  · simpa only [packCodewords_lane] using toNat_eq_sum_lanes (packCodewords k)
  · apply BitVec.eq_of_toNat_eq
    rw [toNat_eq_sum_lanes cw, toNat_eq_sum_lanes cw']
    simp only [h]

/-- The whole next state of the instruction EMIT_BLOCK. -/
theorem exec_emitBlock (v0 v1 : Byte) (cw : CodeWord) (s : State) :
    exec (.emitBlock v0 v1 cw) s = .next { s with ret := some (.cblock (emitBlock v0 v1 cw)) } := rfl

theorem emitBlock_byte0 (v0 v1 : Byte) (cw : CodeWord) : (emitBlock v0 v1 cw)[0] = v0 := rfl

theorem emitBlock_byte1 (v0 v1 : Byte) (cw : CodeWord) : (emitBlock v0 v1 cw)[1] = v1 := rfl

/-- A byte appended to a word is its lowest base-256 digit. -/
theorem toNat_append_byte {n : Nat} (v : BitVec n) (b : Byte) : (v ++ b).toNat = v.toNat * 2 ^ 8 + b.toNat := by
  rw [BitVec.toNat_append, ← Nat.shiftLeft_add_eq_or_of_lt b.isLt, Nat.shiftLeft_eq]

/-- The word of bytes 2 to 5 as the big-endian number (R87). -/
theorem unpackCodeword_toNat (cb : CBlock) : (unpackCodeword cb).toNat =
    cb[2].toNat * 2 ^ 24 + cb[3].toNat * 2 ^ 16 + cb[4].toNat * 2 ^ 8 + cb[5].toNat := by
  simp only [unpackCodeword, codewordOfBytes]
  rw [toNat_append_byte, toNat_append_byte, toNat_append_byte]
  omega

/-- Assembling bytes 2 to 5 gives the word back (R87, R154). -/
theorem unpackCodeword_emitBlock (v0 v1 : Byte) (cw : CodeWord) : unpackCodeword (emitBlock v0 v1 cw) = cw := by
  have hbyte (k : Nat) : (codewordByte cw k).toNat = cw.toNat / 2 ^ (8 * k) % 2 ^ 8 := by
    rw [codewordByte, BitVec.extractLsb'_toNat, Nat.shiftRight_eq_div_pow]
  apply BitVec.eq_of_toNat_eq
  calc (unpackCodeword (emitBlock v0 v1 cw)).toNat
    _ = (codewordByte cw 3).toNat * 2 ^ 24 + (codewordByte cw 2).toNat * 2 ^ 16 + (codewordByte cw 1).toNat * 2 ^ 8 +
          (codewordByte cw 0).toNat := unpackCodeword_toNat _
    _ = cw.toNat := by rw [hbyte, hbyte, hbyte, hbyte]; omega

/-- Taking an assembled word apart gives the bytes back (R87, R154). -/
theorem emitBlock_unpackCodeword (cb : CBlock) : emitBlock cb[0] cb[1] (unpackCodeword cb) = cb := by
  refine Vector.ext fun i hi => ?_
  have hbyte (k : Nat) (hk : k < 4) : codewordByte (unpackCodeword cb) k = cb[5 - k] := unpackCodeword_byte cb hk
  interval_cases i
  · rfl
  · rfl
  · exact hbyte 3 (by decide)
  · exact hbyte 2 (by decide)
  · exact hbyte 1 (by decide)
  · exact hbyte 0 (by decide)

/-- Settles O16: the layout by definition, the word as assembled again, and its number. -/
theorem emitBlockLaysOutTheSixBytes : Obligations.EmitBlockLaysOutTheSixBytes := by
  refine ⟨fun s v0 v1 cw => ⟨emitBlock v0 v1 cw, exec_emitBlock v0 v1 cw s, rfl, rfl, rfl, rfl, rfl, rfl,
    unpackCodeword_emitBlock v0 v1 cw, ?_⟩, emitBlock_unpackCodeword⟩
  rw [← unpackCodeword_toNat, unpackCodeword_emitBlock]

end Sys2Proof.Machine
end

section
/-!
SUPPORT and PROOFS. ENCODE_BLOCK on plain numbers: its totals and residuals as distances from the rule's candidates, and
its six bytes (R143, R156).
-/

namespace Sys2Proof.Machine

/-- A residual is the distance of the pixel from the palette entry (R130). -/
theorem residual_eq_distance (pixel entry : Byte) : (residual pixel entry).toNat = distance pixel.toNat entry.toNat :=
  residual_toNat pixel entry

/-- A total of a block's residuals is the block's distance from the palette entry (R131). -/
theorem columnTotals_residualTable (blk : Block) (p : Palette) (j : Nat) (hj : j < 8) :
    (columnTotals (residualTable blk p))[j] = blockDistance blk p[j].toNat := by
  have column : (residualTable blk p).toList.map (fun row => row[j].toNat) =
      blk.toList.map fun v => distance v.toNat p[j].toNat := by
    refine List.ext_getElem (by simp) fun i hi _ => ?_
    have hi16 : i < 16 := by simpa using hi
    simp only [List.getElem_map, Vector.getElem_toList, residualTable_getElem blk p i j hi16 hj, residual_eq_distance]
  rw [columnTotals_getElem _ j hj, column, blockDistance]

/-- The active half of ENC's one palette is the rule's candidates (R143, R155). -/
theorem activeHalf_buildPalette (maxv minv : Byte) : ∀ (decr : Bool) (k : Fin 4),
    (activeHalf decr (buildPalette maxv minv false))[k].toNat = candidate decr maxv.toNat minv.toNat k
  | true, 0 | true, 1 | false, 0 | false, 1 | false, 3 => rfl
  | true, 2 => palEntry2_toNat maxv minv false
  | true, 3 => palEntry3_toNat maxv minv false
  | false, 2 => palEntry6_toNat maxv minv false

/-- A row of residuals is the palette measured from its pixel (R130). -/
theorem residualTable_row (blk : Block) (p : Palette) (i : Fin 16) : (residualTable blk p)[i] = p.map (residual blk[i]) :=
  Vector.ext fun j hj => by
    rw [Vector.getElem_map]
    exact residualTable_getElem blk p i j i.isLt hj

/-- The active half is taken by place, whatever stands there. -/
theorem activeHalf_map (f : Byte → Byte) (row : ResRow) : ∀ decr,
    activeHalf decr (row.map f) = (activeHalf decr row).map f
  | true => by simp [activeHalf]
  | false => by simp [activeHalf]

/-- The residuals SELECT_CODE compares are the distances from the candidates (R143, R151). -/
theorem encTransients_activeHalf (blk : Block) (decr : Bool) (i : Fin 16) (k : Fin 4) :
    (activeHalf decr (encTransients blk).res[i])[k].toNat =
      distance blk[i].toNat (candidate decr (blockMax blk).toNat (blockMin blk).toNat k) := by
  have row : (encTransients blk).res[i] = (buildPalette (blockMax blk) (blockMin blk) false).map (residual blk[i]) :=
    residualTable_row blk _ i
  rw [row, activeHalf_map, ← activeHalf_buildPalette, ← residual_eq_distance]
  exact congrArg BitVec.toNat (Vector.getElem_map _ k.isLt)

/-- The order on numbers: the thirds fit better than the average and zero (R140, R156). -/
theorem encTransients_decr_iff (blk : Block) : (encTransients blk).decr = true ↔
    blockDistance blk ((2 * (blockMax blk).toNat + (blockMin blk).toNat) / 3) +
        blockDistance blk (((blockMax blk).toNat + 2 * (blockMin blk).toNat) / 3) <
      blockDistance blk (((blockMax blk).toNat + (blockMin blk).toNat) / 2) + blockDistance blk 0 := by
  have total (j : Nat) (hj : j < 8) : (encTransients blk).tot[j] =
      blockDistance blk (buildPalette (blockMax blk) (blockMin blk) false)[j].toNat := columnTotals_residualTable blk _ j hj
  rw [encTransients_decr, orderFlag_eq_true_iff, total 2, total 3, total 6, total 7,
    ← palEntry2_toNat (flip := false), ← palEntry3_toNat (flip := false), ← palEntry6_toNat (flip := false)]
  rfl

/-- The word ENC emits packs the codes of its order and residuals (R156). -/
theorem encTransients_cw (blk : Block) :
    (encTransients blk).cw = packCodewords (selectCodes (encTransients blk).decr (encTransients blk).res) := by
  simp only [encTransients]

/-- Lane `i` of bytes 2 to 5 is pixel `i`'s code (R153, R154). -/
theorem encodeBlock_lane (blk : Block) (i : Fin 16) : (unpackCodeword (encodeBlock blk)).extractLsb' (2 * i.val) 2 =
    (selectCodes (encTransients blk).decr (encTransients blk).res)[i] := by
  rw [encodeBlock, unpackCodeword_emitBlock, encTransients_cw, packCodewords_lane]

theorem encTransients_v0 (blk : Block) :
    (encTransients blk).v0 = (storedEndpoints (encTransients blk).decr (blockMax blk) (blockMin blk)).1 := by
  simp only [encTransients]

theorem encTransients_v1 (blk : Block) :
    (encTransients blk).v1 = (storedEndpoints (encTransients blk).decr (blockMax blk) (blockMin blk)).2 := by
  simp only [encTransients]

/-- Byte 0 is the bound that the order puts first (R141, R154). -/
theorem encodeBlock_byte0 (blk : Block) :
    (encodeBlock blk)[0].toNat = if (encTransients blk).decr then (blockMax blk).toNat else (blockMin blk).toNat := by
  rw [encodeBlock, emitBlock_byte0, encTransients_v0]
  exact apply_ite (fun ends : Byte × Byte => ends.1.toNat) _ _ _

/-- Byte 1 is the other bound (R141, R154). -/
theorem encodeBlock_byte1 (blk : Block) :
    (encodeBlock blk)[1].toNat = if (encTransients blk).decr then (blockMin blk).toNat else (blockMax blk).toNat := by
  rw [encodeBlock, emitBlock_byte1, encTransients_v1]
  exact apply_ite (fun ends : Byte × Byte => ends.2.toNat) _ _ _

/-- Settles O18: the bounds, the order, the endpoints, and each lane as its pixel's code, a first minimum over the
distances. -/
theorem encodedBlockMeetsTheRules : Obligations.EncodedBlockMeetsTheRules := by
  intro s blk
  obtain ⟨iMax, hMax⟩ := exists_eq_blockMax blk
  obtain ⟨iMin, hMin⟩ := exists_eq_blockMin blk
  refine ⟨_, encodeBlock blk, (blockMax blk).toNat, (blockMin blk).toNat, (encTransients blk).decr,
    encodeBlockCompletesInEveryState s blk, rfl, rfl, rfl, ⟨iMax, by rw [hMax]⟩, ⟨iMin, by rw [hMin]⟩,
    fun i => ⟨blockMin_le blk i, le_blockMax blk i⟩, encTransients_decr_iff blk, encodeBlock_byte0 blk,
    encodeBlock_byte1 blk, fun i => ?_⟩
  obtain ⟨k, hk, hmin, hfirst⟩ := selectCodes_spec (encTransients blk).decr (encTransients blk).res i
  simp only [encTransients_activeHalf] at hmin hfirst
  exact ⟨k, (congrArg BitVec.toNat (encodeBlock_lane blk i)).trans hk, hmin, hfirst⟩

end Sys2Proof.Machine
end

section
/-!
SUPPORT and PROOFS. One edge of a clock without reset, and the reads of the result outputs (R157 to R159, R179, R245).
-/

namespace Sys2Proof.Machine

/-- A unit at rest of which nothing is asked holds everything (R157, R220). -/
theorem encEdge_hold {p : EncPorts} {u : EncUnit} (hr : p.rst = false) (hs : p.start = false) (hu : u.ph ≠ .busy) :
    encEdge p u = u := by
  simpa [hr, hs, hu] using encEdge_cases p u

/-- The same of DEC (R177, R220). -/
theorem decEdge_hold {p : DecPorts} {u : DecUnit} (hr : p.rst = false) (hs : p.start = false) (hu : u.ph ≠ .busy) :
    decEdge p u = u := by
  simpa [hr, hs, hu] using decEdge_cases p u

/-- A BUSY unit looks at no request (R157, R243): its edge without reset is a quiet one. -/
theorem encEdge_busy {p : EncPorts} {u : EncUnit} (hr : p.rst = false) (hb : u.ph = .busy) :
    encEdge p u = encEdge encQuiet u := by
  simp only [encEdge, encEdgeWith, encQuiet, hr, hb]

/-- A quiet edge of a BUSY unit keeps its operand, and leaves it BUSY or completes it (R157, R158). -/
theorem encEdge_quiet_busy {u : EncUnit} (hb : u.ph = .busy) :
    (encEdge encQuiet u).blk = u.blk ∧ ((encEdge encQuiet u).ph = .busy ∨
      ((encEdge encQuiet u).ph = .done ∧ (encEdge encQuiet u).cb = encodeBlock u.blk)) := by
  rcases Nat.lt_or_ge (u.age + 1) (encLatency u) with hl | hl
  · rw [encEdge_quiet_early hb hl]
    exact ⟨rfl, .inl hb⟩
  · rw [encEdge_quiet_last hb hl]
    exact ⟨rfl, .inr ⟨rfl, rfl⟩⟩

/-- A unit at rest accepts what its port presents (R157). -/
theorem encEdge_start {p : EncPorts} {u : EncUnit} (hr : p.rst = false) (hs : p.start = true) (hu : u.ph ≠ .busy) :
    encEdge p u = encAccept (blockOfPort p.blk) u := by
  simpa [hr, hs, hu] using encEdge_cases p u

/-- Settles O37: the accept step, an edge of a BUSY unit with and without its request, and an edge that asks nothing. -/
theorem encAcceptsAndCompletes : Obligations.EncAcceptsAndCompletes := by
  intro s p rest hs hr
  refine ⟨encEdge p s.enc, step_action hs, fun hp hn => ?_, fun hb => ?_, fun hp hn => encEdge_hold hr hp hn⟩
  · rw [encEdge_start hr hp hn]
    exact ⟨fun i => Vector.getElem_ofFn i.isLt, rfl⟩
  · obtain ⟨hblk, hnext⟩ := encEdge_quiet_busy hb
    rw [encEdge_busy hr hb, encEdge_busy (p := { p with start := false }) hr hb]
    exact ⟨hblk, rfl, hnext⟩

/-- Settles O40: the read by its two cases, and a unit at rest that holds. -/
theorem resultsAreReadInDoneOnly : Obligations.ResultsAreReadInDoneOnly :=
  fun _ _ =>
    ⟨fun hs => ⟨fun hd => (step_action hs).trans (if_pos hd), fun hd => (step_action hs).trans (if_neg hd)⟩,
      fun hs => ⟨fun hd => (step_action hs).trans (if_pos hd), fun hd => (step_action hs).trans (if_neg hd)⟩,
      fun _ hr hp hd => encEdge_hold hr hp (by simp [hd]), fun _ hr hp hd => decEdge_hold hr hp (by simp [hd])⟩

end Sys2Proof.Machine
end

section
/-!
SUPPORT and PROOFS. With nothing more asked, every unit of the platform comes to rest (R158, R178, R250).
-/

namespace Sys2Proof.Machine

open Filter

/-- Counting from `a` edge by edge until the edge that reaches `l`: the end comes within `l` edges. -/
theorem exists_iterate_counted {α : Type} {f : α → α} {x : Nat → α} {y : α} {a l : Nat} (hl : 0 < l)
    (early : ∀ k, a + k + 1 < l → f (x k) = x (k + 1)) (last : ∀ k, l ≤ a + k + 1 → f (x k) = y) :
    ∃ n ≤ l, f^[n] (x 0) = y := by
  obtain ⟨m, hm⟩ : ∃ m, m = l - (a + 1) := ⟨_, rfl⟩
  refine ⟨m + 1, by omega, ?_⟩
  rw [Function.iterate_succ_apply', iterate_follows fun k hk => early k (by omega)]
  exact last m (by omega)

/-- A BUSY unit of any age completes within its latency when nothing more is asked of it (R158). -/
theorem exists_encEdge_iterate_complete {u : EncUnit} (hb : u.ph = .busy) :
    ∃ n ≤ encLatency u, (encEdge encQuiet)^[n] u = encComplete u :=
  exists_iterate_counted (x := fun k => { u with age := u.age + k }) (encLatency_pos u)
    (fun k hk => encEdge_quiet_early (u := { u with age := u.age + k }) hb hk)
    (fun k hk => encEdge_quiet_last (u := { u with age := u.age + k }) hb hk)

/-- The same of DEC (R178). -/
theorem exists_decEdge_iterate_complete {u : DecUnit} (hb : u.ph = .busy) :
    ∃ n ≤ decLatency u, (decEdge decQuiet)^[n] u = decComplete u :=
  exists_iterate_counted (x := fun k => { u with age := u.age + k }) (decLatency_pos u)
    (fun k hk => decEdge_quiet_early (u := { u with age := u.age + k }) hb hk)
    (fun k hk => decEdge_quiet_last (u := { u with age := u.age + k }) hb hk)

/-- A property that fixes what has it holds from some time on, once it is reached. -/
theorem eventually_iterate_of_fixed {α : Type} {f : α → α} {P : α → Prop} (fixed : ∀ x, P x → f x = x) {x : α}
    (reached : ¬ P x → ∃ n, P (f^[n] x)) : ∀ᶠ m in atTop, P (f^[m] x) := by
  obtain ⟨n, hn⟩ : ∃ n, P (f^[n] x) := (em (P x)).elim (fun h => ⟨0, h⟩) reached
  refine eventually_atTop.mpr ⟨n, fun m hm => ?_⟩
  obtain ⟨k, rfl⟩ := Nat.exists_eq_add_of_le' hm
  rw [Function.iterate_add_apply, Function.iterate_fixed (fixed _ hn)]
  exact hn

/-- An ENC unit of which nothing more is asked comes to rest for good. -/
theorem encUnit_eventually_at_rest (u : EncUnit) : ∀ᶠ n in atTop, ((encEdge encQuiet)^[n] u).ph ≠ .busy := by
  refine eventually_iterate_of_fixed (P := fun v : EncUnit => v.ph ≠ .busy) (fun _ => encEdge_hold rfl rfl) fun hb => ?_
  obtain ⟨n, -, hn⟩ := exists_encEdge_iterate_complete (not_not.mp hb)
  exact ⟨n, by simp [hn]⟩

/-- A DEC unit of which nothing more is asked comes to rest for good. -/
theorem decUnit_eventually_at_rest (u : DecUnit) : ∀ᶠ n in atTop, ((decEdge decQuiet)^[n] u).ph ≠ .busy := by
  refine eventually_iterate_of_fixed (P := fun v : DecUnit => v.ph ≠ .busy) (fun _ => decEdge_hold rfl rfl) fun hb => ?_
  obtain ⟨n, -, hn⟩ := exists_decEdge_iterate_complete (not_not.mp hb)
  exact ⟨n, by simp [hn]⟩

/-- Iterating over a list place by place. -/
theorem iterate_listMap {α : Type} (f : α → α) (n : Nat) : (List.map f)^[n] = List.map f^[n] := by
  induction n with
  | zero => funext l; simp
  | succ n ih => funext l; rw [Function.iterate_succ_apply', ih, List.map_map, Function.iterate_succ']

/-- Over quiet edges of the platform, each waiting ENC unit sees quiet edges of its own clock. -/
theorem quietEdge_iterate_encPool (n : Nat) (s : State) :
    (quietEdge^[n] s).encPool = s.encPool.map (encEdge encQuiet)^[n] :=
  ((Function.Semiconj.iterate_right (f := State.encPool) (fun _ => rfl) n) s).trans (congrFun (iterate_listMap _ n) _)

/-- The same of the waiting DEC units. -/
theorem quietEdge_iterate_decPool (n : Nat) (s : State) :
    (quietEdge^[n] s).decPool = s.decPool.map (decEdge decQuiet)^[n] :=
  ((Function.Semiconj.iterate_right (f := State.decPool) (fun _ => rfl) n) s).trans (congrFun (iterate_listMap _ n) _)

/-- A platform of which nothing more is asked comes to rest (R250). -/
theorem eventually_quiescent (s : State) : ∀ᶠ n in atTop, (quietEdge^[n] s).Quiescent := by
  simp only [State.Quiescent, quietEdge_iterate_enc, quietEdge_iterate_dec, quietEdge_iterate_encPool,
    quietEdge_iterate_decPool, List.forall_mem_map]
  refine (encUnit_eventually_at_rest s.enc).and ((decUnit_eventually_at_rest s.dec).and (.and ?_ ?_))
  · exact (eventually_all_finite s.encPool.finite_toSet).mpr fun u _ => encUnit_eventually_at_rest u
  · exact (eventually_all_finite s.decPool.finite_toSet).mpr fun u _ => decUnit_eventually_at_rest u

/-- Settles O43: some number of quiet edges brings every unit to rest, and a BUSY unit in hand completes within its
latency. -/
theorem everyAcceptedRequestCompletes : Obligations.EveryAcceptedRequestCompletes := by
  intro s hs
  refine ⟨?_, fun hb => ?_, fun hb => ?_⟩
  · obtain ⟨n, hn⟩ := (eventually_quiescent s).exists
    exact ⟨n, _, run_quiet hs n, hn⟩
  · obtain ⟨n, hle, hn⟩ := exists_encEdge_iterate_complete hb
    exact ⟨n, _, hle, run_quiet hs n, by simp [quietEdge_iterate_enc, hn]⟩
  · obtain ⟨n, hle, hn⟩ := exists_decEdge_iterate_complete hb
    exact ⟨n, _, hle, run_quiet hs n, by simp [quietEdge_iterate_dec, hn]⟩

end Sys2Proof.Machine
end

section
/-!
SUPPORT and PROOFS. The Block Decoder: its four stages on numbers and the rows that hand them back, the transaction `DEC` with
the table of its pixel, and one edge of its clock (R170 to R178).
-/

namespace Sys2Proof.Machine

/-- The whole next state of the instruction UNPACK_BLOCK. -/
theorem exec_unpackBlock (cb : CBlock) (s : State) :
    exec (.unpackBlock cb) s = .next { s with ret := some (.unpacked cb[0] cb[1] (unpackCodeword cb)) } := rfl

/-- The whole next state of the instruction EXTRACT_CODE. -/
theorem exec_extractCode (cw : CodeWord) (p : PixIdx) (s : State) :
    exec (.extractCode cw p) s = .next { s with ret := some (.code (lane cw p)) } := rfl

/-- The whole next state of the instruction SELECT_INDEX. -/
theorem exec_selectIndex (a b : Byte) (k : Code) (s : State) :
    exec (.selectIndex a b k) s = .next { s with ret := some (.index (upperHalf a b) (paletteIndex a b k)) } := rfl

/-- The whole next state of the instruction PALETTE_LOOKUP. -/
theorem exec_paletteLookup (a b : Byte) (idx : PalIdx) (s : State) :
    exec (.paletteLookup a b idx) s = .next { s with ret := some (.pixel (paletteLookup a b idx)) } := rfl

/-- The whole next state of the instruction DECODE_BLOCK16. -/
theorem exec_decodeBlock16 (cb : CBlock) (s : State) : exec (.decodeBlock16 cb) s =
    .next { s with dec := decTransact16 cb s.dec, ret := some (.block (decodeBlock16 cb)) } := rfl

/-- Lane `p` is the word's base-4 digit of weight `4 ^ p` (R88, R171). -/
theorem lane_toNat (cw : CodeWord) (p : PixIdx) : (lane cw p).toNat = cw.toNat / 4 ^ p.toNat % 4 := by
  rw [lane_eq_extractLsb', BitVec.extractLsb'_toNat, Nat.shiftRight_eq_div_pow, Nat.pow_mul]

/-- "`HALF := (DV0 > DV1) ? 0 : 1`" (R172). -/
theorem upperHalf_eq_false_iff (a b : Byte) : upperHalf a b = false ↔ b.toNat < a.toNat := by
  simp [upperHalf]

theorem upperHalf_eq_true_iff (a b : Byte) : upperHalf a b = true ↔ a.toNat ≤ b.toNat := by
  simp [upperHalf]

/-- The half is the index's uppermost bit, of weight 4 (R85, R172). -/
theorem paletteIndex_toNat (a b : Byte) (k : Code) :
    (paletteIndex a b k).toNat = if upperHalf a b then k.toNat + 4 else k.toNat := by
  rw [paletteIndex, BitVec.toNat_append, ← Nat.shiftLeft_add_eq_or_of_lt k.isLt]
  cases upperHalf a b with
  | false => exact Nat.zero_add k.toNat
  | true => exact Nat.add_comm 4 k.toNat

/-- Every code is one of the four (R84). -/
theorem forall_code {P : Code → Prop} (h0 : P 0) (h1 : P 1) (h2 : P 2) (h3 : P 3) : ∀ k, P k := by
  rintro ⟨⟨n, hn⟩⟩
  interval_cases n
  · exact h0
  · exact h1
  · exact h2
  · exact h3

/-- The four values of the lower half, by code (R175). -/
theorem paletteLookup_lowerHalf {a b : Byte} (h : b.toNat < a.toNat) :
    ∀ k : Code, paletteLookup a b (paletteIndex a b k) = #v[a, b, palEntry2 a b true, palEntry3 a b true][k.toFin] := by
  simp only [paletteIndex, (upperHalf_eq_false_iff a b).mpr h]
  exact forall_code rfl rfl rfl rfl

/-- The four values of the upper half, by code (R175). -/
theorem paletteLookup_upperHalf {a b : Byte} (h : a.toNat ≤ b.toNat) :
    ∀ k : Code, paletteLookup a b (paletteIndex a b k) = #v[a, b, palEntry6 a b true, 0][k.toFin] := by
  simp only [paletteIndex, (upperHalf_eq_true_iff a b).mpr h]
  exact forall_code rfl rfl rfl rfl

/-- Codes 0 and 1 are the endpoints in both halves (R175). -/
theorem paletteLookup_code0 (a b : Byte) : paletteLookup a b (paletteIndex a b 0) = a :=
  (Nat.lt_or_ge b.toNat a.toNat).elim (paletteLookup_lowerHalf · 0) (paletteLookup_upperHalf · 0)

theorem paletteLookup_code1 (a b : Byte) : paletteLookup a b (paletteIndex a b 1) = b :=
  (Nat.lt_or_ge b.toNat a.toNat).elim (paletteLookup_lowerHalf · 1) (paletteLookup_upperHalf · 1)

/-- A pixel is looked up by the code in its lane (R174). -/
theorem decodePixel_eq (cb : CBlock) (p : PixIdx) : decodePixel cb p =
    paletteLookup cb[0] cb[1] (paletteIndex cb[0] cb[1] ((unpackCodeword cb).extractLsb' (2 * p.toNat) 2)) := by
  rw [← lane_eq_extractLsb']
  rfl

@[simp] theorem decTransact_ph (cb : CBlock) (p : PixIdx) (u : DecUnit) : (decTransact cb p u).ph = .done := rfl
@[simp] theorem decTransact_cb (cb : CBlock) (p : PixIdx) (u : DecUnit) : (decTransact cb p u).cb = cb := rfl
@[simp] theorem decTransact_pix (cb : CBlock) (p : PixIdx) (u : DecUnit) : (decTransact cb p u).pix = p := rfl
@[simp] theorem decTransact_px (cb : CBlock) (p : PixIdx) (u : DecUnit) : (decTransact cb p u).px = decodePixel cb p := rfl

/-- The sixteenth transaction is that of pixel 15 (R176). -/
theorem exists_decTransact16_eq (cb : CBlock) (u : DecUnit) : ∃ v, decTransact16 cb u = decTransact cb 15 v := ⟨_, rfl⟩

/-- Settles O20: the lane as a slice and as a digit. -/
theorem extractCodeReadsOneLane : Obligations.ExtractCodeReadsOneLane :=
  fun s cw p => ⟨lane cw p, exec_extractCode cw p s, lane_eq_extractLsb' cw p, lane_toNat cw p⟩

/-- Settles O23: the pixel is a function of the endpoints and one lane, and by code and half it is the table's entry. -/
theorem decodePixelGivesTheTable : Obligations.DecodePixelGivesTheTable := by
  refine ⟨fun cb cb' p h0 h1 hlane => ?_, fun s cb p =>
    ⟨decTransact cb p s.dec, decodePixel cb p, exec_decodePixel cb p s, decTransact_ph cb p s.dec, decTransact_cb cb p s.dec,
      decTransact_pix cb p s.dec, decTransact_px cb p s.dec, fun k hk => ?_⟩⟩
  · rw [decodePixel_eq, decodePixel_eq, h0, h1, hlane]
  · have hpixel : decodePixel cb p = paletteLookup cb[0] cb[1] (paletteIndex cb[0] cb[1] k) := by
      rw [hk]
      exact decodePixel_eq cb p
    rw [hpixel]
    refine ⟨?_, ?_, fun h => ?_, fun h => ?_, fun h => ?_, fun h => ?_⟩ <;> rintro rfl
    · exact paletteLookup_code0 _ _
    · exact paletteLookup_code1 _ _
    · rw [paletteLookup_lowerHalf h]
      exact palEntry2_toNat _ _ true
    · rw [paletteLookup_lowerHalf h]
      exact palEntry3_toNat _ _ true
    · rw [paletteLookup_upperHalf h]
      exact palEntry6_toNat _ _ true
    · exact paletteLookup_upperHalf h 3

/-- Settles O19, by the number of the assembled word. -/
theorem unpackBlockReadsTheFields : Obligations.UnpackBlockReadsTheFields :=
  fun s cb => ⟨unpackCodeword cb, exec_unpackBlock cb s, unpackCodeword_toNat cb⟩

/-- Settles O21: the strict comparison, and the half as the index's bit of weight 4. -/
theorem selectIndexComparesStrictly : Obligations.SelectIndexComparesStrictly :=
  fun s a b k => ⟨upperHalf a b, paletteIndex a b k, exec_selectIndex a b k s, upperHalf_eq_false_iff a b,
    paletteIndex_toNat a b k⟩

/-- Settles O22: the entries of the palette with `flip = true`, the three quotients on numbers. -/
theorem paletteLookupUsesFlipTrue : Obligations.PaletteLookupUsesFlipTrue := by
  intro s a b idx
  refine ⟨paletteLookup a b idx, exec_paletteLookup a b idx s, ?_, ?_, ?_, ?_, ?_, ?_, ?_, ?_⟩ <;> rintro rfl
  · rfl
  · rfl
  · exact palEntry2_toNat a b true
  · exact palEntry3_toNat a b true
  · rfl
  · rfl
  · exact palEntry6_toNat a b true
  · rfl

/-- Settles O24: pixel `i` of the sixteen is the pixel that its own transaction hands back. -/
theorem decodeBlock16GivesSixteenPixels : Obligations.DecodeBlock16GivesSixteenPixels := by
  intro s cb
  obtain ⟨v, hlast⟩ := exists_decTransact16_eq cb s.dec
  refine ⟨decTransact16 cb s.dec, decodeBlock16 cb, exec_decodeBlock16 cb s, by rw [hlast, decTransact_ph], fun i =>
    ⟨_, exec_decodePixel cb _ s, ?_⟩⟩
  have hpixel : (decodeBlock16 cb)[i] = decodePixel cb (BitVec.ofNat 4 i.val) := decodeBlock16_getElem cb i i.isLt
  rw [hpixel, decTransact_px]

/-- A BUSY unit looks at no request (R177, R243): its edge without reset is a quiet one. -/
theorem decEdge_busy {p : DecPorts} {u : DecUnit} (hr : p.rst = false) (hb : u.ph = .busy) :
    decEdge p u = decEdge decQuiet u := by
  simp only [decEdge, decEdgeWith, decQuiet, hr, hb]

/-- A quiet edge of a BUSY unit keeps its operands, and leaves it BUSY or completes it (R177, R178). -/
theorem decEdge_quiet_busy {u : DecUnit} (hb : u.ph = .busy) :
    (decEdge decQuiet u).cb = u.cb ∧ (decEdge decQuiet u).pix = u.pix ∧ ((decEdge decQuiet u).ph = .busy ∨
      ((decEdge decQuiet u).ph = .done ∧ (decEdge decQuiet u).px = decodePixel u.cb u.pix)) := by
  rcases Nat.lt_or_ge (u.age + 1) (decLatency u) with hl | hl
  · rw [decEdge_quiet_early hb hl]
    exact ⟨rfl, rfl, .inl hb⟩
  · rw [decEdge_quiet_last hb hl]
    exact ⟨rfl, rfl, .inr ⟨rfl, rfl⟩⟩

/-- A unit at rest accepts what its ports present (R177). -/
theorem decEdge_start {p : DecPorts} {u : DecUnit} (hr : p.rst = false) (hs : p.start = true) (hu : u.ph ≠ .busy) :
    decEdge p u = decAccept (cblockOfPort p.cb) p.pix u := by
  simpa [hr, hs, hu] using decEdge_cases p u

/-- Settles O38: the accept step, an edge of a BUSY unit with and without its request, and an edge that asks nothing. -/
theorem decAcceptsAndCompletes : Obligations.DecAcceptsAndCompletes := by
  intro s p rest hs hr
  refine ⟨decEdge p s.dec, step_action hs, fun hp hn => ?_, fun hb => ?_, fun hp hn => decEdge_hold hr hp hn⟩
  · rw [decEdge_start hr hp hn]
    exact ⟨fun k => Vector.getElem_ofFn k.isLt, rfl, rfl⟩
  · obtain ⟨hcb, hpix, hnext⟩ := decEdge_quiet_busy hb
    rw [decEdge_busy hr hb, decEdge_busy (p := { p with start := false }) hr hb]
    exact ⟨hcb, hpix, rfl, hnext⟩

end Sys2Proof.Machine
end

section
/-!
SUPPORT and PROOFS. The checks of ENCODE_IMAGE and DECODE_IMAGE before every access (R191, R195).
-/

namespace Sys2Proof.Machine

theorem exec_encodeImage (s : State) : exec .encodeImage s = execEncodeImage s := rfl

theorem exec_decodeImage (s : State) : exec .decodeImage s = execDecodeImage s := rfl

/-- The dimension check is R57's condition on both dimensions. -/
theorem dimsOk_iff {w h : Nat} : dimsOk w h = true ↔ PositiveMultipleOf4 w ∧ PositiveMultipleOf4 h := by
  refine ⟨positiveMultipleOf4_of_dimsOk, ?_⟩
  rintro ⟨⟨i, hi, rfl⟩, ⟨j, hj, rfl⟩⟩
  simp [dimsOk, dimOk, hi, hj]

theorem dimsOk_eq_false_iff {w h : Nat} :
    dimsOk w h = false ↔ ¬ (PositiveMultipleOf4 w ∧ PositiveMultipleOf4 h) := by
  rw [← dimsOk_iff, Bool.not_eq_true]

theorem exec_encodeImage_badDims {s : State} (hd : dimsOk s.width s.height = false) :
    exec .encodeImage s = .next (raise (.invalidDimensions s.width s.height none) s) := by
  simpa [hd, exec_encodeImage] using execEncodeImage_cases s

theorem exec_encodeImage_badLength {s : State} (hd : dimsOk s.width s.height = true)
    (hs : s.img.size ≠ s.width * s.height) : exec .encodeImage s = .refused .imageLength := by
  simpa [hd, hs, exec_encodeImage] using execEncodeImage_cases s

theorem exec_encodeImage_accepted {s : State} (hd : dimsOk s.width s.height = true)
    (hs : s.img.size = s.width * s.height) :
    exec .encodeImage s = finish (encodeInOrder (blockOrigins s.width s.height) s) := by
  simpa [hd, hs, exec_encodeImage] using execEncodeImage_cases s

theorem exec_decodeImage_badDims {s : State} (hd : dimsOk s.width s.height = false) :
    exec .decodeImage s = .next (raise (.invalidDimensions s.width s.height none) s) := by
  simpa [hd, exec_decodeImage] using execDecodeImage_cases s

theorem exec_decodeImage_short {s : State} (hd : dimsOk s.width s.height = true)
    (hs : s.cmp.size < compressedLength s.width s.height) :
    exec .decodeImage s = .next (raise (.invalidDimensions s.width s.height (some s.cmp.size)) s) := by
  simpa [hd, hs, Nat.not_le.mpr hs, exec_decodeImage] using execDecodeImage_cases s

theorem exec_decodeImage_accepted {s : State} (hd : dimsOk s.width s.height = true)
    (hs : compressedLength s.width s.height ≤ s.cmp.size) :
    exec .decodeImage s = finish (decodeInOrder (pixelOrder s.width s.height) s) := by
  simpa [hd, hs, Nat.not_lt.mpr hs, exec_decodeImage] using execDecodeImage_cases s

/-- Settles O29: the dimension check comes first and raises; the length check refuses. -/
theorem encodeImageChecksFirst : Obligations.EncodeImageChecksFirst := fun _ =>
  ⟨fun hd => exec_encodeImage_badDims (dimsOk_eq_false_iff.mpr hd),
    fun hd hs => exec_encodeImage_badLength (dimsOk_iff.mpr hd) hs⟩

end Sys2Proof.Machine
end

section
/-!
SUPPORT and PROOFS. The loops of ENCODE_IMAGE and DECODE_IMAGE: each turn stores its piece of the output and undoes no other
piece, so the whole output is stored at the end, in whatever order the pieces are done (R192 to R196, R200).
-/

namespace Sys2Proof.Machine

theorem PositiveMultipleOf4.pos {n : Nat} : PositiveMultipleOf4 n → 0 < n := by
  rintro ⟨k, hk, rfl⟩
  omega

theorem PositiveMultipleOf4.blocks_pos {n : Nat} : PositiveMultipleOf4 n → 0 < n / 4 := by
  rintro ⟨k, hk, rfl⟩
  omega

/-- When every turn of a loop keeps an invariant, achieves its own piece and undoes no other, the loop over any of the pieces
runs and achieves them. -/
theorem runOver_achieves {α : Type} {work : α → State → Option State} {I : State → Prop} {D : α → State → Prop}
    {pieces xs : List α} {s : State}
    (turn : ∀ x ∈ pieces, ∀ a, I a → ∃ b, work x a = some b ∧ I b ∧ D x b ∧ ∀ y ∈ pieces, y ≠ x → D y a → D y b)
    (hxs : ∀ x ∈ xs, x ∈ pieces) (hs : I s) : ∃ t, runOver work xs s = some t ∧ I t ∧ ∀ x ∈ xs, D x t := by
  induction xs generalizing s with
  | nil => exact ⟨s, rfl, hs, nofun⟩
  | cons x rest ih =>
    obtain ⟨hx, hrest⟩ := List.forall_mem_cons.mp hxs
    obtain ⟨b, hb, hI, hxb, -⟩ := turn x hx s hs
    obtain ⟨t, ht, hIt, hdone⟩ := ih hrest hI
    have keep : ∀ y ∈ rest, ∀ a, I a ∧ D x a → ∃ c, work y a = some c ∧ I c ∧ D x c := fun y hy a ⟨ha, hxa⟩ => by
      obtain ⟨c, hc, hIc, hyc, hold⟩ := turn y (hrest y hy) a ha
      by_cases hxy : x = y
      · exact ⟨c, hc, hIc, hxy ▸ hyc⟩
      · exact ⟨c, hc, hIc, hold x hx hxy hxa⟩
    obtain ⟨t', ht', -, hxt⟩ := runOver_isSome keep ⟨hI, hxb⟩
    obtain rfl := Option.some.inj (ht.symm.trans ht')
    exact ⟨t, by simp only [runOver, hb, ht], hIt, List.forall_mem_cons.mpr ⟨hxt, hdone⟩⟩

/-- A state between two blocks of an ENCODE_IMAGE that was called in `s`. -/
structure EncodingFrom (s a : State) : Prop where
  frame : ∃ u m, a = { s with enc := u, cmp := m }
  cmp_size : a.cmp.size = compressedLength s.width s.height
  cmp_wf : a.cmp.wf = true

/-- The block with origin `o` of IMG in `s` has been encoded into CMP of `a` (R194). -/
def BlockStored (s : State) (o : Nat × Nat) (a : State) : Prop :=
  a.enc.ph = .done ∧ ∀ k : Fin 6, a.cmp.readByte (6 * blockIndex s.width o.1 o.2 + k.val) =
    some (encodeBlock (blockOf s.img s.width (o.1 / 4) (o.2 / 4)))[k]

theorem blockStored_iff {s a : State} {i j : Nat} : BlockStored s (4 * i, 4 * j) a ↔
    a.enc.ph = .done ∧ ∀ k : Fin 6, a.cmp.readByte (6 * (j * (s.width / 4) + i) + k.val) =
      some (encodeBlock (blockOf s.img s.width i j))[k] := by
  simp only [BlockStored, blockIndex, Nat.mul_div_cancel_left _ (Nat.succ_pos 3)]

/-- One turn of ENCODE_IMAGE's loop stores its block and leaves every other one as it is. -/
theorem EncodingFrom.turn {s a : State} (hs : s.img.size = s.width * s.height) {o : Nat × Nat}
    (ho : o ∈ blockOrigins s.width s.height) (ha : EncodingFrom s a) :
    ∃ b, encodeOneBlock o a = some b ∧ EncodingFrom s b ∧ BlockStored s o b ∧
      ∀ o' ∈ blockOrigins s.width s.height, o' ≠ o → BlockStored s o' a → BlockStored s o' b := by
  obtain ⟨⟨u, m, rfl⟩, hsize, hwf⟩ := ha
  obtain ⟨i, j, hi, hj, hx, hy⟩ := mem_blockOrigins.mp ho
  obtain rfl : o = (4 * i, 4 * j) := Prod.ext hx hy
  obtain ⟨m', hwf', hsize', hturn, hnew, hold⟩ :=
    encodeOneBlock_turn (s := { s with enc := u, cmp := m }) hs hi hj hsize hwf
  refine ⟨_, hturn, ⟨⟨_, _, rfl⟩, hsize'.trans hsize, hwf'⟩, blockStored_iff.mpr ⟨rfl, hnew⟩, fun o' ho' hne h => ?_⟩
  obtain ⟨i', j', hi', -, hx', hy'⟩ := mem_blockOrigins.mp ho'
  obtain rfl : o' = (4 * i', 4 * j') := Prod.ext hx' hy'
  have hplace : ¬ (i' = i ∧ j' = j) := fun e => hne (by rw [e.1, e.2])
  obtain ⟨-, hbytes⟩ := blockStored_iff.mp h
  exact blockStored_iff.mpr ⟨rfl, fun k => (hold i' j' hi' hplace k).trans (hbytes k)⟩

/-- Blocks of the image done in any order are all stored at the end, and only the ENC unit and CMP have changed. -/
theorem encodeInOrder_stores {s : State} (hs : s.img.size = s.width * s.height) {origins : List (Nat × Nat)}
    (ho : ∀ o ∈ origins, o ∈ blockOrigins s.width s.height) :
    ∃ t, encodeInOrder origins s = some t ∧ EncodingFrom s t ∧ ∀ o ∈ origins, BlockStored s o t := by
  have start : EncodingFrom s { s with cmp := Memory.sized (compressedLength s.width s.height) } :=
    ⟨⟨_, _, rfl⟩, rfl, sized_wf _⟩
  exact runOver_achieves (fun o hm a ha => ha.turn hs hm) ho start

/-- Settles O30: the loop over all blocks stores every one; there is a first block, so the unit ends in DONE. -/
theorem encodeImageWritesEveryBlock : Obligations.EncodeImageWritesEveryBlock := by
  intro s hw hh hs
  obtain ⟨t, ht, ⟨⟨u, m, rfl⟩, hsize, hwf⟩, hstored⟩ := encodeInOrder_stores hs fun _ h => h
  have stored : ∀ i j, i < s.width / 4 → j < s.height / 4 → BlockStored s (4 * i, 4 * j) { s with enc := u, cmp := m } :=
    fun i j hi hj => hstored _ (mem_blockOrigins.mpr ⟨i, j, hi, hj, rfl, rfl⟩)
  have first : BlockStored s (4 * 0, 4 * 0) { s with enc := u, cmp := m } := stored 0 0 hw.blocks_pos hh.blocks_pos
  refine ⟨u, m, first.1, ?_, hsize, hwf, fun i j hi hj => (blockStored_iff.mp (stored i j hi hj)).2⟩
  rw [exec_encodeImage_accepted (dimsOk_iff.mpr ⟨hw, hh⟩) hs, ht]
  rfl

/-- A state between two pixels of a DECODE_IMAGE that was called in `s`. -/
structure DecodingFrom (s a : State) : Prop where
  frame : ∃ u m, a = { s with dec := u, img := m }
  img_size : a.img.size = s.width * s.height
  img_wf : a.img.wf = true

/-- The pixel `xy` has been decoded from CMP of `s` into IMG of `a` (R196). -/
def PixelStored (s : State) (xy : Nat × Nat) (a : State) : Prop :=
  a.dec.ph = .done ∧ a.img.readByte (pixelAddr s.width xy.1 xy.2) =
    some (decodePixel (cblockOf s.cmp (blockIndex s.width xy.1 xy.2)) (pixelIndex xy.1 xy.2))

/-- One turn of DECODE_IMAGE's loop stores its pixel and leaves every other one as it is. -/
theorem DecodingFrom.turn {s a : State} (hw : s.width % 4 = 0) (hh : s.height % 4 = 0)
    (hs : compressedLength s.width s.height ≤ s.cmp.size) {xy : Nat × Nat} (hm : xy ∈ pixelOrder s.width s.height)
    (ha : DecodingFrom s a) :
    ∃ b, decodeOnePixel xy a = some b ∧ DecodingFrom s b ∧ PixelStored s xy b ∧
      ∀ xy' ∈ pixelOrder s.width s.height, xy' ≠ xy → PixelStored s xy' a → PixelStored s xy' b := by
  obtain ⟨⟨u, m, rfl⟩, hsize, hwf⟩ := ha
  obtain ⟨x, y⟩ := xy
  obtain ⟨hx, hy⟩ := mem_pixelOrder.mp hm
  obtain ⟨m', hwf', hsize', hturn, hnew, hold⟩ :=
    decodeOnePixel_turn (s := { s with dec := u, img := m }) hsize hx hy hw hh hs hwf
  refine ⟨_, hturn, ⟨⟨_, _, rfl⟩, hsize'.trans hsize, hwf'⟩, ⟨rfl, hnew⟩, fun ⟨x', y'⟩ hm' hne ⟨_, hpixel⟩ => ?_⟩
  obtain ⟨hx', -⟩ := mem_pixelOrder.mp hm'
  have hplace : ¬ (x' = x ∧ y' = y) := fun e => hne (by rw [e.1, e.2])
  exact ⟨rfl, (hold x' y' hx' hplace).trans hpixel⟩

/-- Pixels of the image done in any order are all stored at the end, and only the DEC unit and IMG have changed. -/
theorem decodeInOrder_stores {s : State} (hw : s.width % 4 = 0) (hh : s.height % 4 = 0)
    (hs : compressedLength s.width s.height ≤ s.cmp.size) {pixels : List (Nat × Nat)}
    (hp : ∀ xy ∈ pixels, xy ∈ pixelOrder s.width s.height) :
    ∃ t, decodeInOrder pixels s = some t ∧ DecodingFrom s t ∧ ∀ xy ∈ pixels, PixelStored s xy t := by
  have start : DecodingFrom s { s with img := Memory.sized (s.width * s.height) } := ⟨⟨_, _, rfl⟩, rfl, sized_wf _⟩
  exact runOver_achieves (fun xy hm a ha => ha.turn hw hh hs hm) hp start

/-- Settles O32: the loop over all pixels stores every one; there is a first pixel, so the unit ends in DONE. -/
theorem decodeImageWritesEveryPixel : Obligations.DecodeImageWritesEveryPixel := by
  intro s hw hh hs
  obtain ⟨t, ht, ⟨⟨u, m, rfl⟩, hsize, hwf⟩, hstored⟩ := decodeInOrder_stores hw.mod_eq hh.mod_eq hs fun _ h => h
  have stored : ∀ x y, x < s.width → y < s.height → PixelStored s (x, y) { s with dec := u, img := m } :=
    fun x y hx hy => hstored _ (mem_pixelOrder.mpr ⟨hx, hy⟩)
  have first : PixelStored s (0, 0) { s with dec := u, img := m } := stored 0 0 hw.pos hh.pos
  refine ⟨u, m, first.1, ?_, hsize, hwf, fun x y hx hy => (stored x y hx hy).2⟩
  rw [exec_decodeImage_accepted (dimsOk_iff.mpr ⟨hw, hh⟩) hs, ht]
  rfl

end Sys2Proof.Machine
end

section
/-!
SUPPORT and PROOFS. What an image depends on: two decoded images from the same bytes are equal (R195), and decoding the blocks
that ENCODE_IMAGE stored gives each pixel's reconstruction (R198).
-/

namespace Sys2Proof.Machine

/-- Canonical buffers that hold the same pixels are equal. -/
theorem image_ext {w h : Nat} {m m' : Memory} (hm : m.wf = true) (hm' : m'.wf = true) (hs : m.size = w * h)
    (hs' : m'.size = w * h) (e : ∀ x y, x < w → y < h → m.readByte (y * w + x) = m'.readByte (y * w + x)) : m = m' := by
  refine memory_ext hm hm' (hs.trans hs'.symm) fun a ha => ?_
  rw [hs] at ha
  have hw : 0 < w := Nat.pos_of_mul_pos_right (Nat.zero_lt_of_lt ha)
  rw [← Nat.div_add_mod' a w]
  exact e (a % w) (a / w) (Nat.mod_lt a hw) (Nat.div_lt_of_lt_mul ha)

/-- Buffers that agree on a number of blocks hold the same blocks there. -/
theorem cblockOf_congr {m m' : Memory} {n b : Nat} (e : ∀ a, a < n * 6 → m.readByte a = m'.readByte a) (hb : b < n) :
    cblockOf m b = cblockOf m' b := by
  ext k hk : 1
  simp only [cblockOf, Vector.getElem_ofFn]
  rw [e _ (by omega)]

/-- A buffer that holds the six bytes of a block has it there. -/
theorem cblockOf_eq {m : Memory} {n : Nat} {cb : CBlock} (h : ∀ k : Fin 6, m.readByte (6 * n + k.val) = some cb[k]) :
    cblockOf m n = cb := by
  ext k hk : 1
  simp only [cblockOf, Vector.getElem_ofFn]
  rw [h ⟨k, hk⟩]
  rfl

/-- The image that DECODE_IMAGE gives depends on the needed bytes of CMP alone. -/
theorem exec_decodeImage_congr {s t : State} {cmp : Memory} (hw : PositiveMultipleOf4 s.width)
    (hh : PositiveMultipleOf4 s.height) (hs : compressedLength s.width s.height ≤ s.cmp.size)
    (hs' : compressedLength s.width s.height ≤ cmp.size)
    (e : ∀ a, a < compressedLength s.width s.height → cmp.readByte a = s.cmp.readByte a)
    (ht : exec .decodeImage s = .next t) : ∃ t', exec .decodeImage { s with cmp := cmp } = .next t' ∧ t'.img = t.img := by
  obtain ⟨u, m, -, hrun, hsize, hwf, hpix⟩ := decodeImageWritesEveryPixel s hw hh hs
  cases hrun.symm.trans ht
  obtain ⟨u', m', -, ht', hsize', hwf', hpix'⟩ := decodeImageWritesEveryPixel { s with cmp := cmp } hw hh hs'
  refine ⟨_, ht', image_ext hwf' hwf hsize' hsize fun x y hx hy => ?_⟩
  calc m'.readByte (y * s.width + x)
    _ = some (decodePixel (cblockOf cmp (blockIndex s.width x y)) (pixelIndex x y)) := hpix' x y hx hy
    _ = some (decodePixel (cblockOf s.cmp (blockIndex s.width x y)) (pixelIndex x y)) := by
      rw [cblockOf_congr e (blockIndex_lt_blockCount hw.mod_eq hh.mod_eq hx hy)]
    _ = m.readByte (y * s.width + x) := (hpix x y hx hy).symm

/-- Settles O31: the two checks in their order; past them the image depends on the needed bytes alone. -/
theorem decodeImageRejectsInOrder : Obligations.DecodeImageRejectsInOrder := by
  refine fun s => ⟨fun hd => exec_decodeImage_badDims (dimsOk_eq_false_iff.mpr hd),
    fun hd hs => exec_decodeImage_short (dimsOk_iff.mpr hd) hs, fun ⟨hw, hh⟩ hs => ?_⟩
  obtain ⟨u, m, -, ht, -⟩ := decodeImageWritesEveryPixel s hw hh hs
  exact ⟨_, ht, rfl, fun cmp hs' e => exec_decodeImage_congr hw hh hs hs' e ht⟩

/-- Settles O33: the block that DECODE_IMAGE reads for a pixel is the encoding that ENCODE_IMAGE stored of it. -/
theorem encodeThenDecodeReconstructsTheImage : Obligations.EncodeThenDecodeReconstructsTheImage := by
  intro s hw hh hs
  obtain ⟨u, m, -, ht, hcmp, -, hblocks⟩ := encodeImageWritesEveryBlock s hw hh hs
  obtain ⟨v, m', -, ht', himg, -, hpixels⟩ :=
    decodeImageWritesEveryPixel { s with enc := u, cmp := m, outcome := some .success, ret := none } hw hh hcmp.ge
  refine ⟨_, _, ht, ht', hcmp, rfl, himg, fun x y hx hy => (hpixels x y hx hy).trans ?_⟩
  have hi : x / 4 < s.width / 4 := by have := hw.mod_eq; omega
  have hj : y / 4 < s.height / 4 := by have := hh.mod_eq; omega
  rw [cblockOf_eq (hblocks (x / 4) (y / 4) hi hj)]

end Sys2Proof.Machine
end

section
/-!
SUPPORT and PROOFS. Turning to another unit of a kind: the unit called for and the one in hand exchange their places (R221).
-/

namespace Sys2Proof.Machine

theorem turnTo_enc {s : State} {k : Nat} {u : EncUnit} (hu : s.encPool[k]? = some u) :
    turnTo .enc k s = .next (quiet { s with enc := u, encPool := s.encPool.set k s.enc }) := by
  simp only [turnTo, hu]

theorem turnTo_dec {s : State} {k : Nat} {u : DecUnit} (hu : s.decPool[k]? = some u) :
    turnTo .dec k s = .next (quiet { s with dec := u, decPool := s.decPool.set k s.dec }) := by
  simp only [turnTo, hu]

/-- Settles O57: the step is the action `turnTo` past the script's head, and the pools do not depend on the script. -/
theorem turningToAnotherUnitExchangesTheTwo : Obligations.TurningToAnotherUnitExchangesTheTwo :=
  fun s _ rest =>
    ⟨fun _ hs hu => (step_action hs).trans (turnTo_enc (s := { s with script := rest }) hu),
      fun _ hs hu => (step_action hs).trans (turnTo_dec (s := { s with script := rest }) hu)⟩

end Sys2Proof.Machine
end

section
/-!
SUPPORT and PROOFS. Reset: a unit that is reset, and every unit of a platform right after reset, is IDLE and in order, and
nothing of an abandoned operation is seen afterwards (R36, R240, R241).
-/

namespace Sys2Proof.Machine

/-- The whole next state of the instruction RST of ENC. -/
theorem exec_rst_enc (s : State) : exec (.rst .enc) s = .next { s with enc := encReset s.enc, ret := none } := rfl

/-- The whole next state of the instruction RST of DEC. -/
theorem exec_rst_dec (s : State) : exec (.rst .dec) s = .next { s with dec := decReset s.dec, ret := none } := rfl

/-- Settles O35: RST by its equation, and any edge with `rst = 1` by the phase it leaves. -/
theorem resetMakesTheUnitIdle : Obligations.ResetMakesTheUnitIdle := by
  refine fun s => ⟨⟨_, exec_rst_enc s, rfl⟩, ⟨_, exec_rst_dec s, rfl⟩, fun p rest hs hr => ?_, fun p rest hs hr => ?_⟩
  · have idle : (encEdge p s.enc).ph = .idle := (encEdge_ph p s.enc).1 hr
    exact ⟨encEdge p s.enc, step_action hs, by rw [idle]; rfl, by rw [idle]; rfl⟩
  · have idle : (decEdge p s.dec).ph = .idle := (decEdge_ph p s.dec).1 hr
    exact ⟨decEdge p s.dec, step_action hs, by rw [idle]; rfl, by rw [idle]; rfl⟩

/-- Every ENC unit of a platform right after reset is one of these. -/
theorem platform_enc_afterReset (nEnc nDec : Nat) :
    ∀ u ∈ (State.platform nEnc nDec).enc :: (State.platform nEnc nDec).encPool, ∃ tag, u = EncUnit.afterReset tag :=
  List.forall_mem_cons.mpr ⟨⟨0, rfl⟩, List.forall_mem_map.mpr fun k _ => ⟨k + 1, rfl⟩⟩

/-- The same of DEC. -/
theorem platform_dec_afterReset (nEnc nDec : Nat) :
    ∀ u ∈ (State.platform nEnc nDec).dec :: (State.platform nEnc nDec).decPool, ∃ tag, u = DecUnit.afterReset tag :=
  List.forall_mem_cons.mpr ⟨⟨0, rfl⟩, List.forall_mem_map.mpr fun k _ => ⟨k + 1, rfl⟩⟩

theorem encAfterReset_ok (tag : Nat) : (EncUnit.afterReset tag).Ok := ⟨nofun, nofun, fun _ => rfl⟩

theorem decAfterReset_ok (tag : Nat) : (DecUnit.afterReset tag).Ok := ⟨nofun, nofun, fun _ => rfl⟩

/-- Settles O47: every unit of the platform is one right after its reset. -/
theorem afterResetEveryUnitIsIdle : Obligations.AfterResetEveryUnitIsIdle := by
  refine fun nEnc nDec => ⟨fun u hu => ?_, fun u hu => ?_, rfl⟩
  · obtain ⟨tag, rfl⟩ := platform_enc_afterReset nEnc nDec u hu
    exact ⟨rfl, rfl, rfl⟩
  · obtain ⟨tag, rfl⟩ := platform_dec_afterReset nEnc nDec u hu
    exact ⟨rfl, rfl, rfl⟩

/-- Settles O45: empty buffers are canonical, a unit right after its reset is in order, and no procedure has run. -/
theorem resetMeetsTheInvariant : Obligations.ResetMeetsTheInvariant := by
  intro nEnc nDec
  obtain ⟨himg, hcmp⟩ := platform_memory_wf nEnc nDec
  have encs : ∀ u ∈ (State.platform nEnc nDec).enc :: (State.platform nEnc nDec).encPool, u.Ok := fun u hu => by
    obtain ⟨tag, rfl⟩ := platform_enc_afterReset nEnc nDec u hu
    exact encAfterReset_ok tag
  have decs : ∀ u ∈ (State.platform nEnc nDec).dec :: (State.platform nEnc nDec).decPool, u.Ok := fun u hu => by
    obtain ⟨tag, rfl⟩ := platform_dec_afterReset nEnc nDec u hu
    exact decAfterReset_ok tag
  obtain ⟨henc, hencs⟩ := List.forall_mem_cons.mp encs
  obtain ⟨hdec, hdecs⟩ := List.forall_mem_cons.mp decs
  exact ⟨himg, hcmp, henc, hdec, hencs, hdecs, nofun, nofun⟩

/-- A unit at rest of which nothing is asked holds everything, for any number of edges (R220). -/
theorem encEdge_iterate_hold {u : EncUnit} (hu : u.ph ≠ .busy) (n : Nat) : (encEdge encQuiet)^[n] u = u :=
  Function.iterate_fixed (encEdge_hold rfl rfl hu) n

/-- The same of DEC. -/
theorem decEdge_iterate_hold {u : DecUnit} (hu : u.ph ≠ .busy) (n : Nat) : (decEdge decQuiet)^[n] u = u :=
  Function.iterate_fixed (decEdge_hold rfl rfl hu) n

/-- What ENCODE_BLOCK hands back and leaves in `E_CB` is the block's encoding, whatever state it starts from. -/
theorem exec_encodeBlock_result (blk : Block) (s : State) :
    ∃ r, exec (.encodeBlock blk) s = .next r ∧ r.ret = some (.cblock (encodeBlock blk)) ∧ r.enc.cb = encodeBlock blk :=
  ⟨_, encodeBlockCompletesInEveryState s blk, rfl, rfl⟩

/-- What DECODE_PIXEL hands back and leaves in `D_PX` is the pixel, whatever state it starts from. -/
theorem exec_decodePixel_result (cb : CBlock) (p : PixIdx) (s : State) :
    ∃ r, exec (.decodePixel cb p) s = .next r ∧ r.ret = some (.pixel (decodePixel cb p)) ∧ r.dec.px = decodePixel cb p :=
  ⟨_, exec_decodePixel cb p s, rfl, rfl⟩

/-- Settles O36: a unit that was reset holds IDLE over quiet edges, and a result depends on its request alone. -/
theorem resetAbandonsTheOperation : Obligations.ResetAbandonsTheOperation := by
  intro s t which hs h
  have hq : t.script = [] := (exec_frame h).script.trans hs
  refine ⟨fun n => ⟨_, run_quiet hq n, ?_, ?_⟩, fun blk => ?_, fun cb p => ?_⟩
  · rintro rfl
    obtain rfl := Host.Outcome.next.inj ((exec_rst_enc s).symm.trans h)
    rw [quietEdge_iterate_enc, encEdge_iterate_hold (u := encReset s.enc) nofun]
    rfl
  · rintro rfl
    obtain rfl := Host.Outcome.next.inj ((exec_rst_dec s).symm.trans h)
    rw [quietEdge_iterate_dec, decEdge_iterate_hold (u := decReset s.dec) nofun]
    rfl
  · obtain ⟨r, hr, hret, hcb⟩ := exec_encodeBlock_result blk t
    obtain ⟨r', hr', hret', hcb'⟩ := exec_encodeBlock_result blk s
    exact ⟨r, r', hr, hr', hret.trans hret'.symm, hcb.trans hcb'.symm⟩
  · obtain ⟨r, hr, hret, hpx⟩ := exec_decodePixel_result cb p t
    obtain ⟨r', hr', hret', hpx'⟩ := exec_decodePixel_result cb p s
    exact ⟨r, r', hr, hr', hret.trans hret'.symm, hpx.trans hpx'.symm⟩

end Sys2Proof.Machine
end

section
/-!
SUPPORT and PROOFS. What the spec infers of the palette and of ENC's transients: the bounds of the entries, the two palettes of
one block, the identities of the residual table, and the order of blocks of 0s and 255s (R120, R121, R133, R144).
-/

namespace Sys2Proof.Machine

/-- "`P[0] >= P[2] >= P[3] >= P[1]`" (R120). -/
theorem palEntries_lowerHalf_ordered {val0 val1 : Byte} (h : val1.toNat ≤ val0.toNat) (flip : Bool) :
    (palEntry3 val0 val1 flip).toNat ≤ (palEntry2 val0 val1 flip).toNat ∧
      (palEntry2 val0 val1 flip).toNat ≤ val0.toNat ∧ val1.toNat ≤ (palEntry3 val0 val1 flip).toNat := by
  rw [palEntry2_toNat, palEntry3_toNat]
  omega

/-- Settles O5: every entry but the last lies between the endpoints, and the weights order the lower half. -/
theorem paletteEntriesLieBetweenTheEndpoints : Obligations.PaletteEntriesLieBetweenTheEndpoints :=
  fun a b f => ⟨fun k hk => buildPalette_liesBetween a b f k (by omega), fun h => palEntries_lowerHalf_ordered h f, rfl⟩

/-- The upper half of the palette of the swapped endpoints with the other `flip` (R119, R121). -/
theorem buildPalette_swap_upperHalf (val0 val1 : Byte) :
    ∀ k : Fin 8, 4 ≤ k.val → (buildPalette val1 val0 true)[k] = (buildPalette val0 val1 false)[k]
  | 4, _ | 5, _ | 7, _ => rfl
  | 6, _ => palEntry6_comm val0 val1 false
  | 0, h | 1, h | 2, h | 3, h => absurd h (by decide)

/-- The one palette of ENC (R155). -/
theorem encTransients_pal (blk : Block) : (encTransients blk).pal = buildPalette (blockMax blk) (blockMin blk) false := rfl

/-- The endpoints a block is stored with in the decreasing order (R141). -/
theorem encodeBlock_ends_of_decr {blk : Block} (h : (encTransients blk).decr = true) :
    (encodeBlock blk)[0] = blockMax blk ∧ (encodeBlock blk)[1] = blockMin blk :=
  ⟨BitVec.eq_of_toNat_eq (by rw [encodeBlock_byte0, h]; rfl), BitVec.eq_of_toNat_eq (by rw [encodeBlock_byte1, h]; rfl)⟩

/-- The endpoints a block is stored with in the increasing order (R141). -/
theorem encodeBlock_ends_of_not_decr {blk : Block} (h : (encTransients blk).decr = false) :
    (encodeBlock blk)[0] = blockMin blk ∧ (encodeBlock blk)[1] = blockMax blk :=
  ⟨BitVec.eq_of_toNat_eq (by rw [encodeBlock_byte0, h]; rfl), BitVec.eq_of_toNat_eq (by rw [encodeBlock_byte1, h]; rfl)⟩

/-- The palette of DEC (R173). -/
theorem decTransients_dp (cb : CBlock) (p : PixIdx) : (decTransients cb p).dp = buildPalette cb[0] cb[1] true := rfl

/-- Settles O6: in the decreasing order the two palettes differ in `flip` alone, in the increasing order in the order of the
endpoints too. -/
theorem decoderPaletteAgreesWithEncoderPalette : Obligations.DecoderPaletteAgreesWithEncoderPalette := by
  refine fun blk p => ⟨fun hd k hk => ?_, fun hd => ?_⟩ <;> rw [decTransients_dp, encTransients_pal]
  · obtain ⟨h0, h1⟩ := encodeBlock_ends_of_decr hd
    rw [h0, h1]
    exact buildPalette_flip_irrel _ _ true false k (by omega) (by omega)
  · obtain ⟨h0, h1⟩ := encodeBlock_ends_of_not_decr hd
    rw [h0, h1]
    exact ⟨buildPalette_swap_upperHalf _ _, rfl, rfl⟩

/-- A residual of ENC's table (R130, R155). -/
theorem encTransients_res (blk : Block) (i : Fin 16) (j : Fin 8) :
    (encTransients blk).res[i][j] = residual blk[i] (encTransients blk).pal[j] :=
  residualTable_getElem blk (encTransients blk).pal i j i.isLt j.isLt

/-- The distance down from the block's maximum (R133). -/
theorem residual_blockMax (blk : Block) (i : Fin 16) :
    (residual blk[i] (blockMax blk)).toNat = (blockMax blk).toNat - blk[i].toNat := by
  have := le_blockMax blk i
  rw [residual_toNat]
  omega

/-- The distance up from the block's minimum (R133). -/
theorem residual_blockMin (blk : Block) (i : Fin 16) :
    (residual blk[i] (blockMin blk)).toNat = blk[i].toNat - (blockMin blk).toNat := by
  have := blockMin_le blk i
  rw [residual_toNat]
  omega

/-- "Columns 0 and 1 sum to `MAXV - MINV`" (R133). -/
theorem residual_blockMax_add_blockMin (blk : Block) (i : Fin 16) :
    (residual blk[i] (blockMax blk)).toNat + (residual blk[i] (blockMin blk)).toNat =
      (blockMax blk).toNat - (blockMin blk).toNat := by
  have := le_blockMax blk i
  have := blockMin_le blk i
  rw [residual_blockMax, residual_blockMin]
  omega

/-- Column 4 is at most column 7, the pixel itself (R133). -/
theorem residual_blockMin_le_pixel (blk : Block) (i : Fin 16) :
    (residual blk[i] (blockMin blk)).toNat ≤ blk[i].toNat := by
  rw [residual_blockMin]
  exact Nat.sub_le _ _

/-- A total of ENC, on numbers (R131). -/
theorem encTransients_tot (blk : Block) (j : Nat) (hj : j < 8) :
    (encTransients blk).tot[j] = blockDistance blk (encTransients blk).pal[j].toNat :=
  columnTotals_residualTable blk (encTransients blk).pal j hj

/-- A total of ENC as the sum of its column (R131). -/
theorem encTransients_tot_eq_sum (blk : Block) (j : Fin 8) :
    (encTransients blk).tot[j] = ∑ i : Fin 16, (residual blk[i] (encTransients blk).pal[j]).toNat := by
  simp only [← encTransients_res]
  exact columnTotals_eq_sum (encTransients blk).res j

/-- Totals 0 and 1 sum to sixteen times the block's range (R133). -/
theorem encTransients_tot0_add_tot1 (blk : Block) : (encTransients blk).tot[0] + (encTransients blk).tot[1] =
    16 * ((blockMax blk).toNat - (blockMin blk).toNat) := by
  calc (encTransients blk).tot[0] + (encTransients blk).tot[1]
    _ = (∑ i : Fin 16, (residual blk[i] (blockMax blk)).toNat) + ∑ i : Fin 16, (residual blk[i] (blockMin blk)).toNat :=
      congrArg₂ (· + ·) (encTransients_tot_eq_sum blk 0) (encTransients_tot_eq_sum blk 1)
    _ = ∑ _i : Fin 16, ((blockMax blk).toNat - (blockMin blk).toNat) := by
      simp only [← Finset.sum_add_distrib, residual_blockMax_add_blockMin]
    _ = 16 * ((blockMax blk).toNat - (blockMin blk).toNat) := by simp

/-- Settles O9: entries 4, 5 and 7 of ENC's palette are `MINV`, `MAXV` and 0, and every pixel lies between the bounds. -/
theorem encoderResidualIdentities : Obligations.EncoderResidualIdentities := by
  refine fun blk => ⟨fun i => ?_, ?_, ?_, encTransients_tot0_add_tot1 blk⟩
  · have h0 : (encTransients blk).res[i][0] = residual blk[i] (blockMax blk) := encTransients_res blk i 0
    have h1 : (encTransients blk).res[i][1] = residual blk[i] (blockMin blk) := encTransients_res blk i 1
    have h4 : (encTransients blk).res[i][4] = residual blk[i] (blockMin blk) := encTransients_res blk i 4
    have h5 : (encTransients blk).res[i][5] = residual blk[i] (blockMax blk) := encTransients_res blk i 5
    have h7 : (encTransients blk).res[i][7] = blk[i] := (encTransients_res blk i 7).trans (residual_zero_right blk[i])
    rw [h0, h1, h4, h5, h7]
    exact ⟨rfl, rfl, residual_blockMax blk i, residual_blockMin blk i, residual_blockMax_add_blockMin blk i, rfl,
      residual_blockMin_le_pixel blk i⟩
  · rw [encTransients_tot blk 4, encTransients_tot blk 1]; rfl
  · rw [encTransients_tot blk 5, encTransients_tot blk 0]; rfl

/-- A block that contains the greatest byte has it as its maximum. -/
theorem blockMax_eq_255 {blk : Block} (h : ∃ i : Fin 16, blk[i] = 255) : blockMax blk = 255 := by
  obtain ⟨i, hi⟩ := h
  have hle := le_blockMax blk i
  have hlt := (blockMax blk).isLt
  rw [hi] at hle
  exact BitVec.eq_of_toNat_eq (Nat.le_antisymm (Nat.le_of_lt_succ hlt) hle)

/-- A block that contains 0 has it as its minimum. -/
theorem blockMin_eq_zero {blk : Block} (h : ∃ i : Fin 16, blk[i] = 0) : blockMin blk = 0 := by
  obtain ⟨i, hi⟩ := h
  have hle := blockMin_le blk i
  rw [hi] at hle
  exact BitVec.eq_of_toNat_eq (Nat.le_zero.mp hle)

/-- The thirds of a black and white range are together as far from black as from white (R144). -/
theorem sum_distance_thirds {l : List Byte} (h : ∀ v ∈ l, v = 0 ∨ v = 255) :
    (l.map fun v => distance v.toNat 170).sum + (l.map fun v => distance v.toNat 85).sum = 255 * l.length := by
  induction l with
  | nil => rfl
  | cons v l ih =>
    obtain ⟨hv, hl⟩ := List.forall_mem_cons.mp h
    have head : distance v.toNat 170 + distance v.toNat 85 = 255 := by obtain rfl | rfl := hv <;> rfl
    simp only [List.map_cons, List.sum_cons, List.length_cons]
    have := ih hl
    omega

/-- The average and 0 are together 127 from black and 383 from white (R144). -/
theorem sum_distance_average_zero {l : List Byte} (h : ∀ v ∈ l, v = 0 ∨ v = 255) :
    (l.map fun v => distance v.toNat 127).sum + (l.map fun v => distance v.toNat 0).sum =
      127 * l.length + 256 * l.countP fun v => decide (v = 255) := by
  induction l with
  | nil => rfl
  | cons v l ih =>
    obtain ⟨hv, hl⟩ := List.forall_mem_cons.mp h
    have head : distance v.toNat 127 + distance v.toNat 0 = 127 + 256 * if decide (v = 255) then 1 else 0 := by
      obtain rfl | rfl := hv <;> rfl
    simp only [List.map_cons, List.sum_cons, List.length_cons, List.countP_cons]
    have := ih hl
    omega

/-- A property of every pixel by index is one of every pixel in the list. -/
theorem forall_mem_toList {blk : Block} {P : Byte → Prop} (h : ∀ i : Fin 16, P blk[i]) : ∀ v ∈ blk.toList, P v := by
  intro v hv
  obtain ⟨i, hi, rfl⟩ := Vector.getElem_of_mem (Vector.mem_toList_iff.mp hv)
  exact h ⟨i, hi⟩

/-- Settles O12: the palette of 255 and 0 is fixed, each pixel adds a fixed amount to each sum, and 16 pixels are counted. -/
theorem orderOfTwoValuedBlocks : Obligations.OrderOfTwoValuedBlocks := by
  refine ⟨fun blk m h h0 h255 hm => ?_, fun v => ?_⟩
  · have hpal : (encTransients blk).pal = #v[255, 0, 170, 85, 0, 255, 127, 0] := by
      rw [encTransients_pal, blockMax_eq_255 h255, blockMin_eq_zero h0]; rfl
    have hpixels := forall_mem_toList (P := fun v => v = 0 ∨ v = 255) h
    have hlen : blk.toList.length = 16 := Vector.length_toList
    have s23 : (encTransients blk).tot[2] + (encTransients blk).tot[3] = 4080 := by
      rw [encTransients_tot blk 2, encTransients_tot blk 3, hpal]
      exact (sum_distance_thirds hpixels).trans (by rw [hlen])
    have s67 : (encTransients blk).tot[6] + (encTransients blk).tot[7] = 2032 + 256 * m := by
      rw [encTransients_tot blk 6, encTransients_tot blk 7, hpal, hm]
      exact (sum_distance_average_zero hpixels).trans (by rw [hlen])
    refine ⟨s23, s67, ?_⟩
    rw [encTransients_decr, orderFlag_eq_true_iff, s23, s67]
    omega
  · rw [encTransients_constBlock_decr, decide_eq_true_iff, decide_eq_false_iff_not]
    omega

end Sys2Proof.Machine
end

section
/-!
SUPPORT and PROOFS. What the spec infers of an encoded block: the decoder returns the candidate that ENC measured, so extreme
pixels are exact, and some blocks are never produced (R93, R161, R162, R181).
-/

namespace Sys2Proof.Machine

/-- Offset `k` of the active half is index `BASE + k` (R143, R151). -/
theorem exists_index_of_offset : ∀ (decr : Bool) (k : Fin 4), ∃ b : Fin 8, b.val = (if decr then 0 else 4) + k.val ∧
    ∀ row : ResRow, row[b] = (activeHalf decr row)[k]
  | true, 0 => ⟨0, rfl, fun _ => rfl⟩
  | true, 1 => ⟨1, rfl, fun _ => rfl⟩
  | true, 2 => ⟨2, rfl, fun _ => rfl⟩
  | true, 3 => ⟨3, rfl, fun _ => rfl⟩
  | false, 0 => ⟨4, rfl, fun _ => rfl⟩
  | false, 1 => ⟨5, rfl, fun _ => rfl⟩
  | false, 2 => ⟨6, rfl, fun _ => rfl⟩
  | false, 3 => ⟨7, rfl, fun _ => rfl⟩

/-- Every index of the active half is an offset from its base (R143). -/
theorem exists_offset_of_index {decr : Bool} {c : Fin 8} (h : c.val < 4 ↔ decr = true) :
    ∃ k : Fin 4, ∀ row : ResRow, row[c] = (activeHalf decr row)[k] := by
  have inHalf : (if decr then 0 else 4) ≤ c.val ∧ c.val - (if decr then 0 else 4) < 4 := by
    cases decr with
    | true => exact ⟨Nat.zero_le _, h.mpr rfl⟩
    | false =>
      have upper : 4 ≤ c.val := Nat.le_of_not_lt fun hlt => Bool.noConfusion (h.mp hlt)
      exact ⟨upper, by change c.val - 4 < 4; omega⟩
  obtain ⟨b, hb, row⟩ := exists_index_of_offset decr ⟨c.val - (if decr then 0 else 4), inHalf.2⟩
  obtain rfl : b = c := Fin.ext (hb.trans (Nat.add_sub_cancel' inHalf.1))
  exact ⟨_, row⟩

theorem encTransients_codes (blk : Block) :
    (encTransients blk).codes = selectCodes (encTransients blk).decr (encTransients blk).res := by
  simp only [encTransients]

/-- The residuals of a half are those of the half's candidates (R130). -/
theorem activeHalf_encTransients_res (blk : Block) (i : Fin 16) (decr : Bool) (k : Fin 4) :
    (activeHalf decr (encTransients blk).res[i])[k] = residual blk[i] (activeHalf decr (encTransients blk).pal)[k] := by
  have row : (encTransients blk).res[i] = (encTransients blk).pal.map (residual blk[i]) :=
    residualTable_row blk (encTransients blk).pal i
  rw [row, activeHalf_map]
  exact Vector.getElem_map _ k.isLt

/-- ENC's code of a pixel is the first offset of the active half with the smallest residual (R151, R152). -/
theorem encTransients_codes_spec (blk : Block) (i : Fin 16) : ∃ k : Fin 4, (encTransients blk).codes[i] = .ofFin k ∧
    (∀ j : Fin 4, (residual blk[i] (activeHalf (encTransients blk).decr (encTransients blk).pal)[k]).toNat ≤
      (residual blk[i] (activeHalf (encTransients blk).decr (encTransients blk).pal)[j]).toNat) ∧
    ∀ j : Fin 4, j < k → (residual blk[i] (activeHalf (encTransients blk).decr (encTransients blk).pal)[k]).toNat <
      (residual blk[i] (activeHalf (encTransients blk).decr (encTransients blk).pal)[j]).toNat := by
  have spec := selectCodes_spec (encTransients blk).decr (encTransients blk).res i
  simp only [activeHalf_encTransients_res, ← encTransients_codes] at spec
  obtain ⟨k, hk, hmin, hfirst⟩ := spec
  exact ⟨k, BitVec.eq_of_toNat_eq hk, hmin, hfirst⟩

/-- A residual is 0 exactly when the candidate is the pixel. -/
theorem residual_toNat_eq_zero_iff {pixel entry : Byte} : (residual pixel entry).toNat = 0 ↔ entry = pixel := by
  rw [residual_toNat, ← BitVec.toNat_inj]
  omega

/-- The first candidate of the active half is the endpoint stored first (R143). -/
theorem activeHalf_encTransients_pal_zero (blk : Block) : ∀ decr, (activeHalf decr (encTransients blk).pal)[0] =
    if decr then blockMax blk else blockMin blk
  | true | false => rfl

/-- Where both bounds are one value, it is every pixel. -/
theorem pixel_eq_of_blockMax_eq {blk : Block} (h : blockMax blk = blockMin blk) (i : Fin 16) : blk[i] = blockMax blk :=
  BitVec.eq_of_toNat_eq (Nat.le_antisymm (le_blockMax blk i) (h ▸ blockMin_le blk i))

/-- A block with one value has code 0 everywhere: the first candidate fits exactly (R161). -/
theorem encTransients_codes_eq_zero {blk : Block} (h : blockMax blk = blockMin blk) (i : Fin 16) :
    (encTransients blk).codes[i] = 0 := by
  obtain ⟨k, hk, -, hfirst⟩ := encTransients_codes_spec blk i
  have fits : (residual blk[i] (activeHalf (encTransients blk).decr (encTransients blk).pal)[(0 : Fin 4)]).toNat = 0 := by
    refine residual_toNat_eq_zero_iff.mpr ((activeHalf_encTransients_pal_zero blk _).trans ?_)
    rw [← h, ite_self, pixel_eq_of_blockMax_eq h i]
  obtain rfl | hne := eq_or_ne k 0
  · exact hk
  · have closer := hfirst 0 (Fin.pos_of_ne_zero hne)
    rw [fits] at closer
    exact absurd closer (Nat.not_lt_zero _)

/-- Decreasing endpoints: DEC looks up the lower half of ENC's palette (R121). -/
theorem paletteLookup_eq_of_lt {maxv minv : Byte} (h : minv.toNat < maxv.toNat) (k : Fin 4) :
    paletteLookup maxv minv (paletteIndex maxv minv (.ofFin k)) = (activeHalf true (buildPalette maxv minv false))[k] := by
  rw [paletteLookup_lowerHalf h]
  match k with
  | 0 | 1 | 2 | 3 => rfl

/-- Endpoints that do not decrease: DEC looks up the upper half of ENC's palette (R121). -/
theorem paletteLookup_eq_of_le {maxv minv : Byte} (h : minv.toNat ≤ maxv.toNat) (k : Fin 4) :
    paletteLookup minv maxv (paletteIndex minv maxv (.ofFin k)) = (activeHalf false (buildPalette maxv minv false))[k] := by
  rw [paletteLookup_upperHalf h]
  match k with
  | 0 | 1 | 3 => rfl
  | 2 => exact palEntry6_comm maxv minv false

/-- The bounds of a block are in order (R150). -/
theorem blockMin_le_blockMax (blk : Block) : (blockMin blk).toNat ≤ (blockMax blk).toNat :=
  (blockMin_le blk 0).trans (le_blockMax blk 0)

/-- The entry DEC looks up for a code in an encoded block is the candidate of ENC's active half (R121, R181). Equal endpoints
select the upper half whatever the order was, and then the code is 0 (C7). -/
theorem paletteLookup_encodeBlock {blk : Block} {k : Fin 4} (hk : blockMax blk = blockMin blk → k = 0) :
    paletteLookup (encodeBlock blk)[0] (encodeBlock blk)[1]
        (paletteIndex (encodeBlock blk)[0] (encodeBlock blk)[1] (.ofFin k)) =
      (activeHalf (encTransients blk).decr (encTransients blk).pal)[k] := by
  obtain hd | hd := (encTransients blk).decr.eq_false_or_eq_true
  · obtain ⟨h0, h1⟩ := encodeBlock_ends_of_decr hd
    rw [encTransients_pal, hd, h0, h1]
    obtain hlt | heq := (blockMin_le_blockMax blk).lt_or_eq
    · exact paletteLookup_eq_of_lt hlt k
    · obtain rfl := hk (BitVec.eq_of_toNat_eq heq.symm)
      exact paletteLookup_code0 (blockMax blk) (blockMin blk)
  · obtain ⟨h0, h1⟩ := encodeBlock_ends_of_not_decr hd
    rw [encTransients_pal, hd, h0, h1]
    exact paletteLookup_eq_of_le (blockMin_le_blockMax blk) k

/-- The round trip of one pixel: DEC gives the candidate of its code, which has the smallest residual (R181). -/
theorem decodePixel_encodeBlock (blk : Block) (i : Fin 16) : ∃ k : Fin 4, (encTransients blk).codes[i] = .ofFin k ∧
    decodePixel (encodeBlock blk) (BitVec.ofNat 4 i.val) =
      (activeHalf (encTransients blk).decr (encTransients blk).pal)[k] ∧
    ∀ j : Fin 4, (residual blk[i] (activeHalf (encTransients blk).decr (encTransients blk).pal)[k]).toNat ≤
      (residual blk[i] (activeHalf (encTransients blk).decr (encTransients blk).pal)[j]).toNat := by
  obtain ⟨k, hk, hmin, -⟩ := encTransients_codes_spec blk i
  refine ⟨k, hk, ?_, hmin⟩
  have place : (BitVec.ofNat 4 i.val).toNat = i.val := Nat.mod_eq_of_lt i.isLt
  have code : (unpackCodeword (encodeBlock blk)).extractLsb' (2 * i.val) 2 = .ofFin k := by
    rw [encodeBlock_lane, ← encTransients_codes, hk]
  rw [decodePixel_eq, place, code]
  refine paletteLookup_encodeBlock fun h => ?_
  exact congrArg BitVec.toFin (hk.symm.trans (encTransients_codes_eq_zero h i))

/-- Settles O25, by the round trip of the pixel, its offsets written as indices of the palette. -/
theorem decodingReturnsTheMeasuredCandidate : Obligations.DecodingReturnsTheMeasuredCandidate := by
  intro blk i
  obtain ⟨k, hk, hpixel, hmin⟩ := decodePixel_encodeBlock blk i
  obtain ⟨b, hb, row⟩ := exists_index_of_offset (encTransients blk).decr k
  refine ⟨b, by rw [hk, hb]; rfl, by rw [hpixel, row], ?_, fun c hc => ?_⟩
  · rw [hpixel, row, activeHalf_encTransients_res, residual_eq_distance]
  · obtain ⟨j, row'⟩ := exists_offset_of_index hc
    rw [row, row', activeHalf_encTransients_res, activeHalf_encTransients_res]
    exact hmin j

/-- A pixel that is a candidate of its block is reconstructed exactly (R161). -/
theorem decodePixel_encodeBlock_of_candidate {blk : Block} {i : Fin 16}
    (h : ∃ j : Fin 4, (activeHalf (encTransients blk).decr (encTransients blk).pal)[j] = blk[i]) :
    decodePixel (encodeBlock blk) (BitVec.ofNat 4 i.val) = blk[i] := by
  obtain ⟨j, hj⟩ := h
  obtain ⟨k, -, hpixel, hmin⟩ := decodePixel_encodeBlock blk i
  have fits := hmin j
  rw [residual_toNat_eq_zero_iff.mpr hj] at fits
  exact hpixel.trans (residual_toNat_eq_zero_iff.mp (Nat.le_zero.mp fits))

/-- The block's maximum is a candidate in both orders (R143). -/
theorem exists_candidate_eq_blockMax (blk : Block) :
    ∀ decr, ∃ j : Fin 4, (activeHalf decr (encTransients blk).pal)[j] = blockMax blk
  | true => ⟨0, rfl⟩
  | false => ⟨1, rfl⟩

/-- The block's minimum is a candidate in both orders (R143). -/
theorem exists_candidate_eq_blockMin (blk : Block) :
    ∀ decr, ∃ j : Fin 4, (activeHalf decr (encTransients blk).pal)[j] = blockMin blk
  | true => ⟨1, rfl⟩
  | false => ⟨0, rfl⟩

/-- "A pixel equal to `MAXV` or `MINV` is reconstructed exactly" (R161). -/
theorem decodePixel_encodeBlock_of_extreme {blk : Block} {i : Fin 16} (h : blk[i] = blockMax blk ∨ blk[i] = blockMin blk) :
    decodePixel (encodeBlock blk) (BitVec.ofNat 4 i.val) = blk[i] := by
  apply decodePixel_encodeBlock_of_candidate
  obtain h | h := h <;> rw [h]
  · exact exists_candidate_eq_blockMax blk _
  · exact exists_candidate_eq_blockMin blk _

/-- "With `DECR = 0` no code is 3": the constant 0 fits no pixel better than the minimum (R161). -/
theorem encTransients_codes_ne_three {blk : Block} (hd : (encTransients blk).decr = false) (i : Fin 16) :
    (encTransients blk).codes[i] ≠ 3 := by
  obtain ⟨k, hk, -, hfirst⟩ := encTransients_codes_spec blk i
  rw [hk]
  intro h3
  obtain rfl : k = 3 := congrArg BitVec.toFin h3
  have closer : (residual blk[i] 0).toNat < (residual blk[i] (blockMin blk)).toNat := by
    have := hfirst 0 (by decide)
    rwa [hd] at this
  rw [residual_zero_right] at closer
  exact closer.not_ge (residual_blockMin_le_pixel blk i)

/-- Settles O28: the stored bounds by the order, no code 3 in the increasing order, and the extremes are candidates. -/
theorem encoderOutputInvariants : Obligations.EncoderOutputInvariants := by
  refine fun blk => ⟨fun hd => ?_, fun hd => ?_, encTransients_codes_ne_three, fun i => decodePixel_encodeBlock_of_extreme⟩
  · obtain ⟨h0, h1⟩ := encodeBlock_ends_of_decr hd
    rw [h0, h1]
    exact blockMin_le_blockMax blk
  · obtain ⟨h0, h1⟩ := encodeBlock_ends_of_not_decr hd
    rw [h0, h1]
    exact blockMin_le_blockMax blk

/-- A block with one value encodes to a zero word (R93, R161). -/
theorem unpackCodeword_encodeBlock_eq_zero {blk : Block} (h : blockMax blk = blockMin blk) :
    unpackCodeword (encodeBlock blk) = 0 := by
  refine packCodewordsFillsEveryLane.2 _ _ fun i => ?_
  rw [encodeBlock_lane, ← encTransients_codes, encTransients_codes_eq_zero h i]
  exact BitVec.extractLsb'_zero.symm

/-- Equal stored endpoints come from a block with one value (R93). -/
theorem blockMax_eq_blockMin {blk : Block} (h : (encodeBlock blk)[0] = (encodeBlock blk)[1]) : blockMax blk = blockMin blk := by
  obtain hd | hd := (encTransients blk).decr.eq_false_or_eq_true
  · obtain ⟨h0, h1⟩ := encodeBlock_ends_of_decr hd
    exact h0.symm.trans (h.trans h1)
  · obtain ⟨h0, h1⟩ := encodeBlock_ends_of_not_decr hd
    exact h1.symm.trans (h.symm.trans h0)

/-- Settles O27: an order of the stored endpoints other than the chosen one contradicts the invariants of the output. -/
theorem encoderNeverProducesTheseBlocks : Obligations.EncoderNeverProducesTheseBlocks := by
  intro blk
  obtain ⟨decreasing, increasing, noThree, -⟩ := encoderOutputInvariants blk
  have chosen : (encodeBlock blk)[0].toNat < (encodeBlock blk)[1].toNat → (encTransients blk).decr = false :=
    fun h => Bool.eq_false_iff.mpr fun hd => h.not_ge (decreasing hd)
  refine ⟨fun h => unpackCodeword_encodeBlock_eq_zero (blockMax_eq_blockMin h), fun h i => ?_, fun h => ?_, chosen⟩
  · rw [encodeBlock_lane, ← encTransients_codes]
    exact noThree (chosen h) i
  · exact Bool.of_not_eq_false fun hd => h.not_ge (increasing hd)

/-- A constant block encodes to its value twice and a zero word (R161). -/
theorem encodeBlock_constBlock (v : Byte) : encodeBlock (constBlock v) = #v[v, v, 0, 0, 0, 0] := by
  have hone : blockMax (constBlock v) = blockMin (constBlock v) := by rw [blockMax_constBlock, blockMin_constBlock]
  have h0 : (encodeBlock (constBlock v))[0] = v :=
    BitVec.eq_of_toNat_eq (by rw [encodeBlock_byte0, ← hone, ite_self, blockMax_constBlock])
  have h1 : (encodeBlock (constBlock v))[1] = v :=
    BitVec.eq_of_toNat_eq (by rw [encodeBlock_byte1, ← hone, ite_self, blockMax_constBlock])
  rw [← emitBlock_unpackCodeword (encodeBlock (constBlock v)), h0, h1, unpackCodeword_encodeBlock_eq_zero hone]
  rfl

/-- A zero word decodes to the first endpoint everywhere (R175). -/
theorem decodePixel_zero_word (v w : Byte) (p : PixIdx) : decodePixel #v[v, w, 0, 0, 0, 0] p = v := by
  have zero : unpackCodeword #v[v, w, 0, 0, 0, 0] = 0#32 := by
    change codewordOfBytes 0 0 0 0 = 0#32
    decide
  rw [decodePixel_eq, zero, BitVec.extractLsb'_zero]
  exact paletteLookup_code0 v w

/-- Settles O26: the bytes of a constant block; in a block of 0s and 255s every pixel is the minimum or the maximum. -/
theorem constantAndTwoValuedBlocksAreExact : Obligations.ConstantAndTwoValuedBlocksAreExact := by
  refine ⟨fun v => ⟨encodeBlock_constBlock v, decodePixel_zero_word v v⟩, fun blk h i =>
    decodePixel_encodeBlock_of_extreme ?_⟩
  obtain hi | hi := h i
  · exact .inr (hi.trans (blockMin_eq_zero ⟨i, hi⟩).symm)
  · exact .inl (hi.trans (blockMax_eq_255 ⟨i, hi⟩).symm)

end Sys2Proof.Machine
end

section
/-!
SUPPORT and PROOFS. The order of the work in a procedure does not matter: a compressed image is fixed by its blocks and an
image by its pixels, and all of them are stored at the end (R200).
-/

namespace Sys2Proof.Machine

/-- Canonical buffers that hold the same compressed blocks are equal. -/
theorem compressed_ext {w h : Nat} {m m' : Memory} (hm : m.wf = true) (hm' : m'.wf = true)
    (hs : m.size = compressedLength w h) (hs' : m'.size = compressedLength w h)
    (e : ∀ i j, i < w / 4 → j < h / 4 → ∀ k : Fin 6,
      m.readByte (6 * (j * (w / 4) + i) + k.val) = m'.readByte (6 * (j * (w / 4) + i) + k.val)) : m = m' := by
  have length : compressedLength w h = 6 * blockCount w h := Nat.mul_comm _ _
  refine image_ext hm hm' (hs.trans length) (hs'.trans length) fun k n hk hn => ?_
  have hw : 0 < w / 4 := Nat.pos_of_mul_pos_right (Nat.zero_lt_of_lt hn)
  have place := e (n % (w / 4)) (n / (w / 4)) (Nat.mod_lt n hw) (Nat.div_lt_of_lt_mul hn) ⟨k, hk⟩
  rwa [Nat.div_add_mod', Nat.mul_comm] at place

/-- Two outputs of ENCODE_IMAGE in which all blocks of one image are stored are equal. -/
theorem EncodingFrom.cmp_eq {s a b : State} (ha : EncodingFrom s a) (hb : EncodingFrom s b)
    (hsa : ∀ o ∈ blockOrigins s.width s.height, BlockStored s o a)
    (hsb : ∀ o ∈ blockOrigins s.width s.height, BlockStored s o b) : a.cmp = b.cmp := by
  refine compressed_ext ha.cmp_wf hb.cmp_wf ha.cmp_size hb.cmp_size fun i j hi hj k => ?_
  have origin : (4 * i, 4 * j) ∈ blockOrigins s.width s.height := mem_blockOrigins.mpr ⟨i, j, hi, hj, rfl, rfl⟩
  exact ((blockStored_iff.mp (hsa _ origin)).2 k).trans ((blockStored_iff.mp (hsb _ origin)).2 k).symm

/-- Two outputs of DECODE_IMAGE in which all pixels of one image are stored are equal. -/
theorem DecodingFrom.img_eq {s a b : State} (ha : DecodingFrom s a) (hb : DecodingFrom s b)
    (hsa : ∀ xy ∈ pixelOrder s.width s.height, PixelStored s xy a)
    (hsb : ∀ xy ∈ pixelOrder s.width s.height, PixelStored s xy b) : a.img = b.img := by
  refine image_ext ha.img_wf hb.img_wf ha.img_size hb.img_size fun x y hx hy => ?_
  have pixel : (x, y) ∈ pixelOrder s.width s.height := mem_pixelOrder.mpr ⟨hx, hy⟩
  exact (hsa _ pixel).2.trans (hsb _ pixel).2.symm

/-- Settles O34: in either order all pieces are stored, and they fix the output. -/
theorem orderOfWorkDoesNotMatter : Obligations.OrderOfWorkDoesNotMatter := by
  refine fun s hw hh => ⟨fun origins hperm hs => ?_, fun pixels hperm hs => ?_⟩
  · obtain ⟨t, ht, from_t, stored⟩ := encodeInOrder_stores hs fun o => hperm.mem_iff.mp
    obtain ⟨t', ht', from_t', stored'⟩ := encodeInOrder_stores hs fun _ h => h
    obtain ⟨u, m, frame⟩ := from_t.frame
    exact ⟨t, t', ht, ht', from_t.cmp_eq from_t' (fun o ho => stored o (hperm.mem_iff.mpr ho)) stored', by rw [frame]⟩
  · obtain ⟨t, ht, from_t, stored⟩ := decodeInOrder_stores hw.mod_eq hh.mod_eq hs fun xy => hperm.mem_iff.mp
    obtain ⟨t', ht', from_t', stored'⟩ := decodeInOrder_stores hw.mod_eq hh.mod_eq hs fun _ h => h
    obtain ⟨u, m, frame⟩ := from_t.frame
    exact ⟨t, t', ht, ht', from_t.img_eq from_t' (fun xy hm => stored xy (hperm.mem_iff.mpr hm)) stored', by rw [frame]⟩

end Sys2Proof.Machine
end

section
/-!
SUPPORT and PROOFS. Procedures side by side: what a piece of work makes of its call depends on the call alone, and a call whose
work is all done returns the bytes that the procedure in one step stores (R62, R200, R247, R250).
-/

namespace Sys2Proof.Machine

/-- One turn of ENCODE_IMAGE's loop, from what it reads and stores (R192). -/
theorem encodeOneBlock_eq {o : Nat × Nat} {s : State} {blk : Block} {m : Memory}
    (hb : readBlock s.img s.width o.1 o.2 = some blk)
    (hm : s.cmp.write (blockIndex s.width o.1 o.2 * 6) (encodeBlock blk).toList = some m) :
    encodeOneBlock o s = some { s with enc := encTransact blk s.enc, cmp := m } := by
  simp only [encodeOneBlock, hb, encTransact_eq, hm]

/-- One turn of DECODE_IMAGE's loop, from what it reads and stores (R196). -/
theorem decodeOnePixel_eq {xy : Nat × Nat} {s : State} {cb : CBlock} {m : Memory}
    (hc : readCblock s.cmp (blockIndex s.width xy.1 xy.2) = some cb)
    (hm : s.img.write (pixelAddr s.width xy.1 xy.2) [decodePixel cb (pixelIndex xy.1 xy.2)] = some m) :
    decodeOnePixel xy s = some { s with dec := decTransact cb (pixelIndex xy.1 xy.2) s.dec, img := m } := by
  simp only [decodeOnePixel, hc, decTransact_eq, hm]

/-- What a piece of work stores in a call's buffers does not depend on the state it is done in. -/
theorem work_lend_congr {c : Call} {piece : Nat × Nat} {s r : State} (h : c.proc.work piece (c.lend s) = some r) (s' : State) :
    ∃ r', c.proc.work piece (c.lend s') = some r' ∧ c.after piece r' = c.after piece r := by
  cases hp : c.proc with
  | encodeImage =>
    rw [hp] at h
    obtain ⟨blk, m, hb, hm, rfl⟩ := encodeOneBlock_eq_some h
    exact ⟨_, encodeOneBlock_eq (s := c.lend s') hb hm, rfl⟩
  | decodeImage =>
    rw [hp] at h
    obtain ⟨cb, m, hcb, hm, rfl⟩ := decodeOnePixel_eq_some h
    exact ⟨_, decodeOnePixel_eq (s := c.lend s') hcb hm, rfl⟩

/-- What of a state a piece of work changes: the unit of the procedure's kind, which ends in DONE, and the output. -/
theorem work_frame {p : Proc} {piece : Nat × Nat} {s r : State} (h : p.work piece s = some r) :
    (p = .encodeImage → r.enc.ph = .done ∧ r.dec = s.dec ∧ r.img = s.img) ∧
    (p = .decodeImage → r.dec.ph = .done ∧ r.enc = s.enc ∧ r.cmp = s.cmp) := by
  cases p with
  | encodeImage =>
    obtain ⟨blk, m, -, -, rfl⟩ := encodeOneBlock_eq_some h
    exact ⟨fun _ => ⟨rfl, rfl, rfl⟩, nofun⟩
  | decodeImage =>
    obtain ⟨cb, m, -, -, rfl⟩ := decodeOnePixel_eq_some h
    exact ⟨nofun, fun _ => ⟨rfl, rfl, rfl⟩⟩

/-- A piece that a call in order has still to do runs, in any state (R191, R195). -/
theorem work_isSome {c : Call} (hc : c.Ok) {piece : Nat × Nat} (hm : piece ∈ c.todo) (s : State) :
    ∃ r, c.proc.work piece (c.lend s) = some r := by
  cases hp : c.proc with
  | encodeImage =>
    simp only [Call.Ok, hp] at hc
    obtain ⟨-, -, -, hcmp, hsize, hout, htodo, -⟩ := hc
    obtain ⟨r, hr, -⟩ := EncodingImage.exists_turn (s := c.lend s) ⟨rfl, rfl, hsize, hout, hcmp⟩ (htodo piece hm)
    exact ⟨r, hr⟩
  | decodeImage =>
    simp only [Call.Ok, hp] at hc
    obtain ⟨hw, hh, himg, -, hsize, hin, htodo, -⟩ := hc
    obtain ⟨r, hr, -⟩ :=
      DecodingImage.exists_turn (s := c.lend s) ⟨rfl, rfl, hsize, hin, himg⟩ hw.mod_eq hh.mod_eq (htodo piece hm)
    exact ⟨r, hr⟩

/-- Under the invariant every call under way is in order. -/
theorem State.Inv.call_ok {s : State} (h : s.Inv) {n : Nat} {c : Call} (hc : s.calls[n]? = some c) : c.Ok := by
  obtain ⟨-, -, -, -, -, -, -, hcalls⟩ := h
  exact hcalls c (List.mem_of_getElem? hc)

/-- The step that does a piece of a call's work. -/
theorem step_workOn {s r : State} {n : Nat} {piece : Nat × Nat} {rest : List Action} {c : Call}
    (hs : s.script = .workOn n piece :: rest) (hc : s.calls[n]? = some c) (hp : piece ∈ c.todo)
    (hr : c.proc.work piece (c.lend { s with script := rest }) = some r) :
    step s = .next { s with enc := r.enc, dec := r.dec, calls := s.calls.set n (c.after piece r), script := rest, ret := none } :=
  (step_action hs).trans (workOn_eq (s := { s with script := rest }) hc hp hr)

/-- Settles O59: the piece runs because its call is in order, in its frame, and with the same effect on the call anywhere. -/
theorem callsRunSideBySide : Obligations.CallsRunSideBySide := by
  intro s n piece rest c hinv hs hc hp
  obtain ⟨r, hr⟩ := work_isSome (hinv.call_ok hc) hp { s with script := rest }
  obtain ⟨henc, hdec⟩ := work_frame hr
  refine ⟨c.after piece r, r.enc, r.dec, step_workOn hs hc hp hr, henc, hdec, rfl, rfl, rfl, rfl, fun s' n' rest' hs' hc' => ?_⟩
  obtain ⟨r', hr', same⟩ := work_lend_congr hr { s' with script := rest' }
  exact ⟨_, step_workOn hs' hc' hp hr', by rw [same]⟩

/-- A call begins when the checks of ENCODE_IMAGE pass (R191). -/
theorem beginCall_encode_accepted {s : State} (hd : dimsOk s.width s.height = true) (hs : s.img.size = s.width * s.height) :
    beginCall .encodeImage s = .next (s.withCall (Call.newEncode s)) :=
  (if_pos hd).trans (if_pos hs)

/-- A call begins when the checks of DECODE_IMAGE pass (R195). -/
theorem beginCall_decode_accepted {s : State} (hd : dimsOk s.width s.height = true)
    (hs : compressedLength s.width s.height ≤ s.cmp.size) :
    beginCall .decodeImage s = .next (s.withCall (Call.newDecode s)) :=
  (if_pos hd).trans (if_pos hs)

/-- Where a check of ENCODE_IMAGE fails, what would have come after it does not matter (R191). -/
theorem afterEncodeChecks_of_fail {s : State} (h : dimsOk s.width s.height = true → s.img.size ≠ s.width * s.height)
    (go go' : Host.Outcome State Fault Refusal) : afterEncodeChecks s go = afterEncodeChecks s go' := by
  unfold afterEncodeChecks
  split
  · rw [if_neg (h ‹_›), if_neg (h ‹_›)]
  · rfl

/-- Where a check of DECODE_IMAGE fails, what would have come after it does not matter (R195). -/
theorem afterDecodeChecks_of_fail {s : State}
    (h : dimsOk s.width s.height = true → ¬ compressedLength s.width s.height ≤ s.cmp.size)
    (go go' : Host.Outcome State Fault Refusal) : afterDecodeChecks s go = afterDecodeChecks s go' := by
  unfold afterDecodeChecks
  split
  · rw [if_neg (h ‹_›), if_neg (h ‹_›)]
  · rfl

/-- The end of a call with nothing left to do (R190, R250). -/
theorem endCall_eq {n : Nat} {s : State} {c : Call} {bs : List Byte} (hc : s.calls[n]? = some c) (hd : c.todo = [])
    (hb : c.output.read 0 c.output.size = some bs) :
    endCall n s = .next { s with calls := s.calls.eraseIdx n, outcome := some .success, ret := some (.bytes bs) } := by
  simp only [endCall, hc, hd, if_true, hb]
  rfl

theorem Call.Ok.output_wf {c : Call} (hc : c.Ok) : c.output.wf = true := by
  obtain ⟨-, -, himg, hcmp, -⟩ := hc
  cases hp : c.proc with
  | encodeImage => simpa only [Call.output, hp] using hcmp
  | decodeImage => simpa only [Call.output, hp] using himg

/-- The output of a call of ENCODE_IMAGE whose blocks are all done is CMP as the procedure in one step leaves it. -/
theorem exec_encodeImage_of_done {c : Call} (hp : c.proc = .encodeImage) (hc : c.Ok) (hd : c.todo = []) (s : State) :
    ∃ t, exec .encodeImage (c.lend s) = .next t ∧ t.outcome = some .success ∧ t.cmp = c.output := by
  simp only [Call.Ok, hp] at hc
  obtain ⟨hw, hh, -, hcmp, hsize, hout, -, hbytes⟩ := hc
  obtain ⟨u, m, -, hrun, hmsize, hmwf, hblocks⟩ := encodeImageWritesEveryBlock (c.lend s) hw hh hsize
  have same : m = c.cmp := compressed_ext hmwf hcmp hmsize hout fun i j hi hj k =>
    (hblocks i j hi hj k).trans (hbytes i j hi hj (by simp [hd]) k).symm
  exact ⟨_, hrun, rfl, by simp only [Call.output, hp, same]⟩

/-- The output of a call of DECODE_IMAGE whose pixels are all done is IMG as the procedure in one step leaves it. -/
theorem exec_decodeImage_of_done {c : Call} (hp : c.proc = .decodeImage) (hc : c.Ok) (hd : c.todo = []) (s : State) :
    ∃ t, exec .decodeImage (c.lend s) = .next t ∧ t.outcome = some .success ∧ t.img = c.output := by
  simp only [Call.Ok, hp] at hc
  obtain ⟨hw, hh, himg, -, hsize, hin, -, hbytes⟩ := hc
  obtain ⟨u, m, -, hrun, hmsize, hmwf, hpixels⟩ := decodeImageWritesEveryPixel (c.lend s) hw hh hin
  have same : m = c.img := image_ext hmwf himg hmsize hsize fun x y hx hy =>
    (hpixels x y hx hy).trans (hbytes x y hx hy (by simp [hd])).symm
  exact ⟨_, hrun, rfl, by simp only [Call.output, hp, same]⟩

/-- Both procedures at once: the one step stores what the finished call has stored. -/
theorem exec_instr_of_done {c : Call} (hc : c.Ok) (hd : c.todo = []) (s : State) :
    ∃ t, exec c.proc.instr (c.lend s) = .next t ∧ t.outcome = some .success ∧
      (c.proc = .encodeImage → t.cmp = c.output) ∧ (c.proc = .decodeImage → t.img = c.output) := by
  cases hp : c.proc with
  | encodeImage =>
    obtain ⟨t, ht, hout, hcmp⟩ := exec_encodeImage_of_done hp hc hd s
    exact ⟨t, ht, hout, fun _ => hcmp, nofun⟩
  | decodeImage =>
    obtain ⟨t, ht, hout, himg⟩ := exec_decodeImage_of_done hp hc hd s
    exact ⟨t, ht, hout, nofun, fun _ => himg⟩

/-- Settles O60: both begin by the same checks, and a finished call has stored what the procedure stores, so the bytes read
from its output are those of the procedure. -/
theorem callsReturnTheProceduresBytes : Obligations.CallsReturnTheProceduresBytes := by
  refine ⟨fun s p rest hs => ?_, fun s n rest c hinv hs hc hd => ?_⟩
  · rw [step_action hs]
    cases p with
    | encodeImage =>
      refine ⟨fun ⟨hw, hh, hsize, _⟩ => ?_, fun hfail => afterEncodeChecks_of_fail (fun hdims hsize => hfail ?_) _ _⟩
      · exact ⟨_, beginCall_encode_accepted (s := { s with script := rest }) (dimsOk_iff.mpr ⟨hw, hh⟩) (hsize rfl), rfl, rfl,
          rfl, fun _ => ⟨rfl, rfl⟩, nofun⟩
      · exact ⟨(dimsOk_iff.mp hdims).1, (dimsOk_iff.mp hdims).2, fun _ => hsize, nofun⟩
    | decodeImage =>
      refine ⟨fun ⟨hw, hh, _, hsize⟩ => ?_, fun hfail => afterDecodeChecks_of_fail (fun hdims hsize => hfail ?_) _ _⟩
      · exact ⟨_, beginCall_decode_accepted (s := { s with script := rest }) (dimsOk_iff.mpr ⟨hw, hh⟩) (hsize rfl), rfl, rfl,
          rfl, nofun, fun _ => ⟨rfl, rfl⟩⟩
      · exact ⟨(dimsOk_iff.mp hdims).1, (dimsOk_iff.mp hdims).2, nofun, fun _ => hsize⟩
  · have hok : c.Ok := hinv.call_ok hc
    obtain ⟨bs, hread, hbytes⟩ := ofBytes_read hok.output_wf
    obtain ⟨t, ht, hout, hcmp, himg⟩ := exec_instr_of_done hok hd s
    exact ⟨bs, t, (step_action hs).trans (endCall_eq (s := { s with script := rest }) hc hd hread), ht, hout,
      fun hp => (hcmp hp).trans hbytes.symm, fun hp => (himg hp).trans hbytes.symm⟩

end Sys2Proof.Machine
end
